-- ==== Sys2Proof/Word.lean ====
section
/-! DEFINITION. The width parameters of 00_scope.md R10 as configuration fields (the other parameters are in Config.lean),
and the block's stored values at those widths. -/

namespace Sys2Proof

/-- ADDR_W: the width of MEM byte addresses and of SRC_ADDR, SRC_LEN, DST_ADDR and DST_CAP (00_scope.md R10). -/
abbrev Config.addrW : Nat := 32

/-- CSR_W: the width of every CSR (00_scope.md R10). -/
abbrev Config.csrW : Nat := 32

/-- SYM_W: the width of a symbol word in MEM and of a record's symbol field (00_scope.md R10). -/
abbrev Config.symW : Nat := 32

/-- COUNT_W: the width of frequency counters, node weights, symbol counts and bit counts (00_scope.md R10). -/
abbrev Config.countW : Nat := 64

/-- The bytes of a symbol word and of a record's symbol field: SYM_W bits (00_scope.md R10). -/
abbrev Config.symBytes : Nat := Config.symW / 8

/-- The bytes of a count field of a container: COUNT_W bits (00_scope.md R10). -/
abbrev Config.countBytes : Nat := Config.countW / 8

/-- One byte of MEM (20_memory.md R60). -/
abbrev Byte := BitVec 8

/-- A CSR or a command word: CSR_W bits (00_scope.md R10). -/
abbrev Word := BitVec Config.csrW

/-- A MEM byte address, or a region CSR: ADDR_W bits (00_scope.md R10). -/
abbrev Addr := BitVec Config.addrW

/-- A count, a bit count or an error index: COUNT_W bits (00_scope.md R10). -/
abbrev DWord := BitVec Config.countW

/-- A bit sequence: a finite list of bits, index 0 written or read first (00_scope.md R12). -/
abbrev Bits := List Bool

end Sys2Proof
end

