-- ==== Sys2Proof/Syntax.lean ====
section
/-! DEFINITION. What the block is given, as plain syntax: the five commands (30_encoding.md R81), the named CSRs
(10_state.md R23), the events one step consumes (10_state.md R54, 20_memory.md R69), the transaction tuple and the
assembler lines of 30_encoding.md R85 to R87. -/

namespace Sys2Proof

/-- The commands, one for each row of the opcode table. No command has an operand field (30_encoding.md R80): the
operands are the argument CSRs (R83). -/
inductive Instr where
  /-- 0x00000000, immediate (47_control_commands.md R291). -/
  | nop
  /-- 0x00000001, long (45_encoder.md R221). -/
  | encode
  /-- 0x00000002, long (46_decoder.md R251). -/
  | decode
  /-- 0x00000003, immediate (47_control_commands.md R292). -/
  | clear
  /-- 0x00000004, immediate (47_control_commands.md R293). -/
  | softReset
  deriving DecidableEq, Repr

/-- Why a command word is no command (30_encoding.md R82). Either way the block raises IllegalCommandError. -/
inductive DecodeReject where
  /-- Bits 31:8 are not zero, whatever the opcode. -/
  | rsvdNotZero
  /-- Bits 31:8 are zero and the opcode is 0x05 … 0xFF. -/
  | reservedOpcode
  deriving DecidableEq, Repr

/-- The CSRs of the map of 10_state.md R23, in the order of their offsets. -/
inductive CsrName where
  | id | version | ctrl | status | cmd
  | alphabetSize | srcAddr | srcLen | dstAddr | dstCap
  | resultLen | resultCountLo | resultCountHi | payloadBitsLo | payloadBitsHi | tableEntries
  | errIndexLo | errIndexHi | errValue
  | maxAlphabet | memBytes
  deriving DecidableEq, Repr

/-- One event of the total order of 20_memory.md R71: one of the host's four atomic transactions (10_state.md R54),
a hardware reset (70_reset_and_hazards.md R340), or a slot in which the engine may take its completion step
(20_memory.md R70). No breakpoint, watchpoint, single step or trace is among them: the block has none (60_exceptions.md
R334). -/
inductive Event where
  /-- A CSR read at a byte offset. -/
  | csrRead (off : BitVec 12)
  /-- A CSR write of a whole word at a byte offset. -/
  | csrWrite (off : BitVec 12) (w : Word)
  /-- A MEM byte read. -/
  | memRead (a : Addr)
  /-- A MEM byte write. -/
  | memWrite (a : Addr) (v : Byte)
  /-- `rst_n` is asserted. -/
  | hwReset
  /-- The engine's turn: it completes the running command, and does nothing while IDLE. -/
  | engineSlot
  deriving DecidableEq, Repr

/-- The port of a transaction tuple (30_encoding.md R86). -/
inductive Port where
  | csr | mem
  deriving DecidableEq, Repr

/-- The direction of a transaction tuple (30_encoding.md R86). -/
inductive Dir where
  | r | w
  deriving DecidableEq, Repr

/-- The transaction tuple `(port, dir, addr, data)` of 30_encoding.md R86, as written: its numbers may not fit. -/
structure Tuple where
  port : Port
  dir  : Dir
  addr : Nat
  data : Option Nat
  deriving DecidableEq, Repr

/-- One line of a host program (30_encoding.md R85), pseudo-operations included (R87). -/
inductive AsmLine where
  | csrw (name : CsrName) (value : Nat)
  | csrr (name : CsrName)
  | memw (addr : Nat) (bytes : List Nat)
  | memr (addr : Nat) (n : Nat)
  | cmd (i : Instr)
  | wait
  | clrdone
  | memw32 (addr : Nat) (value : Nat)
  | memr32 (addr : Nat)
  deriving DecidableEq, Repr

end Sys2Proof
end

