-- ==== Sys2Proof/WellFormed.lean ====
section
/-! DEFINITION. When a piece of syntax is one the block's interface can carry: a command (every one, since no command
has an operand field, 30_encoding.md R80), a transaction tuple (R86) and an assembler line (R85). -/

namespace Sys2Proof

/-- A command carries no operand, so every command is well formed (30_encoding.md R80, R84). -/
def Instr.wf : Instr → Bool
  | .nop | .encode | .decode | .clear | .softReset => true

/-- A CSR offset lies in [0x000, 0xFFF] (10_state.md R22); a MEM address is ADDR_W bits wide (10_state.md R54). -/
def Tuple.addrFits (t : Tuple) : Bool :=
  match t.port with
  | .csr => t.addr < 2 ^ 12
  | .mem => t.addr < 2 ^ Config.addrW

/-- A write carries data of the port's width, and a read carries none (30_encoding.md R86, 10_state.md R54). -/
def Tuple.dataFits (t : Tuple) : Bool :=
  match t.port, t.dir, t.data with
  | .csr, .w, some v => v < 2 ^ Config.csrW
  | .mem, .w, some v => v < 2 ^ 8
  | _, .r, none => true
  | _, _, _ => false

/-- A tuple the ports of 10_state.md R54 can carry. -/
def Tuple.wf (t : Tuple) : Bool := t.addrFits && t.dataFits

/-- An assembler line whose numbers fit the transactions it expands to (30_encoding.md R85 to R87). -/
def AsmLine.wf : AsmLine → Bool
  | .csrw _ v => v < 2 ^ Config.csrW
  | .csrr _ => true
  | .memw a bs => a + bs.length ≤ 2 ^ Config.addrW && bs.all (· < 2 ^ 8)
  | .memr a n => a + n ≤ 2 ^ Config.addrW
  | .cmd i => i.wf
  | .wait => true
  | .clrdone => true
  | .memw32 a v => a + 4 ≤ 2 ^ Config.addrW && v < 2 ^ 32
  | .memr32 a => a + 4 ≤ 2 ^ Config.addrW

end Sys2Proof
end

