-- ==== Sys2Proof/Decode.lean ====
section
/-! DEFINITION. Decoding and encoding, written from the tables of 30_encoding.md and 10_state.md: command words (R80,
R81), CSR offsets (R23), transaction tuples (R86) and the expansion of assembler lines (R85, R87). The bytes of
containers are in Machine/CodeTable.lean, Machine/Encoder.lean and Machine/Decoder.lean. -/

namespace Sys2Proof

/-- OPCODE, bits 7:0 of a command word (30_encoding.md R80). -/
def opcodeOf (w : Word) : BitVec 8 := w.extractLsb' 0 8

/-- RSVD, bits 31:8 of a command word (30_encoding.md R80). -/
def rsvdOf (w : Word) : BitVec 24 := w.extractLsb' 8 24

/-- The command an opcode names (30_encoding.md R81); 0x05 … 0xFF are reserved (R82). -/
def commandOf (op : BitVec 8) : Option Instr :=
  match op.toNat with
  | 0 => some .nop
  | 1 => some .encode
  | 2 => some .decode
  | 3 => some .clear
  | 4 => some .softReset
  | _ => none

/-- The decoder of command words, total on all 2^32 words (30_encoding.md R81, R82). -/
def decode (w : Word) : Except DecodeReject Instr :=
  if rsvdOf w ≠ 0 then .error .rsvdNotZero
  else
    match commandOf (opcodeOf w) with
    | some i => .ok i
    | none => .error .reservedOpcode

/-- The opcode of a command (30_encoding.md R81). -/
def opcode : Instr → BitVec 8
  | .nop => 0x00#8
  | .encode => 0x01#8
  | .decode => 0x02#8
  | .clear => 0x03#8
  | .softReset => 0x04#8

/-- The command word of a command: RSVD zero above its opcode (30_encoding.md R80). -/
def encode (i : Instr) : Word := 0#24 ++ opcode i

/-- The word the opcode table numbers `w`: one 32-bit CSR write, bit 0 its least significant bit (30_encoding.md R84). -/
def tableWord (w : Nat) : Word := BitVec.ofNat Config.csrW w

/-- What `decode` reads from an instruction of the opcode table whose bits are `w`. A command is exactly one 32-bit
word (30_encoding.md R84), so a wider number is none. -/
def decodeTableWord (nbits w : Nat) : Option Instr :=
  if nbits ≤ Config.csrW ∧ w < 2 ^ Config.csrW then
    match decode (tableWord w) with
    | .ok i => some i
    | .error _ => none
  else none

/-- The byte offset of a CSR (10_state.md R23). -/
def csrOffset : CsrName → BitVec 12
  | .id => 0x000#12
  | .version => 0x004#12
  | .ctrl => 0x008#12
  | .status => 0x00C#12
  | .cmd => 0x010#12
  | .alphabetSize => 0x014#12
  | .srcAddr => 0x018#12
  | .srcLen => 0x01C#12
  | .dstAddr => 0x020#12
  | .dstCap => 0x024#12
  | .resultLen => 0x028#12
  | .resultCountLo => 0x02C#12
  | .resultCountHi => 0x030#12
  | .payloadBitsLo => 0x034#12
  | .payloadBitsHi => 0x038#12
  | .tableEntries => 0x03C#12
  | .errIndexLo => 0x040#12
  | .errIndexHi => 0x044#12
  | .errValue => 0x048#12
  | .maxAlphabet => 0x04C#12
  | .memBytes => 0x050#12

/-- All CSRs in the order of their offsets (10_state.md R23). -/
def allCsrs : List CsrName :=
  [.id, .version, .ctrl, .status, .cmd, .alphabetSize, .srcAddr, .srcLen, .dstAddr, .dstCap] ++
  [.resultLen, .resultCountLo, .resultCountHi, .payloadBitsLo, .payloadBitsHi, .tableEntries] ++
  [.errIndexLo, .errIndexHi, .errValue, .maxAlphabet, .memBytes]

/-- The CSR an access at a byte offset reaches: the offset is rounded down to a multiple of 4, and the offsets the map
does not list reach none (10_state.md R22, R23). -/
def csrAt (off : BitVec 12) : Option CsrName :=
  allCsrs.find? fun n => (csrOffset n).toNat == off.toNat / 4 * 4

/-- The tuple of a host transaction (30_encoding.md R86); a hardware reset and an engine slot are no transactions. -/
def Event.toTuple : Event → Option Tuple
  | .csrRead off => some ⟨.csr, .r, off.toNat, none⟩
  | .csrWrite off w => some ⟨.csr, .w, off.toNat, some w.toNat⟩
  | .memRead a => some ⟨.mem, .r, a.toNat, none⟩
  | .memWrite a v => some ⟨.mem, .w, a.toNat, some v.toNat⟩
  | .hwReset => none
  | .engineSlot => none

/-- The transaction a tuple encodes (30_encoding.md R86), none where the tuple is not well formed. -/
def Tuple.toEvent (t : Tuple) : Option Event :=
  if t.wf then
    match t.port, t.dir, t.data with
    | .csr, .r, _ => some (.csrRead (BitVec.ofNat 12 t.addr))
    | .csr, .w, some v => some (.csrWrite (BitVec.ofNat 12 t.addr) (BitVec.ofNat Config.csrW v))
    | .mem, .r, _ => some (.memRead (BitVec.ofNat Config.addrW t.addr))
    | .mem, .w, some v => some (.memWrite (BitVec.ofNat Config.addrW t.addr) (BitVec.ofNat 8 v))
    | _, .w, none => none
  else none

/-- The address the MEM port carries for the unbounded address a. An address does not wrap to 0: at or above MEM_BYTES it
is outside MEM (20_memory.md R60). One that ADDR_W bits cannot carry is carried as 2^32 − 1, which lies outside every MEM
(MEM_BYTES ≤ 2^32 − 1), so that the access has the effect of one outside MEM (R67). That such an access is made, at that
address, is a DESIGN CHOICE (log 17): `AsmLine.wf` calls a line with such an address ill-formed. -/
def portAddr (a : Nat) : Addr := BitVec.ofNat Config.addrW (min a (2 ^ Config.addrW - 1))

/-- `memw a, b0, b1, …`: one byte write for each byte, in order (30_encoding.md R85, R86). -/
def memwEvents : Nat → List Nat → List Event
  | _, [] => []
  | a, b :: bs => .memWrite (portAddr a) (BitVec.ofNat 8 b) :: memwEvents (a + 1) bs

/-- `memr a, n`: n byte reads from a upward (30_encoding.md R85, R86). -/
def memrEvents (a : Nat) : Nat → List Event
  | 0 => []
  | n + 1 => .memRead (portAddr a) :: memrEvents (a + 1) n

/-- The expansion of a line into events (30_encoding.md R85 to R87). `wait`, a loop of STATUS reads until BUSY reads 0,
is one read, a slot for the engine and a last read: by freedom U25 any number of polls gives the same end state
(DESIGN CHOICE, log 15). The expansion does not ask for `AsmLine.wf`: a memw, memr, memw32 or memr32 line that runs past
address 2^32 − 1 goes on outside MEM (20_memory.md R60; `portAddr`, log 17). -/
def AsmLine.expand : AsmLine → List Event
  | .csrw n v => [.csrWrite (csrOffset n) (BitVec.ofNat Config.csrW v)]
  | .csrr n => [.csrRead (csrOffset n)]
  | .memw a bs => memwEvents a bs
  | .memr a n => memrEvents a n
  | .cmd i => [.csrWrite (csrOffset .cmd) (Sys2Proof.encode i)]
  | .wait => [.csrRead (csrOffset .status), .engineSlot, .csrRead (csrOffset .status)]
  | .clrdone => [.csrWrite (csrOffset .status) 0x00000002#32]
  | .memw32 a v => memwEvents a [v % 256, v / 256 % 256, v / 65536 % 256, v / 16777216 % 256]
  | .memr32 a => memrEvents a 4

/-- A host program's events, line by line (30_encoding.md R85). -/
def assemble (p : List AsmLine) : List Event := p.flatMap AsmLine.expand

end Sys2Proof
end

