-- ==== Sys2Proof/Machine/WorkState.lean ====
section
/-! DEFINITION. The engine's working state as plain data (10_state.md R49, 43_code_table.md R179). It lives only as
long as one command (R50). Counts, weights, sequence numbers and indices are naturals: the spec computes with unbounded
naturals and stores no wrapped value (00_scope.md R13). Counters and node weights have a width of COUNT_W bits
(`Config.countW`, R10) and always fit it (40_frequency_table.md R123, 42_tree_builder.md R161):
`Obligations.CountingPassCountsOrReportsTheFirstBadSymbol` and `Obligations.BuiltTreeHasTheHuffmanShape` state the bound
(log 12). -/

namespace Sys2Proof.Machine

/-- FREQ as a map: the symbols with a non-zero count, ascending (40_frequency_table.md R124, freedom U23). A symbol
that is not listed counts 0. -/
abbrev Freq := List (Nat × Nat)

/-- CODES as a map, ascending by symbol (43_code_table.md R170). A symbol that is not listed has no code. -/
abbrev Codes := List (Nat × Bits)

/-- A node of ARENA (00_scope.md R16, 42_tree_builder.md R150). A child is an arena index, and `none` is NIL. -/
inductive Node where
  | leaf (sym : Nat) (weight : Nat)
  | internal (left right : Option Nat) (weight : Nat)
  deriving DecidableEq, Repr, Inhabited

/-- A priority-queue entry `(weight, seq, node)` (41_priority_queue.md R130). -/
structure QEntry where
  weight : Nat
  seq    : Nat
  node   : Nat
  deriving DecidableEq, Repr, Inhabited

/-- PQ and NEXT_SEQ (41_priority_queue.md R130): a set of entries, held in insertion order. -/
structure PQ where
  entries : List QEntry
  nextSeq : Nat
  deriving DecidableEq, Repr, Inhabited

/-- The BitWriter's `(bytes, pos)` (44_bitstream.md R201). -/
structure BitWriter where
  bytes : List Byte
  pos   : Nat
  deriving DecidableEq, Repr, Inhabited

/-- The BitReader's `base`, `nbits` and `pos` (44_bitstream.md R207). -/
structure BitReader where
  base  : Nat
  nbits : Nat
  pos   : Nat
  deriving DecidableEq, Repr, Inhabited

/-- ARENA and PQ while a tree is built (42_tree_builder.md R152). The next free index `next` is the arena's length. -/
structure Builder where
  arena : List Node
  pq    : PQ
  deriving DecidableEq, Repr, Inhabited

/-- What TB_BUILD returns (42_tree_builder.md R150). -/
inductive Tree where
  | empty
  | tree (arena : List Node) (root : Nat)
  deriving DecidableEq, Repr, Inhabited

/-- The decode trie (43_code_table.md R179): ARENA and SEEN. The counter `cnt` is the arena's length. -/
structure Trie where
  arena : List Node
  seen  : List Nat
  deriving DecidableEq, Repr, Inhabited

/-- The walk of DECODE (46_decoder.md R251): the reader, the cursor, the emitted counter and the output so far. -/
structure Walk where
  br      : BitReader
  cur     : Nat
  emitted : Nat
  out     : List Nat
  deriving DecidableEq, Repr, Inhabited

/-- All of the working state (10_state.md R49, 43_code_table.md R179). -/
structure Work where
  freq    : Freq
  arena   : List Node
  pq      : PQ
  codes   : Codes
  bw      : BitWriter
  br      : BitReader
  seen    : List Nat
  cur     : Nat
  emitted : Nat
  deriving DecidableEq, Repr, Inhabited

end Sys2Proof.Machine
end

