-- ==== Sys2Proof/Config.lean ====
section
/-! DEFINITION. The implementation parameters of 00_scope.md R10 (the four widths ADDR_W, CSR_W, SYM_W and COUNT_W are the
fields addrW, csrW, symW and countW of Config in Word.lean, whose types they give), the identity constants of 10_state.md R24, and the
free values: uninterpreted constants for what the spec leaves unspecified (93_implementation_defined.md), of which no
proof can learn anything. MEM_BYTES is a field of State, so every statement about all states holds of every
MEM_BYTES. -/

namespace Sys2Proof.Config

/-- MAX_ALPHABET = 2^24 (00_scope.md R10; the value this hardware takes, log 11). -/
def maxAlphabet : Nat := 16777216

/-- ENC_NODE_CAP = 2·MAX_ALPHABET − 1 (00_scope.md R10). No rule tests it: an encoder arena never reaches it
(42_tree_builder.md R157). -/
def encNodeCap : Nat := 2 * maxAlphabet - 1

/-- DEC_NODE_CAP = 2·MAX_ALPHABET, root included (00_scope.md R10). -/
def decNodeCap : Nat := 2 * maxAlphabet

/-- MAX_CODE_LEN = 255, the largest code length a record can state (00_scope.md R10). -/
def maxCodeLen : Nat := 255

/-- The smallest and the largest MEM_BYTES a build may have (00_scope.md R10). -/
def minMemBytes : Nat := 24
def maxMemBytes : Nat := 4294967295

/-- DESIGN CHOICE (log 1): the MEM_BYTES of `State.reset`; the spec leaves it OPEN, and 4096 is the value its test
vectors assume (95_test_vectors.md, Conventions). Unsafe for a statement about `State.reset` that rests on it. -/
def memBytesAtReset : Nat := 4096

/-- The constant of the CSR ID (10_state.md R24). -/
def idWord : Word := 0x48554646#32

/-- The constant of the CSR VERSION (10_state.md R24). -/
def versionWord : Word := 0x00000001#32

/-- LATENCY, the OPEN number of clock cycles from issue to completion (00_scope.md R10, U4). No rule depends on it, so
nothing of the model reads it: the order of events in State takes its place (log 14). -/
opaque latency : Nat

/-- Free value (U1, log 2): what a byte of MEM that nothing has written since power-up holds. -/
opaque powerUpByte : (a : Nat) → Byte

/-- Free value (U8, log 3): what a byte of an abandoned command's destination region holds after the reset that
abandoned it. Each such reset has a draw of its own. -/
opaque abandonedByte : (draw a : Nat) → Byte

/-- Free value (U2, log 4): the contents of the working state between commands. -/
opaque unspecifiedWork : (draw : Nat) → Machine.Work

end Sys2Proof.Config
end

