-- ==== Sys2Proof/Machine/State.lean ====
section
/-! DEFINITION. The machine's state as plain data (10_state.md), its value right after reset (R52), and the reasons a
step can stop. -/

namespace Sys2Proof.Machine

/-- MEM as a list of written bytes, addresses strictly rising; an unlisted address holds no written byte (log 2). -/
abbrev Memory := List Host.Cell

/-- The error kinds of 60_exceptions.md R310; `none` is code 0. -/
inductive ErrorKind where
  | none | unknownSymbol | truncatedStream | corruptTree | illegalCommand | config | bounds
  deriving DecidableEq, Repr, Inhabited

/-- What `raise E(sub, index, value)` records (00_scope.md R15, 60_exceptions.md R311). -/
structure Raised where
  kind  : ErrorKind
  sub   : Nat
  index : Nat
  value : Nat
  deriving DecidableEq, Repr, Inhabited

/-- The points of the algorithms that no input reaches (00_scope.md R15, U7). -/
inductive Unreachable where
  /-- PQ_EXTRACT_MIN on an empty queue (41_priority_queue.md R134). -/
  | pqExtractMinEmpty
  /-- BR_GET with no bit left (44_bitstream.md R210). -/
  | brGetAtEnd
  /-- A child or a leaf is asked of an arena index that holds no node of that form (the model's own point, log 9). -/
  | arenaAccess
  /-- CT_TRIE_INSERT with an empty code, which its caller has excluded (43_code_table.md R181; the model's own point,
  log 9). -/
  | emptyCode
  /-- A bounded loop runs out of its bound (the model's own point, log 9). -/
  | outOfFuel
  deriving DecidableEq, Repr, Inhabited

/-- How a command's computation ends when it does not succeed. -/
inductive Stop where
  /-- It raises an error, which is reported (60_exceptions.md R313). -/
  | raised (r : Raised)
  /-- It reaches a point that no input reaches. -/
  | unreachable (u : Unreachable)
  deriving DecidableEq, Repr, Inhabited

/-- What a command that succeeds writes: its output bytes and the result CSRs (45_encoder.md R232, 46_decoder.md
R273). -/
structure CommandResult where
  bytes        : List Byte
  resultLen    : Nat
  resultCount  : Nat
  payloadBits  : Nat
  tableEntries : Nat
  deriving DecidableEq, Repr, Inhabited

/-- The argument CSRs, and as a second copy the arguments a running command has latched (10_state.md R20, R51). -/
structure Args where
  alphabetSize : Word
  srcAddr      : Addr
  srcLen       : Addr
  dstAddr      : Addr
  dstCap       : Addr
  deriving DecidableEq, Repr, Inhabited

/-- The long commands (10_state.md R21). -/
inductive LongCmd where
  | encode | decode
  deriving DecidableEq, Repr, Inhabited

/-- ENG_STATE, with ENG_CMD and the latched arguments while BUSY (10_state.md R21). -/
inductive Engine where
  | idle
  | busy (cmd : LongCmd) (args : Args)
  deriving DecidableEq, Repr, Inhabited

/-- The result and error record: the result CSRs (10_state.md R39 to R42), the error CSRs (R43, R44) and the STATUS
fields EMPTY, ERRCODE and ERRSUB (R34, R35, R38), which the issue of a command clears together. -/
structure Record where
  empty        : Bool
  errCode      : ErrorKind
  errSub       : BitVec 8
  errIndex     : DWord
  errValue     : Word
  resultLen    : Word
  resultCount  : DWord
  payloadBits  : DWord
  tableEntries : Word
  deriving DecidableEq, Repr, Inhabited

/-- The record cleared: every field 0 (10_state.md R51, R52, 47_control_commands.md R292). -/
def Record.cleared : Record := ⟨false, .none, 0, 0, 0, 0, 0, 0, 0⟩

/-- The argument CSRs at reset (10_state.md R52): ALPHABET_SIZE 0x00000100, the others 0. -/
def Args.atReset : Args := ⟨0x00000100#32, 0, 0, 0, 0⟩

/-- Everything the spec gives the machine (INVENTORY.md lists each with its rule), and the model's own `inputs` and
`draws`. -/
structure State where
  /-- The parameter MEM_BYTES (00_scope.md R10); no step changes it. -/
  memBytes : Nat
  /-- CTRL.IE (10_state.md R25). -/
  ie : Bool
  /-- The argument CSRs (10_state.md R26 to R28). -/
  args : Args
  /-- ENG_STATE, ENG_CMD and the latched arguments (10_state.md R21, R51). -/
  engine : Engine
  /-- STATUS.DONE (10_state.md R33). -/
  done : Bool
  /-- STATUS.OVR (10_state.md R36). -/
  ovr : Bool
  /-- STATUS.LASTCMD (10_state.md R37). -/
  lastCmd : BitVec 8
  /-- The result and error record (10_state.md R34, R35, R38 to R44). -/
  record : Record
  /-- MEM (10_state.md R48). -/
  mem : Memory
  /-- The working state (10_state.md R49); between steps its contents are a free value (log 4). -/
  work : Work
  /-- `csr_rdata`, what the last CSR read returned (10_state.md R54, log 5). -/
  csrRdata : Word
  /-- `mem_rdata`, what the last MEM read returned (10_state.md R54, log 5). -/
  memRdata : Byte
  /-- The events still to come, oldest first (the model's own, log 6). -/
  inputs : List Event
  /-- The number of the next free value (the model's own, logs 3 and 4). -/
  draws : Nat
  deriving DecidableEq, Repr

/-- The machine right after power-up and reset (10_state.md R52, 70_reset_and_hazards.md R341). MEM lists nothing: every
byte holds its unknown power-up value (log 2). -/
def State.reset : State where
  memBytes := Config.memBytesAtReset
  ie       := false
  args     := Args.atReset
  engine   := .idle
  done     := false
  ovr      := false
  lastCmd  := 0
  record   := Record.cleared
  mem      := []
  work     := Config.unspecifiedWork 0
  csrRdata := 0
  memRdata := 0
  inputs   := []
  draws    := 1

/-- Why the machine stops. -/
inductive Fault where
  /-- A completion step reached a point that no input reaches (00_scope.md R15, U7). Raised by the engine's step only.
  Safe: the spec lets a model stop there, and the block never does. -/
  | unreachable (u : Unreachable)
  deriving DecidableEq, Repr

/-- Why a step has no meaning. -/
inductive Refusal where
  /-- An instruction that has no meaning in exec yet, by its mnemonic. Safe. No arm answers it. -/
  | notModelled (mnemonic : String)
  /-- The host accessed a MEM byte of a latched region while BUSY (20_memory.md R72, U6: "A model gives the host no such
  move"). Raised by the MEM host port only. Safe: the spec gives the access no meaning. -/
  | hostTouchedLatchedRegion (a : Addr)
  deriving DecidableEq, Repr

end Sys2Proof.Machine
end

