-- ==== Sys2Proof/Machine/Ops.lean ====
section
/-! DEFINITION. The named operations every command is built from: sorted maps, MEM (20_memory.md), little-endian bytes
(R61), and the operations over State that several commands share: issue (10_state.md R51), clearing the record
(47_control_commands.md R292), raising an error (60_exceptions.md R313) and acknowledging it (R322), completing
(20_memory.md R70), reset (10_state.md R52, 70_reset_and_hazards.md R340). -/

namespace Sys2Proof.Machine

/-! ## Sorted maps -/

/-- The value listed at a key. -/
def mapGet {α : Type} : List (Nat × α) → Nat → Option α
  | [], _ => none
  | (b, v) :: m, a => if b = a then some v else mapGet m a

/-- Set the value at a key, keeping keys strictly rising. -/
def mapPut {α : Type} : List (Nat × α) → Nat → α → List (Nat × α)
  | [], a, v => [(a, v)]
  | (b, u) :: m, a, v =>
    if a < b then (a, v) :: (b, u) :: m
    else if a = b then (a, v) :: m
    else (b, u) :: mapPut m a v

/-! ## Numbers and bytes -/

/-- `ceil8(b)`: the number of bytes that hold b bits (00_scope.md R13). -/
def ceil8 (b : Nat) : Nat := (b + 7) / 8

/-- The n little-endian bytes of a value, `v[8n−1:0]` (00_scope.md R14, 20_memory.md R61). -/
def leBytes : (n v : Nat) → List Byte
  | 0, _ => []
  | n + 1, v => BitVec.ofNat 8 v :: leBytes n (v / 256)

/-- `MemRead(addr, n)` over a memory given as a function: the unsigned value of n little-endian bytes (00_scope.md
R14, 20_memory.md R61). -/
def memRead (rd : Nat → Byte) (a : Nat) : Nat → Nat
  | 0 => 0
  | n + 1 => (rd a).toNat + 256 * memRead rd (a + 1) n

/-- Bit i of a packed sequence that starts at byte address `base`: bit 7 − (i mod 8) of byte i div 8
(44_bitstream.md R200). -/
def packedBit (rd : Nat → Byte) (base i : Nat) : Bool := (rd (base + i / 8)).getLsbD (7 - i % 8)

/-! ## MEM -/

/-- MEM's canonical form: addresses strictly rising. An unlisted address holds no written byte, so no entry equals what
it holds (log 2). -/
abbrev Memory.wf (m : Memory) : Prop := m.Pairwise fun c d => c.1 < d.1

/-- `MemReadByte(a)`: the byte last written to the address (20_memory.md R65), or, where nothing has been written since
power-up, the unknown byte it then held (R68, U1). -/
def Memory.readByte (m : Memory) (a : Nat) : Byte := (mapGet m a).getD (Config.powerUpByte a)

/-- `MemWriteByte(a, v)`: changes exactly its one byte (20_memory.md R65). -/
def Memory.writeByte (m : Memory) (a : Nat) (v : Byte) : Memory := mapPut m a v

/-- Bytes written to consecutive addresses from a upward. -/
def Memory.writeBytes (m : Memory) : Nat → List Byte → Memory
  | _, [] => m
  | a, v :: vs => Memory.writeBytes (m.writeByte a v) (a + 1) vs

/-- Every byte in [lo, hi) replaced by `draw` of its address (70_reset_and_hazards.md R340, U8). -/
def Memory.scramble (m : Memory) (lo hi : Nat) (draw : Nat → Byte) : Memory :=
  if lo < hi then
    m.filter (fun c => c.1 < lo) ++ (List.range' lo (hi - lo)).map (fun a => (a, draw a)) ++ m.filter (fun c => hi ≤ c.1)
  else m

/-! ## Raising, checking -/

/-- `raise E(sub, index, value)` (00_scope.md R15). -/
def raise {α : Type} (kind : ErrorKind) (sub index value : Nat) : Except Stop α :=
  .error (.raised ⟨kind, sub, index, value⟩)

/-- `if bad: raise E(sub, index, value)`: one check of a command's check order. -/
def raiseIf (bad : Prop) [Decidable bad] (kind : ErrorKind) (sub index value : Nat) : Except Stop Unit :=
  if bad then raise kind sub index value else .ok ()

/-- A point the rules mark `unreachable` (00_scope.md R15). -/
def unreachableAt {α : Type} (u : Unreachable) : Except Stop α := .error (.unreachable u)

/-- REGION_CHECK(sa, sl, da, dc), with unbounded sums (60_exceptions.md R318). -/
def regionCheck (memBytes sa sl da dc : Nat) : Except Stop Unit := do
  raiseIf (sa + sl > memBytes) .bounds 0 sa sl
  raiseIf (da + dc > memBytes) .bounds 1 da dc
  raiseIf (0 < sl ∧ 0 < dc ∧ sa < da + dc ∧ da < sa + sl) .bounds 2 da sa

/-! ## The working state -/

/-- The working state a command starts from: FREQ all zero, PQ empty, NEXT_SEQ 0, ARENA empty, CODES all empty, writer
and reader at position 0, nothing SEEN, cursor and counter 0 (10_state.md R50). -/
def beginWork (_ : Work) : Work where
  freq := []
  arena := []
  pq := ⟨[], 0⟩
  codes := []
  bw := ⟨[], 0⟩
  br := ⟨0, 0, 0⟩
  seen := []
  cur := 0
  emitted := 0

/-- The working state's contents become unspecified: a fresh free value (10_state.md R50, R52, U2). -/
def State.dropWork (s : State) : State :=
  { s with work := Config.unspecifiedWork s.draws, draws := s.draws + 1 }

/-! ## Issue, completion and report -/

/-- The record cleared: results, error CSRs, ERRCODE, ERRSUB and EMPTY all 0 (10_state.md R51; the common part of
47_control_commands.md R292 and R294). -/
def State.clearRecord (s : State) : State := { s with record := Record.cleared }

/-- A command word is accepted: LASTCMD takes its bits 7:0 (10_state.md R37). -/
def State.acceptWord (s : State) (op : BitVec 8) : State := { s with lastCmd := op }

/-- DONE ← 1 (10_state.md R33). -/
def State.setDone (s : State) : State := { s with done := true }

/-- A CMD write while BUSY: OVR ← 1 and nothing else (47_control_commands.md R297). -/
def State.overrun (s : State) : State := { s with ovr := true }

/-- The issue of a long command: the arguments are latched, the engine becomes BUSY, DONE and the record are cleared,
LASTCMD takes the opcode (10_state.md R51). -/
def State.issue (s : State) (cmd : LongCmd) (op : BitVec 8) : State :=
  { (s.clearRecord.acceptWord op) with engine := .busy cmd s.args, done := false }

/-- The engine becomes IDLE and DONE becomes 1, in the same atomic step (20_memory.md R70). -/
def State.complete (s : State) : State := { s with engine := .idle, done := true }

/-- TAKING AN ERROR, the block's exception entry (60_exceptions.md R313, R321): kind, subcode, index and value are
saved, the engine becomes IDLE and DONE becomes 1. Nothing else changes. -/
def State.report (s : State) (r : Raised) : State :=
  { s with record := { s.record with
      errCode := r.kind, errSub := BitVec.ofNat 8 r.sub,
      errIndex := BitVec.ofNat Config.countW r.index, errValue := BitVec.ofNat Config.csrW r.value } }.complete

/-- THE RETURN from a report: the host acknowledges with a STATUS write whose bit 1 clears DONE and whose bit 4 clears
OVR; every other bit is ignored (10_state.md R31, 60_exceptions.md R322). -/
def State.acknowledge (s : State) (w : Word) : State :=
  { s with done := s.done && !w.getLsbD 1, ovr := s.ovr && !w.getLsbD 4 }

/-- A success: the output bytes go to MEM from DST_ADDR upward, the result CSRs and EMPTY take their values, the rest
of the record stays as the issue left it (20_memory.md R66, 45_encoder.md R232, 46_decoder.md R273). -/
def State.succeed (s : State) (x : Args) (r : CommandResult) : State :=
  { s with
    mem := s.mem.writeBytes x.dstAddr.toNat r.bytes
    record := { s.record with
      empty := decide (r.resultCount = 0)
      resultLen := BitVec.ofNat Config.csrW r.resultLen
      resultCount := BitVec.ofNat Config.countW r.resultCount
      payloadBits := BitVec.ofNat Config.countW r.payloadBits
      tableEntries := BitVec.ofNat Config.csrW r.tableEntries } }.complete

/-- The completion step of a long command, once its result is known (20_memory.md R70). Either way the working state is
discarded (10_state.md R50). -/
def finish (x : Args) (r : Except Stop CommandResult) (s : State) : Host.Outcome State Fault Refusal :=
  match r with
  | .ok out => .next (s.succeed x out).dropWork
  | .error (.raised e) => .next (s.report e).dropWork
  | .error (.unreachable u) => .fault (.unreachable u)

/-- Dispatch of an accepted or dropped command word (47_control_commands.md R295): while BUSY the word is dropped and
OVR is set (R297), else the command has its effect. -/
def dispatch (effect : State → State) (s : State) : Host.Outcome State Fault Refusal :=
  match s.engine with
  | .busy _ _ => .next s.overrun
  | .idle => .next (effect s)

/-! ## Reset -/

/-- Every CSR and field of 10_state.md R52 at its reset value, ENG_STATE at IDLE and the working state unspecified.
MEM is not touched: the common part of SOFT_RESET (47_control_commands.md R293) and hardware reset. -/
def State.resetRegs (s : State) : State :=
  { s with
    ie := false, args := Args.atReset, engine := .idle, done := false, ovr := false, lastCmd := 0,
    record := Record.cleared }.dropWork

/-- Hardware reset (70_reset_and_hazards.md R340): while BUSY the running command is abandoned and every byte of its
latched destination region inside MEM becomes unspecified. DESIGN CHOICE (log 18): where the latched regions overlap, which
is checked only at completion (60_exceptions.md R318), R340's pseudocode makes every destination byte unspecified and its
prose lets the source region keep its values; the shared bytes follow the pseudocode and become free values. -/
def State.hardReset (s : State) : State :=
  match s.engine with
  | .idle => s.resetRegs
  | .busy _ x =>
    { s with mem := s.mem.scramble x.dstAddr.toNat (min (x.dstAddr.toNat + x.dstCap.toNat) s.memBytes)
                      (Config.abandonedByte s.draws) }.resetRegs

end Sys2Proof.Machine
end

