-- ==== Sys2Proof/Machine/Operands.lean ====
section
/-! DEFINITION. Operand assembly (30_encoding.md R83): the argument CSRs as unsigned numbers, the regions they name, and
the halves of 64-bit results. -/

namespace Sys2Proof.Machine

/-- A is the latched ALPHABET_SIZE (45_encoder.md R221). -/
def Args.A (x : Args) : Nat := x.alphabetSize.toNat

/-- sa, sl, da and dc: the latched SRC_ADDR, SRC_LEN, DST_ADDR and DST_CAP, used as they are (30_encoding.md R83). -/
def Args.sa (x : Args) : Nat := x.srcAddr.toNat
def Args.sl (x : Args) : Nat := x.srcLen.toNat
def Args.da (x : Args) : Nat := x.dstAddr.toNat
def Args.dc (x : Args) : Nat := x.dstCap.toNat

/-- `n = SRC_LEN div 4`, the number of symbols ENCODE reads (30_encoding.md R83). -/
def Args.n (x : Args) : Nat := x.sl / 4

/-- The byte range [base, base + length) (00_scope.md R18). -/
def inRegion (base length a : Nat) : Bool := base ≤ a && a < base + length

/-- An address in the source or the destination region of the arguments (20_memory.md R72). -/
def Args.inRegions (x : Args) (a : Nat) : Bool := inRegion x.sa x.sl a || inRegion x.da x.dc a

/-- Whether the host must not access a MEM address now: it lies in a latched region while BUSY (20_memory.md R72). -/
def State.latchedRegion (s : State) (a : Nat) : Bool :=
  match s.engine with
  | .idle => false
  | .busy _ x => x.inRegions a

/-- `NAME_LO = v[31:0]` (30_encoding.md R83). -/
def loHalf (v : DWord) : Word := v.extractLsb' 0 32

/-- `NAME_HI = v[63:32]` (30_encoding.md R83). -/
def hiHalf (v : DWord) : Word := v.extractLsb' 32 32

end Sys2Proof.Machine
end

