-- ==== Sys2Proof/Machine/Flags.lean ====
section
/-! DEFINITION. The flags: the STATUS word with its derived bits BUSY and ERR (10_state.md R30 to R38), the code of an
error kind (60_exceptions.md R310), and the interrupt line (10_state.md R47). The block has no other flags (R53). -/

namespace Sys2Proof.Machine

/-- STATUS.ERRCODE of an error kind (60_exceptions.md R310). -/
def ErrorKind.code : ErrorKind → BitVec 8
  | .none => 0
  | .unknownSymbol => 1
  | .truncatedStream => 2
  | .corruptTree => 3
  | .illegalCommand => 4
  | .config => 5
  | .bounds => 6

/-- STATUS.BUSY: 1 exactly when ENG_STATE = BUSY (10_state.md R32). -/
def State.busy (s : State) : Bool :=
  match s.engine with
  | .idle => false
  | .busy _ _ => true

/-- STATUS.ERR: the value ERRCODE ≠ 0, not stored (10_state.md R34). -/
def State.err (s : State) : Bool := s.record.errCode.code != 0

/-- The STATUS word: ERRSUB 31:24, LASTCMD 23:16, ERRCODE 15:8, reserved zeros 7:5, OVR 4, EMPTY 3, ERR 2, DONE 1,
BUSY 0 (10_state.md R30). -/
def State.status (s : State) : Word :=
  s.record.errSub ++ s.lastCmd ++ s.record.errCode.code ++ 0#3 ++ BitVec.ofBool s.ovr ++ BitVec.ofBool s.record.empty ++
    BitVec.ofBool s.err ++ BitVec.ofBool s.done ++ BitVec.ofBool s.busy

/-- `irq = CTRL.IE ∧ STATUS.DONE`, a level derived at every moment (10_state.md R47, 60_exceptions.md R325). -/
def State.irq (s : State) : Bool := s.ie && s.done

end Sys2Proof.Machine
end

