-- ==== Sys2Proof/Machine/FrequencyTable.lean ====
section
/-! DEFINITION. FrequencyTable (40_frequency_table.md). -/

namespace Sys2Proof.Machine

/-- FREQ[s]: a symbol that is not listed counts 0 (40_frequency_table.md R124). -/
def freqOf (f : Freq) (s : Nat) : Nat := (mapGet f s).getD 0

/-- FT_CLEAR: every count 0, whatever an earlier command left (40_frequency_table.md R120). -/
def ftClear (_ : Freq) : Freq := []

/-- FT_COUNT(s): one more occurrence of s (40_frequency_table.md R121). -/
def ftCount (f : Freq) (s : Nat) : Freq := mapPut f s (freqOf f s + 1)

/-- FT_ACTIVE: the symbols below A with a count above 0, ascending (40_frequency_table.md R122). -/
def ftActive (f : Freq) (A : Nat) : List Nat := (f.filter fun c => c.1 < A && 0 < c.2).map (·.1)

end Sys2Proof.Machine
end

