-- ==== Sys2Proof/Machine/PriorityQueue.lean ====
section
/-! DEFINITION. PriorityQueue (41_priority_queue.md). -/

namespace Sys2Proof.Machine

/-- The order of keys: weight first, then seq (41_priority_queue.md R131). -/
def keyLt (a b : QEntry) : Bool := a.weight < b.weight || (a.weight == b.weight && a.seq < b.seq)

/-- PQ_INIT (41_priority_queue.md R132). -/
def pqInit (_ : PQ) : PQ := ⟨[], 0⟩

/-- PQ_INSERT(node, weight): a new entry with the next sequence number (41_priority_queue.md R133). -/
def pqInsert (q : PQ) (node weight : Nat) : PQ :=
  ⟨q.entries ++ [⟨weight, q.nextSeq, node⟩], q.nextSeq + 1⟩

/-- The entry with the least key (41_priority_queue.md R131). -/
def pqLeast : List QEntry → Option QEntry
  | [] => none
  | e :: es =>
    match pqLeast es with
    | none => some e
    | some m => if keyLt m e then some m else some e

/-- PQ_EXTRACT_MIN: removes and returns the least entry; on an empty queue, unreachable (41_priority_queue.md R134). -/
def pqExtractMin (q : PQ) : Except Stop (QEntry × PQ) :=
  match pqLeast q.entries with
  | none => unreachableAt .pqExtractMinEmpty
  | some e => .ok (e, { q with entries := q.entries.erase e })

/-- PQ_SIZE (41_priority_queue.md R135). -/
def pqSize (q : PQ) : Nat := q.entries.length

end Sys2Proof.Machine
end

