-- ==== Sys2Proof/Machine/TreeBuilder.lean ====
section
/-! DEFINITION. HuffmanTreeBuilder (42_tree_builder.md). -/

namespace Sys2Proof.Machine

/-- The leaves of TB_INIT: ARENA[i] for the i-th active symbol, inserted with its count (42_tree_builder.md R152). The
next free index is the arena's length. -/
def tbLeaves (f : Freq) : List Nat → Builder → Builder
  | [], b => b
  | s :: rest, b =>
    tbLeaves f rest ⟨b.arena ++ [.leaf s (freqOf f s)], pqInsert b.pq b.arena.length (freqOf f s)⟩

/-- TB_INIT: the queue is emptied, then one leaf for each active symbol in ascending order (42_tree_builder.md R152,
41_priority_queue.md R139). The arena is fresh (10_state.md R50). -/
def tbInit (f : Freq) (active : List Nat) (b : Builder) : Builder := tbLeaves f active ⟨[], pqInit b.pq⟩

/-- TB_MERGE: the first minimum becomes the left child, the second the right child, and the new node goes back into the
queue (42_tree_builder.md R153, R155). -/
def tbMerge (b : Builder) : Except Stop Builder := do
  let (x, q) ← pqExtractMin b.pq
  let (y, q) ← pqExtractMin q
  return ⟨b.arena ++ [.internal (some x.node) (some y.node) (x.weight + y.weight)],
    pqInsert q b.arena.length (x.weight + y.weight)⟩

/-- `while PQ_SIZE() ≥ 2: TB_MERGE()`, for at most the given number of rounds; each round leaves one entry less
(42_tree_builder.md R154). -/
def tbLoop : Nat → Builder → Except Stop Builder
  | 0, b => .ok b
  | n + 1, b => if 2 ≤ pqSize b.pq then (tbMerge b).bind (tbLoop n) else .ok b

/-- TB_BUILD (42_tree_builder.md R154). -/
def tbBuild (f : Freq) (active : List Nat) (b : Builder) : Except Stop Tree :=
  if active.length = 0 then .ok .empty
  else do
    let b ← tbLoop active.length (tbInit f active b)
    let (r, _) ← pqExtractMin b.pq
    return .tree b.arena r.node

end Sys2Proof.Machine
end

