-- ==== Sys2Proof/Machine/BitStream.lean ====
section
/-! DEFINITION. BitStream writer and reader (44_bitstream.md). -/

namespace Sys2Proof.Machine

/-- BW_INIT (44_bitstream.md R202). -/
def bwInit (_ : BitWriter) : BitWriter := ⟨[], 0⟩

/-- BW_PUT(b): opens a new zero byte at every eighth bit, sets the bit if b = 1, and advances (44_bitstream.md R203). -/
def bwPut (w : BitWriter) (b : Bool) : BitWriter :=
  let bytes := if w.pos % 8 = 0 then w.bytes ++ [0#8] else w.bytes
  let i := w.pos / 8
  ⟨if b then bytes.set i (bytes.getD i 0#8 ||| (1#8 <<< (7 - w.pos % 8))) else bytes, w.pos + 1⟩

/-- BW_PUT_SEQ(c): the bits of c in order (44_bitstream.md R206). -/
def bwPutSeq (w : BitWriter) (c : Bits) : BitWriter := c.foldl bwPut w

/-- BW_FINALIZE: the bytes, zero padded already, and the count of meaningful bits (44_bitstream.md R204). -/
def bwFinalize (w : BitWriter) : List Byte × Nat := (w.bytes, w.pos)

/-- PACK(c): the packed bytes of a bit sequence (44_bitstream.md R205). -/
def pack (c : Bits) : List Byte := (bwFinalize (bwPutSeq (bwInit ⟨[], 0⟩) c)).1

/-- BR_INIT(base, nbits) (44_bitstream.md R208). -/
def brInit (_ : BitReader) (base nbits : Nat) : BitReader := ⟨base, nbits, 0⟩

/-- BR_AVAILABLE (44_bitstream.md R209). -/
def brAvailable (r : BitReader) : Nat := r.nbits - r.pos

/-- BR_GET: one bit, MSB first; with no bit left, unreachable (44_bitstream.md R210). -/
def brGet (rd : Nat → Byte) (r : BitReader) : Except Stop (Bool × BitReader) :=
  if r.pos = r.nbits then unreachableAt .brGetAtEnd
  else .ok (packedBit rd r.base r.pos, { r with pos := r.pos + 1 })

/-- The first L bits of packed bytes at `base`, MSB first (44_bitstream.md R200). -/
def unpackBits (rd : Nat → Byte) (base L : Nat) : Bits := (List.range L).map (packedBit rd base)

end Sys2Proof.Machine
end

