-- ==== Sys2Proof/Machine/CodeTable.lean ====
section
/-! DEFINITION. CodeTable (43_code_table.md): generation from the tree, serialization, and the decode trie. -/

namespace Sys2Proof.Machine

/-! ## Generation -/

/-- CODES[s]; the empty sequence means no code (10_state.md R49). -/
def codeOf (c : Codes) (s : Nat) : Bits := (mapGet c s).getD []

/-- WALK(i, p): a leaf's code is the path to it, left edge 0 and right edge 1, left before right (43_code_table.md R170
to R172). The bound is the depth it may reach. -/
def ctWalk (arena : List Node) : (depth i : Nat) → Bits → Codes → Except Stop Codes
  | 0, _, _, _ => unreachableAt .outOfFuel
  | d + 1, i, p, c =>
    match arena[i]? with
    | some (.leaf s _) => .ok (mapPut c s p)
    | some (.internal (some l) (some r) _) =>
      (ctWalk arena d l (p ++ [false]) c).bind (ctWalk arena d r (p ++ [true]))
    | _ => unreachableAt .arenaAccess

/-- CT_GEN: no codes for the empty tree, "0" for a tree that is one leaf, else the walk from the root
(43_code_table.md R170, R173, R174). No path is longer than the arena. -/
def ctGen : Tree → Except Stop Codes
  | .empty => .ok []
  | .tree arena root =>
    match arena[root]? with
    | some (.leaf s _) => .ok [(s, [false])]
    | _ => ctWalk arena arena.length root [] []

/-! ## Serialization -/

/-- One record: symbol, code length, packed code (30_encoding.md R98, 43_code_table.md R178). -/
def recordBytes (s : Nat) (c : Bits) : List Byte := leBytes Config.symBytes s ++ leBytes 1 c.length ++ pack c

/-- CT_SERIALIZE: one record for each active symbol, ascending (43_code_table.md R178). -/
def ctSerialize (active : List Nat) (c : Codes) : List Byte := active.flatMap fun s => recordBytes s (codeOf c s)

/-! ## Reconstruction -/

/-- CT_TRIE_INIT: a root with no children (43_code_table.md R180). -/
def ctTrieInit : Trie := ⟨[.internal none none 0], []⟩

/-- `child(i, b)`: the left child of ARENA[i] for 0, the right child for 1 (43_code_table.md R181). -/
def child (arena : List Node) (i : Nat) (b : Bool) : Except Stop (Option Nat) :=
  match arena[i]? with
  | some (.internal l r _) => .ok (if b then r else l)
  | _ => unreachableAt .arenaAccess

/-- `child(i, b) <- v` (43_code_table.md R181). -/
def setChild (arena : List Node) (i : Nat) (b : Bool) (v : Nat) : List Node :=
  match arena[i]? with
  | some (.internal l r w) => arena.set i (if b then .internal l (some v) w else .internal (some v) r w)
  | _ => arena

/-- The path of CT_TRIE_INSERT from node `cur` along the code bits: the interior edges, then the last edge, where the
leaf is hung (43_code_table.md R181). `cap` is DEC_NODE_CAP. -/
def trieInsertPath (cap j sym : Nat) : Bits → (cur : Nat) → List Node → Except Stop (List Node)
  | [], _, _ => unreachableAt .emptyCode
  | [b], cur, arena => do
    let nxt ← child arena cur b
    raiseIf (nxt ≠ none) .corruptTree 5 j sym
    raiseIf (arena.length = cap) .corruptTree 6 j sym
    return setChild (arena ++ [.leaf sym 0]) cur b arena.length
  | b :: c, cur, arena => do
    match ← child arena cur b with
    | none =>
      raiseIf (arena.length = cap) .corruptTree 6 j sym
      trieInsertPath cap j sym c arena.length (setChild (arena ++ [.internal none none 0]) cur b arena.length)
    | some nxt =>
      match arena[nxt]? with
      | some (.leaf _ _) => raise .corruptTree 5 j sym
      | some (.internal _ _ _) => trieInsertPath cap j sym c nxt arena
      | none => unreachableAt .arenaAccess

/-- CT_TRIE_INSERT(j, sym, L, c), L the length of c (43_code_table.md R181). -/
def ctTrieInsert (cap j sym : Nat) (c : Bits) (t : Trie) : Except Stop Trie := do
  raiseIf (sym ∈ t.seen) .corruptTree 4 j sym
  let arena ← trieInsertPath cap j sym c 0 t.arena
  return ⟨arena, sym :: t.seen⟩

end Sys2Proof.Machine
end

