-- ==== Sys2Proof/Machine/Encoder.lean ====
section
/-! DEFINITION. ENCODE (45_encoder.md): its issue, which is the meaning of the command word, and its completion step. -/

namespace Sys2Proof.Machine

/-- The symbol words of the source region, in input order (30_encoding.md R92). The counting and the packing pass read
the same words (20_memory.md R63, freedom U24). -/
def readSymbols (rd : Nat → Byte) (sa n : Nat) : List Nat := 
  (List.range n).map fun i => memRead rd (sa + Config.symBytes * i) Config.symBytes

/-- The counting pass from input index i on: the first symbol outside [0, A) is the error (45_encoder.md R225). -/
def countPass (A : Nat) : List Nat → (i : Nat) → Freq → Except Stop Freq
  | [], _, f => .ok f
  | s :: rest, i, f => if A ≤ s then raise .unknownSymbol 0 i s else countPass A rest (i + 1) (ftCount f s)

/-- `P = Σ_{s in ACTIVE} FREQ[s] · len(CODES[s])` (45_encoder.md R221, R231). -/
def payloadBitCount (f : Freq) (active : List Nat) (c : Codes) : Nat :=
  (active.map fun s => freqOf f s * (codeOf c s).length).sum

/-- The packing pass: each symbol's code, in input order (45_encoder.md R230). -/
def packPass (c : Codes) : List Nat → BitWriter → BitWriter
  | [], w => w
  | s :: rest, w => packPass c rest (bwPutSeq w (codeOf c s))

/-- The header: symbol_count, alphabet_size, table_entry_count and payload_bit_count (30_encoding.md R96). -/
def headerBytes (n A k P : Nat) : List Byte :=
  leBytes Config.countBytes n ++ leBytes 4 A ++ leBytes 4 k ++ leBytes Config.countBytes P

/-- From the counting pass on: tree, codes, sizes, the capacity check and the container for symbols S with alphabet A
and capacity dc (45_encoder.md R221, steps R225 to R230). -/
def encodeSymbols (A dc : Nat) (S : List Nat) (w : Work) : Except Stop CommandResult := do
  let freq ← countPass A S 0 (ftClear w.freq)
  let active := ftActive freq A
  let tree ← tbBuild freq active ⟨w.arena, w.pq⟩
  let codes ← ctGen tree
  let P := payloadBitCount freq active codes
  let tbl := ctSerialize active codes
  let size := 24 + tbl.length + ceil8 P
  raiseIf (size > dc) .bounds 3 size 0
  let (pay, _) := bwFinalize (packPass codes S (bwInit w.bw))
  return { bytes := headerBytes S.length A active.length P ++ tbl ++ pay, resultLen := size, resultCount := S.length,
           payloadBits := P, tableEntries := active.length }

/-- ENCODE's computation in its completion step, checks in the order of 45_encoder.md R222. -/
def encodeRun (memBytes : Nat) (rd : Nat → Byte) (x : Args) (w : Work) : Except Stop CommandResult := do
  raiseIf (x.A = 0 ∨ x.A > Config.maxAlphabet) .config 0 0 x.A
  raiseIf (x.sl % 4 ≠ 0) .config 1 0 x.sl
  regionCheck memBytes x.sa x.sl x.da x.dc
  encodeSymbols x.A x.dc (readSymbols rd x.sa x.n) (beginWork w)

/-- The completion step of a running ENCODE (20_memory.md R70, 45_encoder.md R221). -/
def completeEncode (x : Args) (s : State) : Host.Outcome State Fault Refusal :=
  finish x (encodeRun s.memBytes s.mem.readByte x s.work) s

/-- ENCODE, the command word: while BUSY it is dropped, else it is issued (47_control_commands.md R295, 10_state.md
R51); its completion is the engine's step `completeEncode`. -/
def execEncode (s : State) : Host.Outcome State Fault Refusal :=
  dispatch (fun s => s.issue .encode (opcode .encode)) s

end Sys2Proof.Machine
end

