-- ==== Sys2Proof/Machine/Decoder.lean ====
section
/-! DEFINITION. DECODE (46_decoder.md): its issue, which is the meaning of the command word, and its completion step. -/

namespace Sys2Proof.Machine

/-- Records j, j + 1, … of a container at `sa` with source length `sl` and alphabet size `as`, starting at byte offset
`off`, each checked in the order of 46_decoder.md R257. The result is the offset after the last record and the trie. -/
def decodeRecords (rd : Nat → Byte) (sa sl as cap : Nat) : (count j off : Nat) → Trie → Except Stop (Nat × Trie)
  | 0, _, off, t => .ok (off, t)
  | count + 1, j, off, t => do
    raiseIf (off + 5 > sl) .truncatedStream 1 (off + 5) j
    let sym := memRead rd (sa + off) Config.symBytes
    let L := memRead rd (sa + off + 4) 1
    raiseIf (sym ≥ as) .corruptTree 2 j sym
    raiseIf (L = 0) .corruptTree 3 j sym
    raiseIf (off + 5 + ceil8 L > sl) .truncatedStream 1 (off + 5 + ceil8 L) j
    let t ← ctTrieInsert cap j sym (unpackBits rd (sa + off + 5) L) t
    decodeRecords rd sa sl as cap count (j + 1) (off + 5 + ceil8 L) t

/-- One round of the walk: read a bit, move the cursor, and on a leaf emit its symbol and go back to the root
(46_decoder.md R267 to R269). -/
def walkStep (rd : Nat → Byte) (arena : List Node) (v : Walk) : Except Stop Walk := do
  raiseIf (brAvailable v.br = 0) .truncatedStream 3 v.emitted 0
  let (b, br) ← brGet rd v.br
  match ← child arena v.cur b with
  | none => raise .corruptTree 7 v.br.pos v.emitted
  | some nxt =>
    match arena[nxt]? with
    | some (.leaf sym _) => return { br := br, cur := 0, emitted := v.emitted + 1, out := v.out ++ [sym] }
    | some (.internal _ _ _) => return { v with br := br, cur := nxt }
    | none => unreachableAt .arenaAccess

/-- `while emitted < sc`, for at most the given number of rounds; each round reads one bit (46_decoder.md R251, R270). -/
def walkLoop (rd : Nat → Byte) (arena : List Node) (sc : Nat) : Nat → Walk → Except Stop Walk
  | 0, v => if v.emitted < sc then unreachableAt .outOfFuel else .ok v
  | n + 1, v => if v.emitted < sc then (walkStep rd arena v).bind (walkLoop rd arena sc n) else .ok v

/-- From the header on: the container at `sa` with source length `sl`, decoded for a destination of `dc` bytes
(46_decoder.md R251, steps R253 to R272). -/
def decodeContainer (rd : Nat → Byte) (sa sl dc : Nat) (w : Work) : Except Stop CommandResult := do
  raiseIf (sl < 24) .truncatedStream 0 24 0
  let sc := memRead rd sa Config.countBytes
  let as := memRead rd (sa + 8) 4
  let tc := memRead rd (sa + 12) 4
  let pb := memRead rd (sa + 16) Config.countBytes
  raiseIf (as = 0 ∨ as > Config.maxAlphabet) .corruptTree 0 0 as
  raiseIf (tc > as) .corruptTree 1 0 tc
  let (off, trie) ← decodeRecords rd sa sl as Config.decNodeCap tc 0 24 ctTrieInit
  raiseIf (off + ceil8 pb > sl) .truncatedStream 2 (off + ceil8 pb) 0
  raiseIf (4 * sc > dc) .bounds 3 (min (4 * sc) (2 ^ Config.countW - 1)) 0
  let v ← walkLoop rd trie.arena sc (pb + 1) { br := brInit w.br (sa + off) pb, cur := 0, emitted := 0, out := [] }
  return { bytes := v.out.flatMap (leBytes Config.symBytes), resultLen := 4 * sc, resultCount := sc, payloadBits := v.br.pos,
           tableEntries := tc }

/-- DECODE's computation in its completion step, checks in the order of 46_decoder.md R252. -/
def decodeRun (memBytes : Nat) (rd : Nat → Byte) (x : Args) (w : Work) : Except Stop CommandResult := do
  regionCheck memBytes x.sa x.sl x.da x.dc
  decodeContainer rd x.sa x.sl x.dc (beginWork w)

/-- The completion step of a running DECODE (20_memory.md R70, 46_decoder.md R251). -/
def completeDecode (x : Args) (s : State) : Host.Outcome State Fault Refusal :=
  finish x (decodeRun s.memBytes s.mem.readByte x s.work) s

/-- DECODE, the command word: while BUSY it is dropped, else it is issued (47_control_commands.md R295, 10_state.md
R51); its completion is the engine's step `completeDecode`. -/
def execDecode (s : State) : Host.Outcome State Fault Refusal :=
  dispatch (fun s => s.issue .decode (opcode .decode)) s

end Sys2Proof.Machine
end

