-- ==== Sys2Proof/Machine/Control.lean ====
section
/-! DEFINITION. The control commands and illegal words (47_control_commands.md). -/

namespace Sys2Proof.Machine

/-- NOP: LASTCMD ← 0x00 and DONE ← 1; the record, OVR and everything else stay (47_control_commands.md R291). -/
def execNop (s : State) : Host.Outcome State Fault Refusal :=
  dispatch (fun s => (s.acceptWord (opcode .nop)).setDone) s

/-- CLEAR: the record is cleared, LASTCMD ← 0x03, DONE ← 1; OVR stays (47_control_commands.md R292). -/
def execClear (s : State) : Host.Outcome State Fault Refusal :=
  dispatch (fun s => (s.clearRecord.acceptWord (opcode .clear)).setDone) s

/-- SOFT_RESET: every CSR and field at its reset value, MEM unchanged (47_control_commands.md R293). -/
def execSoftReset (s : State) : Host.Outcome State Fault Refusal := dispatch State.resetRegs s

/-- An illegal word: the effect of CLEAR on the record, then IllegalCommandError with value w; LASTCMD takes w[7:0]
(47_control_commands.md R294). -/
def illegalWord (w : Word) (s : State) : Host.Outcome State Fault Refusal :=
  dispatch (fun s => (s.clearRecord.acceptWord (opcodeOf w)).report ⟨.illegalCommand, 0, 0, w.toNat⟩) s

end Sys2Proof.Machine
end

