-- ==== Sys2Proof/Machine/HostPort.lean ====
section
/-! DEFINITION. What one event does: the host's four transactions on the CSR port (10_state.md R22, R23) and the MEM
host port (20_memory.md R67, R72), hardware reset (70_reset_and_hazards.md R340), and the engine's step
(20_memory.md R70). -/

namespace Sys2Proof.Machine

/-! ## The CSR port -/

/-- What a CSR reads as (10_state.md R23 to R45). -/
def State.csrValue (s : State) : CsrName → Word
  | .id => Config.idWord
  | .version => Config.versionWord
  | .ctrl => (BitVec.ofBool s.ie).setWidth Config.csrW
  | .status => s.status
  | .cmd => 0
  | .alphabetSize => s.args.alphabetSize
  | .srcAddr => s.args.srcAddr
  | .srcLen => s.args.srcLen
  | .dstAddr => s.args.dstAddr
  | .dstCap => s.args.dstCap
  | .resultLen => s.record.resultLen
  | .resultCountLo => loHalf s.record.resultCount
  | .resultCountHi => hiHalf s.record.resultCount
  | .payloadBitsLo => loHalf s.record.payloadBits
  | .payloadBitsHi => hiHalf s.record.payloadBits
  | .tableEntries => s.record.tableEntries
  | .errIndexLo => loHalf s.record.errIndex
  | .errIndexHi => hiHalf s.record.errIndex
  | .errValue => s.record.errValue
  | .maxAlphabet => BitVec.ofNat Config.csrW Config.maxAlphabet
  | .memBytes => BitVec.ofNat Config.csrW s.memBytes

/-- What a read at a byte offset returns: an offset the map does not list returns 0 (10_state.md R22). -/
def State.csrReadAt (s : State) (off : BitVec 12) : Word :=
  match csrAt off with
  | some n => s.csrValue n
  | none => 0

/-- The result and error CSRs (10_state.md R39 to R44). -/
def resultAndErrorCsrs : List CsrName :=
  [.resultLen, .resultCountLo, .resultCountHi, .payloadBitsLo, .payloadBitsHi, .tableEntries] ++
  [.errIndexLo, .errIndexHi, .errValue]

/-- THE HOST'S VIEW INTO A COMMAND: what the result and error CSRs read as, and nothing else, beside the fields of STATUS
(60_exceptions.md R334). The map of `State.csrValue` has no trace and no performance counter, and no read path to the
working state or to the latched arguments (10_state.md R49). -/
def State.commandView (s : State) : List Word := resultAndErrorCsrs.map s.csrValue

/-- A command word w is written to CMD: a legal word has its command's meaning, any other word is illegal
(47_control_commands.md R295). -/
def cmdWrite (w : Word) (s : State) : Host.Outcome State Fault Refusal :=
  match decode w with
  | .ok i => exec i s
  | .error _ => illegalWord w s

/-- A CSR write of word w: RW CSRs take it, STATUS clears by ones, CMD issues, and a write to a read-only CSR is
ignored (10_state.md R22 to R31). -/
def csrWriteTo (n : CsrName) (w : Word) (s : State) : Host.Outcome State Fault Refusal :=
  match n with
  | .ctrl => .next { s with ie := w.getLsbD 0 }
  | .status => .next (s.acknowledge w)
  | .cmd => cmdWrite w s
  | .alphabetSize => .next { s with args := { s.args with alphabetSize := w } }
  | .srcAddr => .next { s with args := { s.args with srcAddr := w } }
  | .srcLen => .next { s with args := { s.args with srcLen := w } }
  | .dstAddr => .next { s with args := { s.args with dstAddr := w } }
  | .dstCap => .next { s with args := { s.args with dstCap := w } }
  | .id | .version | .resultLen | .resultCountLo | .resultCountHi | .payloadBitsLo | .payloadBitsHi | .tableEntries
  | .errIndexLo | .errIndexHi | .errValue | .maxAlphabet | .memBytes => .next s

/-- A CSR write at a byte offset: a write to an offset the map does not list is ignored (10_state.md R22). -/
def csrWriteAt (off : BitVec 12) (w : Word) (s : State) : Host.Outcome State Fault Refusal :=
  match csrAt off with
  | some n => csrWriteTo n w s
  | none => .next s

/-! ## The MEM host port -/

/-- A host read of the byte at a: 0 at or above MEM_BYTES (20_memory.md R67); inside a latched region while BUSY the
host has no such move (R72). -/
def hostMemRead (a : Addr) (s : State) : Host.Outcome State Fault Refusal :=
  if s.memBytes ≤ a.toNat then .next { s with memRdata := 0 }
  else if s.latchedRegion a.toNat then .refused (.hostTouchedLatchedRegion a)
  else .next { s with memRdata := s.mem.readByte a.toNat }

/-- A host write of byte v to a: ignored at or above MEM_BYTES (20_memory.md R67); inside a latched region while BUSY
the host has no such move (R72). -/
def hostMemWrite (a : Addr) (v : Byte) (s : State) : Host.Outcome State Fault Refusal :=
  if s.memBytes ≤ a.toNat then .next s
  else if s.latchedRegion a.toNat then .refused (.hostTouchedLatchedRegion a)
  else .next { s with mem := s.mem.writeByte a.toNat v }

/-! ## The engine and the events -/

/-- The engine's step: the completion of the running command, enabled whenever BUSY (20_memory.md R70); while IDLE it
does nothing (60_exceptions.md R335). -/
def engineStep (s : State) : Host.Outcome State Fault Refusal :=
  match s.engine with
  | .idle => .next s
  | .busy .encode x => completeEncode x s
  | .busy .decode x => completeDecode x s

/-- One event of the total order (20_memory.md R71). -/
def runEvent (e : Event) (s : State) : Host.Outcome State Fault Refusal :=
  match e with
  | .csrRead off => .next { s with csrRdata := s.csrReadAt off }
  | .csrWrite off w => csrWriteAt off w s
  | .memRead a => hostMemRead a s
  | .memWrite a v => hostMemWrite a v s
  | .hwReset => .next s.hardReset
  | .engineSlot => engineStep s

/-- The event that a step takes: the oldest pending one, or, where none is pending, a turn of the engine (fairness,
20_memory.md R70, log 6). -/
def takeEvent (s : State) : Host.Outcome State Fault Refusal :=
  match s.inputs with
  | [] => engineStep s
  | e :: rest => runEvent e { s with inputs := rest }

/-- The host is given a CMD write of word w to make next. -/
def State.pushCommand (s : State) (w : Word) : State := { s with inputs := .csrWrite (csrOffset .cmd) w :: s.inputs }

end Sys2Proof.Machine
end

