-- ==== Sys2Proof/Machine/Step.lean ====
section
/-! DEFINITION. One step of the machine: one event of the total order of 20_memory.md R71. -/

namespace Sys2Proof.Machine

/-- One step. -/
def step (s : State) : Host.Outcome State Fault Refusal := takeEvent s

/-- The instruction of the opcode table whose bits are w, placed where the next step takes it from: as the host's next
CMD write (30_encoding.md R84, log 6). -/
def State.withFetchWord (s : State) (_nbits w : Nat) : State := s.pushCommand (tableWord w)

end Sys2Proof.Machine
end

