-- ==== Sys2Proof/Safety.lean ====
section
/-! DEFINITION. What claims about the machine are stated in: legal states, safe runs, the host's duty, unchanged memory,
and what it is for a container to lie in memory. -/

namespace Sys2Proof.Machine

/-! ## Legal states -/

/-- The (ERRCODE, ERRSUB) pairs of 60_exceptions.md R311, with (none, 0). -/
def ErrorKind.allows : ErrorKind → (sub : Nat) → Bool
  | .none, sub => sub == 0
  | .unknownSymbol, sub => sub == 0
  | .truncatedStream, sub => sub ≤ 3
  | .corruptTree, sub => sub ≤ 7
  | .illegalCommand, sub => sub == 0
  | .config, sub => sub ≤ 1
  | .bounds, sub => sub ≤ 3

/-- A record that reports success or failure, never both (60_exceptions.md R316), with a pair of R311. -/
structure Record.Legal (r : Record) : Prop where
  pair : r.errCode.allows r.errSub.toNat = true
  success : r.errCode = .none → r.errIndex = 0 ∧ r.errValue = 0
  failure : r.errCode ≠ .none →
    r.empty = false ∧ r.resultLen = 0 ∧ r.resultCount = 0 ∧ r.payloadBits = 0 ∧ r.tableEntries = 0
  empty : r.empty = true → r.resultCount = 0

/-- The opcode of a long command (30_encoding.md R81). -/
def LongCmd.opcode : LongCmd → BitVec 8
  | .encode => 0x01#8
  | .decode => 0x02#8

/-- The machine's invariant: the parameter is legal (00_scope.md R10), MEM is in its canonical form and inside MEM_BYTES
(20_memory.md R60), while BUSY nothing is reported and LASTCMD names the running command (10_state.md R46, R51), and
the record is legal (60_exceptions.md R311, R316). -/
structure State.Inv (s : State) : Prop where
  memBytesLegal : Config.minMemBytes ≤ s.memBytes ∧ s.memBytes ≤ Config.maxMemBytes
  memWf : s.mem.wf
  memInside : ∀ c ∈ s.mem, c.1 < s.memBytes
  busyQuiet : s.busy = true → s.done = false ∧ s.record = Record.cleared
  busyLastCmd : ∀ cmd x, s.engine = .busy cmd x → s.lastCmd = cmd.opcode
  record : s.record.Legal

/-! ## Runs and events -/

/-- A run of n steps that meets no fault: what counts as safe. -/
def SafeRun (n : Nat) (s : State) : Prop := ∀ k ≤ n, ∀ f, Sys2Proof.core.run k s ≠ .fault f

/-- The event the next step takes is a write of word w to the CSR n (10_state.md R22, R23). -/
def State.nextWrites (s : State) (n : CsrName) (w : Word) : Prop :=
  ∃ off rest, s.inputs = .csrWrite off w :: rest ∧ csrAt off = some n

/-- The event the next step takes is a hardware reset (70_reset_and_hazards.md R340). -/
def State.nextResets (s : State) : Prop := ∃ rest, s.inputs = .hwReset :: rest

/-- The next step is the engine's turn: an engine slot, or no event is pending (20_memory.md R70, log 6). -/
def State.nextCompletes (s : State) : Prop := s.inputs = [] ∨ ∃ rest, s.inputs = .engineSlot :: rest

/-- The event does not touch a MEM byte of the arguments' regions (the host's duty, 20_memory.md R72). -/
def keepsDuty (x : Args) (memBytes : Nat) : Event → Bool
  | .memRead a => memBytes ≤ a.toNat || !x.inRegions a.toNat
  | .memWrite a _ => memBytes ≤ a.toNat || !x.inRegions a.toNat
  | _ => true

/-! ## Memory and containers -/

/-- Every byte of memory outside [lo, hi) reads as before. -/
def Memory.sameOutside (m m' : Memory) (lo hi : Nat) : Prop :=
  ∀ a, a < lo ∨ hi ≤ a → m'.readByte a = m.readByte a

/-- The whole of memory reads as before. -/
def Memory.same (m m' : Memory) : Prop := ∀ a, m'.readByte a = m.readByte a

/-- The records `recs` lie in memory from byte `a` on, in this order (30_encoding.md R98, R99); the bits of a code's
last byte after the code are free. -/
def recordsAt (rd : Nat → Byte) : (a : Nat) → List (Nat × Bits) → Prop
  | _, [] => True
  | a, (s, c) :: rest =>
    memRead rd a 4 = s ∧ memRead rd (a + 4) 1 = c.length ∧ unpackBits rd (a + 5) c.length = c ∧
      recordsAt rd (a + 5 + ceil8 c.length) rest

/-- The bytes the records take (30_encoding.md R98). -/
def recordsSize (recs : List (Nat × Bits)) : Nat := (recs.map fun e => 5 + ceil8 e.2.length).sum

/-- A container lies in memory at `a`: its header (30_encoding.md R96), its records, and the bits of its payload
(R101). -/
structure ContainerAt (rd : Nat → Byte) (a : Nat) (count alphabet : Nat) (recs : List (Nat × Bits)) (payload : Bits) :
    Prop where
  symbolCount : memRead rd a 8 = count
  alphabetSize : memRead rd (a + 8) 4 = alphabet
  entryCount : memRead rd (a + 12) 4 = recs.length
  payloadBitCount : memRead rd (a + 16) 8 = payload.length
  records : recordsAt rd (a + 24) recs
  payloadBits : unpackBits rd (a + 24 + recordsSize recs) payload.length = payload

/-- A table that is a prefix code over an alphabet: distinct symbols below the alphabet size, non-empty codes, none a
prefix of another's (43_code_table.md R175, 46_decoder.md R257 to R262). -/
structure PrefixTable (alphabet : Nat) (recs : List (Nat × Bits)) : Prop where
  inRange : ∀ e ∈ recs, e.1 < alphabet
  nonEmpty : ∀ e ∈ recs, e.2 ≠ []
  distinct : recs.Pairwise fun e f => e.1 ≠ f.1
  noPrefix : recs.Pairwise fun e f => ¬ e.2 <+: f.2 ∧ ¬ f.2 <+: e.2

/-- A code conflicts with a table: one of its codes is a prefix of it, or has it as a prefix (43_code_table.md R181). -/
def conflicts (recs : List (Nat × Bits)) (c : Bits) : Prop := ∃ e ∈ recs, e.2 <+: c ∨ c <+: e.2

/-- A bit sequence that ends inside the table's trie, at its root or at another interior node: no code has been
completed. -/
def insideTrie (recs : List (Nat × Bits)) (p : Bits) : Prop := p = [] ∨ ∃ e ∈ recs, p <+: e.2 ∧ p ≠ e.2

/-- The nodes of a table's trie: the root, and one for each non-empty prefix of a code (43_code_table.md R181, R182). -/
def trieNodes (recs : List (Nat × Bits)) : Nat :=
  1 + (recs.flatMap fun e => (List.range e.2.length).map fun i => e.2.take (i + 1)).eraseDups.length

/-- CT_TRIE_INSERT of the records j, j + 1, … in order (43_code_table.md R181). -/
def insertRecords (cap : Nat) : (j : Nat) → List (Nat × Bits) → Trie → Except Stop Trie
  | _, [], t => .ok t
  | j, (s, c) :: rest, t => (ctTrieInsert cap j s c t).bind (insertRecords cap (j + 1) rest)

/-- What the record after `recs` leads to, in the order of its checks (46_decoder.md R257, R260 to R262), where `errs r` says
that the error r is what results: a head that does not fit, a symbol outside the alphabet, a code length of 0, code bytes
that do not fit, a repeated symbol, a code in conflict with an earlier one, and a trie that lacks the nodes. -/
def NextRecordErrs (rd : Nat → Byte) (sa sl alphabet cap : Nat) (recs : List (Nat × Bits)) (errs : Raised → Prop) : Prop :=
  ∀ off, off = 24 + recordsSize recs → ∀ sym, sym = memRead rd (sa + off) 4 → ∀ L, L = memRead rd (sa + off + 4) 1 →
  ∀ c, c = unpackBits rd (sa + off + 5) L → ∀ j, j = recs.length →
    (sl < off + 5 → errs ⟨.truncatedStream, 1, off + 5, j⟩) ∧
    (off + 5 ≤ sl →
      (alphabet ≤ sym → errs ⟨.corruptTree, 2, j, sym⟩) ∧
      (sym < alphabet →
        (L = 0 → errs ⟨.corruptTree, 3, j, sym⟩) ∧
        (1 ≤ L →
          (sl < off + 5 + ceil8 L → errs ⟨.truncatedStream, 1, off + 5 + ceil8 L, j⟩) ∧
          (off + 5 + ceil8 L ≤ sl →
            (sym ∈ recs.map (·.1) → errs ⟨.corruptTree, 4, j, sym⟩) ∧
            (sym ∉ recs.map (·.1) →
              (conflicts recs c → errs ⟨.corruptTree, 5, j, sym⟩) ∧
              (¬ conflicts recs c → cap < trieNodes (recs ++ [(sym, c)]) → errs ⟨.corruptTree, 6, j, sym⟩))))))

/-- The bits of a symbol sequence under a table (45_encoder.md R230). -/
def bitsOf (recs : List (Nat × Bits)) (S : List Nat) : Bits := S.flatMap (codeOf recs)

/-- The bytes of a container (30_encoding.md R95): header, records, payload with zero padding. -/
def containerBytes (count alphabet : Nat) (recs : List (Nat × Bits)) (payload : Bits) : List Byte :=
  headerBytes count alphabet recs.length payload.length ++ recs.flatMap (fun e => recordBytes e.1 e.2) ++ pack payload

/-- The size of a container (30_encoding.md R95). -/
def containerSize (recs : List (Nat × Bits)) (payload : Bits) : Nat := 24 + recordsSize recs + ceil8 payload.length

/-- The bytes lie in memory from `a` upward. -/
def bytesAt (rd : Nat → Byte) (a : Nat) (bs : List Byte) : Prop := ∀ o, o < bs.length → rd (a + o) = bs.getD o 0

/-! ## Trees -/

/-- A node's weight (42_tree_builder.md R150). -/
def Node.weight : Node → Nat
  | .leaf _ w => w
  | .internal _ _ w => w

/-- Node p of the arena has node i as a child. -/
def isChild (arena : List Node) (p i : Nat) : Prop :=
  ∃ l r w, arena[p]? = some (.internal l r w) ∧ (l = some i ∨ r = some i)

/-- The node a path leads to from node i: bit 0 goes to the left child, bit 1 to the right (43_code_table.md R171). -/
def nodeAt (arena : List Node) : (i : Nat) → (path : Bits) → Option Node
  | i, [] => arena[i]?
  | i, b :: path =>
    match arena[i]? with
    | some (.internal (some l) (some r) _) => nodeAt arena (if b then r else l) path
    | _ => none

/-- Node j waits in the queue when node i is made: it was made before, and no node made before i has taken it as a child
(42_tree_builder.md R153). -/
def waiting (arena : List Node) (i j : Nat) : Prop := j < i ∧ ∀ p < i, ¬ isChild arena p j

/-- Node j leaves the queue before node k: by weight, and by insertion order where the weights are equal
(41_priority_queue.md R131; a node's sequence number is its arena index, 42_tree_builder.md R152 and R153). -/
def leavesBefore (arena : List Node) (j k : Nat) : Prop :=
  ∃ nj nk, arena[j]? = some nj ∧ arena[k]? = some nk ∧
    (nj.weight < nk.weight ∨ (nj.weight = nk.weight ∧ j < k))

/-! ## What a long command needs and does -/

/-- The region checks pass: both regions lie in MEM and no byte lies in both (60_exceptions.md R318). -/
structure RegionsOk (memBytes : Nat) (x : Args) : Prop where
  source : x.sa + x.sl ≤ memBytes
  destination : x.da + x.dc ≤ memBytes
  disjoint : ∀ a, ¬ (inRegion x.sa x.sl a = true ∧ inRegion x.da x.dc a = true)

/-- The conditions of ENCODE on its arguments and its source words, all but the destination's capacity (45_encoder.md
R222, checks 1 to 4). -/
structure EncodeOk (memBytes : Nat) (rd : Nat → Byte) (x : Args) : Prop where
  alphabet : 1 ≤ x.A ∧ x.A ≤ Config.maxAlphabet
  wholeWords : x.sl % 4 = 0
  regions : RegionsOk memBytes x
  symbols : ∀ i < x.n, memRead rd (x.sa + 4 * i) 4 < x.A

/-- Two states that agree on everything but the engine, DONE, the record, MEM, the working state and the free-value
counter: the frame of a completion step (20_memory.md R70). -/
structure SameForCompletion (s t : State) : Prop where
  memBytes : t.memBytes = s.memBytes
  ie : t.ie = s.ie
  args : t.args = s.args
  ovr : t.ovr = s.ovr
  lastCmd : t.lastCmd = s.lastCmd
  csrRdata : t.csrRdata = s.csrRdata
  memRdata : t.memRdata = s.memRdata
  inputs : t.inputs = s.inputs

/-- The engine's step ends the running command with this error, and with no other effect than its report
(60_exceptions.md R313, R314). -/
def State.reports (s : State) (r : Raised) : Prop :=
  ∃ t, engineStep s = .next t ∧ t.engine = .idle ∧ t.done = true ∧ t.mem = s.mem ∧ SameForCompletion s t ∧
    t.record = { s.record with
      errCode := r.kind, errSub := BitVec.ofNat 8 r.sub, errIndex := BitVec.ofNat 64 r.index,
      errValue := BitVec.ofNat 32 r.value }

/-- The engine's step ends the running command with success: these bytes are written from `da` upward and nothing else
of MEM, and these results are reported (20_memory.md R66, 45_encoder.md R232, 46_decoder.md R273). -/
def State.delivers (s : State) (da : Nat) (bytes : List Byte) (count bits entries : Nat) : Prop :=
  ∃ t, engineStep s = .next t ∧ t.engine = .idle ∧ t.done = true ∧ SameForCompletion s t ∧
    bytesAt t.mem.readByte da bytes ∧ s.mem.sameOutside t.mem da (da + bytes.length) ∧
    t.record = { s.record with
      empty := decide (count = 0), resultLen := BitVec.ofNat 32 bytes.length, resultCount := BitVec.ofNat 64 count,
      payloadBits := BitVec.ofNat 64 bits, tableEntries := BitVec.ofNat 32 entries }

end Sys2Proof.Machine
end

