-- ==== Sys2Proof/Certificates/Slice0/Obligations.lean ====
section
/-! DEFINITION. The statements for the provers. Each docstring names the rule of spec/ it formalises, or says that it is
derived. -/

open Sys2Proof Sys2Proof.Machine

/-! ## Encodings -/

/-- 30_encoding.md R81: the legal words, which of them are long, and that every other word is illegal and completes at
once with IllegalCommandError. -/
def Obligations.LegalCommandWordsAreTheFiveOfTheTable : Prop :=
  (encode .nop = 0x00000000#32 ∧ encode .encode = 0x00000001#32 ∧ encode .decode = 0x00000002#32 ∧
    encode .clear = 0x00000003#32 ∧ encode .softReset = 0x00000004#32) ∧
  (∀ w i, decode w = .ok i ↔ w = encode i) ∧
  (∀ i s, s.engine = .idle → ∃ t, exec i s = .next t ∧ (t.busy = true ↔ i = .encode ∨ i = .decode)) ∧
  (∀ w, (∃ i, decode w = .ok i) ↔ rsvdOf w = 0 ∧ (opcodeOf w).toNat ≤ 4) ∧
  (∀ w e s, decode w = .error e → s.engine = .idle →
    ∃ t, cmdWrite w s = .next t ∧ t.engine = .idle ∧ t.done = true ∧ t.record.errCode = .illegalCommand)

/-- Derived from 30_encoding.md section 1 (R81, R82): a few words written out bit by bit. -/
def Obligations.SampleCommandWordsDecode : Prop :=
  decode 0b00000000000000000000000000000000#32 = .ok .nop ∧
  decode 0b00000000000000000000000000000001#32 = .ok .encode ∧
  decode 0b00000000000000000000000000000010#32 = .ok .decode ∧
  decode 0b00000000000000000000000000000011#32 = .ok .clear ∧
  decode 0b00000000000000000000000000000100#32 = .ok .softReset ∧
  decode 0b00000000000000000000000000000101#32 = .error .reservedOpcode ∧
  decode 0b00000000000000000000000100000001#32 = .error .rsvdNotZero

/-- Derived from 30_encoding.md section 2 (R85 to R87): every host transaction, at whatever offset or address, has a
well-formed tuple that gives it back; the four lines of R86 have the tuples it gives, one for each byte of `memw` and
`memr`; the pseudo-operations of R87 expand as it says; and a program is its lines in order. An access of `memw` or `memr` at
or above MEM_BYTES, also one past address 2^32 − 1, is outside MEM and does not wrap to 0 (20_memory.md R60, R67). That
`wait` is one poll, a turn of the engine and one poll is the model's choice (log 15), and so is it that a line past address
2^32 − 1 makes an access for each of its bytes (log 17). -/
def Obligations.TransactionsAndTuplesAgree : Prop :=
  (∀ e : Event, e ≠ .hwReset → e ≠ .engineSlot → ∃ t, e.toTuple = some t ∧ t.wf = true ∧ t.toEvent = some e) ∧
  (∀ (e : Event) (t : Tuple), e.toTuple = some t → t.wf = true ∧ t.toEvent = some e) ∧
  (∀ (t : Tuple) (e : Event), t.toEvent = some e → e.toTuple = some t) ∧
  (∀ t : Tuple, t.wf = true → ∃ e, t.toEvent = some e) ∧
  (∀ n v, (AsmLine.csrw n v).expand.map Event.toTuple = [some ⟨.csr, .w, (csrOffset n).toNat, some (v % 2 ^ 32)⟩]) ∧
  (∀ n, (AsmLine.csrr n).expand.map Event.toTuple = [some ⟨.csr, .r, (csrOffset n).toNat, none⟩]) ∧
  (∀ a bs, (AsmLine.memw a bs).expand.length = bs.length) ∧
  (∀ a bs, (AsmLine.memw a bs).wf = true →
    ∀ i b, bs[i]? = some b → ((AsmLine.memw a bs).expand[i]?).map Event.toTuple = some (some ⟨.mem, .w, a + i, some b⟩)) ∧
  (∀ a n, (AsmLine.memr a n).expand.length = n) ∧
  (∀ a n, (AsmLine.memr a n).wf = true →
    ∀ i < n, ((AsmLine.memr a n).expand[i]?).map Event.toTuple = some (some ⟨.mem, .r, a + i, none⟩)) ∧
  (∀ (s : State) a bs i e, s.memBytes ≤ 2 ^ 32 - 1 → s.memBytes ≤ a + i → (AsmLine.memw a bs).expand[i]? = some e →
    runEvent e s = .next s) ∧
  (∀ (s : State) a n i e, s.memBytes ≤ 2 ^ 32 - 1 → s.memBytes ≤ a + i → (AsmLine.memr a n).expand[i]? = some e →
    runEvent e s = .next { s with memRdata := 0 }) ∧
  (∀ i, (AsmLine.cmd i).expand.map Event.toTuple = [some ⟨.csr, .w, 0x010, some (opcode i).toNat⟩]) ∧
  (AsmLine.clrdone.expand.map Event.toTuple = [some ⟨.csr, .w, 0x00C, some 0x00000002⟩]) ∧
  (∀ a v, (AsmLine.memw32 a v).wf = true → (AsmLine.memw32 a v).expand.map Event.toTuple =
    [some ⟨.mem, .w, a, some (v % 2 ^ 8)⟩, some ⟨.mem, .w, a + 1, some (v / 2 ^ 8 % 2 ^ 8)⟩,
      some ⟨.mem, .w, a + 2, some (v / 2 ^ 16 % 2 ^ 8)⟩, some ⟨.mem, .w, a + 3, some (v / 2 ^ 24)⟩]) ∧
  (∀ a v, (AsmLine.memw32 a v).expand =
    (AsmLine.memw a [v % 2 ^ 8, v / 2 ^ 8 % 2 ^ 8, v / 2 ^ 16 % 2 ^ 8, v / 2 ^ 24 % 2 ^ 8]).expand) ∧
  (∀ a, (AsmLine.memr32 a).expand = (AsmLine.memr a 4).expand) ∧
  (AsmLine.wait.expand = [.csrRead 0x00C#12, .engineSlot, .csrRead 0x00C#12]) ∧
  (∀ l p, assemble (l :: p) = l.expand ++ assemble p)

/-! ## CSRs -/

/-- 10_state.md R22: rounding of reads and writes, unlisted offsets, read-only CSRs, reserved fields, and reads without side
effects; a write at an offset is the write to the CSR it reaches, and a write to CTRL or an argument CSR is taken there. -/
def Obligations.CsrPortRoundsReadsAndIgnores : Prop :=
  (∀ off n, csrAt off = some n ↔ (csrOffset n).toNat = off.toNat / 4 * 4) ∧
  (∀ off, csrAt off = none ↔ 0x054 ≤ off.toNat) ∧
  (∀ s off, ∃ v, runEvent (.csrRead off) s = .next { s with csrRdata := v } ∧ (csrAt off = none → v = 0) ∧
    ∀ n, csrAt off = some n → v = s.csrValue n) ∧
  (∀ s (off off' : BitVec 12) w, off'.toNat = off.toNat / 4 * 4 →
    runEvent (.csrRead off) s = runEvent (.csrRead off') s ∧
      runEvent (.csrWrite off w) s = runEvent (.csrWrite off' w) s) ∧
  (∀ s off w n, csrAt off = some n → runEvent (.csrWrite off w) s = csrWriteTo n w s) ∧
  (∀ s off w, csrAt off = some .ctrl → runEvent (.csrWrite off w) s = .next { s with ie := w.getLsbD 0 }) ∧
  (∀ s off w, csrAt off = some .alphabetSize →
    runEvent (.csrWrite off w) s = .next { s with args := { s.args with alphabetSize := w } }) ∧
  (∀ s off w, csrAt off = some .srcAddr →
    runEvent (.csrWrite off w) s = .next { s with args := { s.args with srcAddr := w } }) ∧
  (∀ s off w, csrAt off = some .srcLen →
    runEvent (.csrWrite off w) s = .next { s with args := { s.args with srcLen := w } }) ∧
  (∀ s off w, csrAt off = some .dstAddr →
    runEvent (.csrWrite off w) s = .next { s with args := { s.args with dstAddr := w } }) ∧
  (∀ s off w, csrAt off = some .dstCap →
    runEvent (.csrWrite off w) s = .next { s with args := { s.args with dstCap := w } }) ∧
  (∀ s off w, csrAt off = none → runEvent (.csrWrite off w) s = .next s) ∧
  (∀ s off w n, csrAt off = some n → n ∉ [.ctrl, .status, .cmd, .alphabetSize, .srcAddr, .srcLen, .dstAddr, .dstCap] →
    runEvent (.csrWrite off w) s = .next s) ∧
  (∀ s : State, (∀ i, 1 ≤ i → (s.csrValue .ctrl).getLsbD i = false) ∧
    ∀ i, 5 ≤ i → i ≤ 7 → (s.csrValue .status).getLsbD i = false) ∧
  (∀ s w w', w.getLsbD 0 = w'.getLsbD 0 → csrWriteTo .ctrl w s = csrWriteTo .ctrl w' s) ∧
  (∀ s w w', w.getLsbD 1 = w'.getLsbD 1 → w.getLsbD 4 = w'.getLsbD 4 →
    csrWriteTo .status w s = csrWriteTo .status w' s)

/-- 10_state.md R24 and R45: the constants and the parameters every read of their CSRs returns. -/
def Obligations.IdentityAndParameterCsrsReadConstants : Prop :=
  ∀ s : State, s.csrReadAt 0x000#12 = 0x48554646#32 ∧ s.csrReadAt 0x004#12 = 0x00000001#32 ∧
    (s.csrReadAt 0x04C#12).toNat = 2 ^ 24 ∧ (s.memBytes ≤ 2 ^ 32 - 1 → (s.csrReadAt 0x050#12).toNat = s.memBytes)

/-- Derived from 10_state.md section 3 (R39 to R44) and section 1 (R23, R25 to R29): CTRL reads IE, the argument CSRs read
the arguments, the result and error CSRs read the record, each 64-bit value as its two halves, and CMD reads 0. -/
def Obligations.ResultCsrsReadTheRecord : Prop :=
  ∀ s : State, s.csrReadAt 0x008#12 = (BitVec.ofBool s.ie).setWidth 32 ∧ s.csrReadAt 0x014#12 = s.args.alphabetSize ∧
    s.csrReadAt 0x018#12 = s.args.srcAddr ∧ s.csrReadAt 0x01C#12 = s.args.srcLen ∧
    s.csrReadAt 0x020#12 = s.args.dstAddr ∧ s.csrReadAt 0x024#12 = s.args.dstCap ∧
    s.csrReadAt 0x028#12 = s.record.resultLen ∧
    s.csrReadAt 0x030#12 ++ s.csrReadAt 0x02C#12 = s.record.resultCount ∧
    s.csrReadAt 0x038#12 ++ s.csrReadAt 0x034#12 = s.record.payloadBits ∧
    s.csrReadAt 0x03C#12 = s.record.tableEntries ∧
    s.csrReadAt 0x044#12 ++ s.csrReadAt 0x040#12 = s.record.errIndex ∧
    s.csrReadAt 0x048#12 = s.record.errValue ∧ s.csrReadAt 0x010#12 = 0

/-- Derived from 10_state.md section 2 (R30, R32, R34) and 60_exceptions.md section 1 (R310): the fields of the STATUS word,
bit by bit, and the ERRCODE of each error kind. -/
def Obligations.StatusWordHoldsItsFields : Prop :=
  (ErrorKind.none.code = 0#8 ∧ ErrorKind.unknownSymbol.code = 1#8 ∧ ErrorKind.truncatedStream.code = 2#8 ∧
    ErrorKind.corruptTree.code = 3#8 ∧ ErrorKind.illegalCommand.code = 4#8 ∧ ErrorKind.config.code = 5#8 ∧
    ErrorKind.bounds.code = 6#8) ∧
  ∀ s : State, s.csrReadAt 0x00C#12 = s.status ∧
    s.status.getLsbD 0 = s.busy ∧ s.status.getLsbD 1 = s.done ∧
    s.status.getLsbD 2 = decide (s.record.errCode ≠ .none) ∧
    s.status.getLsbD 3 = s.record.empty ∧ s.status.getLsbD 4 = s.ovr ∧ s.status.extractLsb' 5 3 = 0#3 ∧
    s.status.extractLsb' 8 8 = s.record.errCode.code ∧ s.status.extractLsb' 16 8 = s.lastCmd ∧
    s.status.extractLsb' 24 8 = s.record.errSub

/-- 10_state.md R31: a write to STATUS clears DONE and OVR by ones, ignores every other bit and sets none. -/
def Obligations.StatusWriteClearsDoneAndOvrByOnes : Prop :=
  ∀ s w, runEvent (.csrWrite (csrOffset .status) w) s =
    .next { s with done := s.done && !w.getLsbD 1, ovr := s.ovr && !w.getLsbD 4 }

/-- 47_control_commands.md R299: argument and CTRL writes while BUSY are accepted, read back at once, and do not change
what the running command does. -/
def Obligations.ArgumentWritesWhileBusyAffectOnlyLaterCommands : Prop :=
  ∀ s n w, n ∈ [.alphabetSize, .srcAddr, .srcLen, .dstAddr, .dstCap, .ctrl] →
    ∃ t, csrWriteTo n w s = .next t ∧ t.engine = s.engine ∧ t.done = s.done ∧ t.ovr = s.ovr ∧ t.lastCmd = s.lastCmd ∧
      t.record = s.record ∧ t.mem = s.mem ∧
      (n ≠ .ctrl → t.csrValue n = w ∧ t.ie = s.ie ∧ ∀ k, k ≠ n → t.csrValue k = s.csrValue k) ∧
      (n = .ctrl → t.csrValue .ctrl = (BitVec.ofBool (w.getLsbD 0)).setWidth 32 ∧ t.args = s.args ∧
        t.irq = (w.getLsbD 0 && s.done)) ∧
      (s.busy = true → ∀ u, engineStep s = .next u → engineStep t = .next { u with args := t.args, ie := t.ie })

/-- Derived from 60_exceptions.md section 5 (R325, R326): irq rises in the step that sets DONE, IE masks it without
touching DONE, and neither an overrun nor an argument write moves it. -/
def Obligations.InterruptFollowsDoneAndEnable : Prop :=
  (∀ s : State, s.irq = true ↔ s.ie = true ∧ s.done = true) ∧
  (∀ s w, ∃ t, csrWriteTo .ctrl w s = .next t ∧ t.done = s.done ∧ t.irq = (w.getLsbD 0 && s.done)) ∧
  (∀ s n w, n ∈ [.alphabetSize, .srcAddr, .srcLen, .dstAddr, .dstCap] →
    ∃ t, csrWriteTo n w s = .next t ∧ t.irq = s.irq) ∧
  (∀ s t, s.busy = true → engineStep s = .next t → t.irq = s.ie) ∧
  (∀ s w, s.busy = true → ∃ t, cmdWrite w s = .next t ∧ t.irq = s.irq) ∧
  (∀ s w, s.busy = false → ∃ t, cmdWrite w s = .next t ∧
    t.irq = (s.ie && decide (w ∉ [encode .encode, encode .decode, encode .softReset]))) ∧
  (∀ s : State, s.hardReset.irq = false)

/-! ## The commands -/

/-- 47_control_commands.md R291. -/
def Obligations.NopSetsDoneAndLastCmdOnly : Prop :=
  decode 0x00000000#32 = .ok .nop ∧
  ∀ s : State, s.engine = .idle → exec .nop s = .next { s with lastCmd := 0x00#8, done := true }

/-- 47_control_commands.md R292. -/
def Obligations.ClearZeroesTheRecordAndKeepsOvr : Prop :=
  decode 0x00000003#32 = .ok .clear ∧
  ∀ s : State, s.engine = .idle → exec .clear s = .next { s with
    record := { empty := false, errCode := .none, errSub := 0, errIndex := 0, errValue := 0, resultLen := 0,
                resultCount := 0, payloadBits := 0, tableEntries := 0 }
    lastCmd := 0x03#8
    done := true }

/-- Derived from 47_control_commands.md (R293): SOFT_RESET's effect while IDLE, and that it is dropped while BUSY; the working
state, which becomes unspecified (10_state.md R52), is not spoken of. That the ports' read data and the pending events are
kept is the model's choice (logs 5 and 6). -/
def Obligations.SoftResetRestoresResetValuesAndKeepsMem : Prop :=
  decode 0x00000004#32 = .ok .softReset ∧
  (∀ s : State, s.busy = true → exec .softReset s = .next { s with ovr := true }) ∧
  ∀ s : State, s.engine = .idle → ∃ t, exec .softReset s = .next t ∧ t.ie = false ∧
    t.args = { alphabetSize := 0x00000100#32, srcAddr := 0, srcLen := 0, dstAddr := 0, dstCap := 0 } ∧
    t.engine = .idle ∧ t.status = 0 ∧ t.record = Record.cleared ∧ t.done = false ∧ t.ovr = false ∧ t.lastCmd = 0 ∧
    t.irq = false ∧ t.mem = s.mem ∧ t.memBytes = s.memBytes ∧ t.csrRdata = s.csrRdata ∧ t.memRdata = s.memRdata ∧
    t.inputs = s.inputs

/-- 10_state.md R51: the issue of ENCODE and of DECODE, that a later argument write changes its CSR and not the running
command, and that the command uses only the latched copies. -/
def Obligations.IssueLatchesArgumentsAndClearsTheRecord : Prop :=
  (∀ s : State, s.engine = .idle →
    exec .encode s = .next { s with engine := .busy .encode s.args, done := false, lastCmd := 0x01#8, record := Record.cleared } ∧
    exec .decode s = .next { s with engine := .busy .decode s.args, done := false, lastCmd := 0x02#8, record := Record.cleared }) ∧
  (∀ s n w, n ∈ [.alphabetSize, .srcAddr, .srcLen, .dstAddr, .dstCap] →
    ∃ t, csrWriteTo n w s = .next t ∧ t.engine = s.engine ∧ t.csrValue n = w) ∧
  (∀ s a u, s.busy = true → engineStep s = .next u → engineStep { s with args := a } = .next { u with args := a })

/-- 47_control_commands.md R294. -/
def Obligations.IllegalWordReportsIllegalCommandError : Prop :=
  ∀ s w, s.engine = .idle → (w.extractLsb' 8 24 ≠ 0#24 ∨ 5 ≤ (w.extractLsb' 0 8).toNat) →
    cmdWrite w s = .next { s with
      record := { Record.cleared with errCode := .illegalCommand, errValue := w }
      lastCmd := w.extractLsb' 0 8
      done := true }

/-- 47_control_commands.md R295: what a write of a word to CMD does, case by case, and that no other host write starts,
stops or changes a command. -/
def Obligations.CmdWriteDispatchesByWord : Prop :=
  (∀ s w, csrWriteTo .cmd w s = cmdWrite w s) ∧
  (∀ s w, s.busy = true → cmdWrite w s = .next { s with ovr := true }) ∧
  (∀ s : State, s.busy = false →
    cmdWrite 0x00000001#32 s = .next (s.issue .encode 0x01#8) ∧ cmdWrite 0x00000002#32 s = .next (s.issue .decode 0x02#8) ∧
    cmdWrite 0x00000000#32 s = exec .nop s ∧ cmdWrite 0x00000003#32 s = exec .clear s ∧
    cmdWrite 0x00000004#32 s = exec .softReset s ∧
    ∀ w, w ∉ [0x00000000#32, 0x00000001#32, 0x00000002#32, 0x00000003#32, 0x00000004#32] → cmdWrite w s = illegalWord w s) ∧
  (∀ s n w t, n ≠ .cmd → csrWriteTo n w s = .next t → t.engine = s.engine) ∧
  (∀ s a v t, hostMemWrite a v s = .next t → t.engine = s.engine)

/-- 47_control_commands.md R297: a word written while BUSY sets OVR and nothing else, the running command completes as
if it had not been written, and no transaction of the host stops it. -/
def Obligations.WordWrittenWhileBusyIsDropped : Prop :=
  (∀ s w, s.busy = true → cmdWrite w s = .next { s with ovr := true }) ∧
  (∀ s t, engineStep s = .next t → engineStep { s with ovr := true } = .next { t with ovr := true }) ∧
  (∀ s e t, s.busy = true → e ≠ .hwReset → e ≠ .engineSlot → runEvent e s = .next t → t.engine = s.engine)

/-- Derived from 20_memory.md section 4 (R70, R71) and the model's event list (log 6): a step takes the oldest event,
and a command word written to CMD runs exec of the command it decodes to. -/
def Obligations.StepRunsTheDecodedCommand : Prop :=
  (∀ s off w i rest, s.inputs = .csrWrite off w :: rest → csrAt off = some .cmd → decode w = .ok i →
    step s = exec i { s with inputs := rest }) ∧
  (∀ s off w e rest, s.inputs = .csrWrite off w :: rest → csrAt off = some .cmd → decode w = .error e →
    step s = illegalWord w { s with inputs := rest }) ∧
  (∀ s e rest, s.inputs = e :: rest → step s = runEvent e { s with inputs := rest }) ∧
  (∀ s : State, (s.inputs = [] → step s = engineStep s) ∧ runEvent .engineSlot s = engineStep s) ∧
  (∀ s i, step (s.withFetchWord 32 (encode i).toNat) = exec i s)

/-! ## Rules of the whole machine -/

/-- 10_state.md R36: exactly when OVR is 1 after a step. -/
def Obligations.OvrIsSetByOverrunAndClearedOnlyAsNamed : Prop :=
  ∀ s t, step s = .next t → (t.ovr = true ↔
    (s.busy = true ∧ ∃ w, s.nextWrites .cmd w) ∨
    (s.ovr = true ∧ ¬ ((∃ w, s.nextWrites .status w ∧ w.getLsbD 4 = true) ∨
      (s.busy = false ∧ s.nextWrites .cmd (encode .softReset)) ∨ s.nextResets)))

/-- 10_state.md R33: exactly when DONE is 1 after a step. -/
def Obligations.DoneIsSetByCompletionAndClearedOnlyAsNamed : Prop :=
  ∀ s t, step s = .next t → (t.done = true ↔
    (s.busy = true ∧ s.nextCompletes) ∨
    (s.busy = false ∧ ∃ w, s.nextWrites .cmd w ∧ w ∉ [encode .encode, encode .decode, encode .softReset]) ∨
    (s.done = true ∧ ¬ ((∃ w, s.nextWrites .status w ∧ w.getLsbD 1 = true) ∨
      (s.busy = false ∧ ∃ w, s.nextWrites .cmd w ∧ w ∈ [encode .encode, encode .decode, encode .softReset]) ∨ s.nextResets)))

/-- 10_state.md R32: exactly when BUSY is 1 after a step, and that a running command
keeps its latched arguments. -/
def Obligations.BusyFromIssueToCompletion : Prop :=
  (∀ s : State, s.status.getLsbD 0 = true ↔ s.engine ≠ .idle) ∧
  ∀ s t, step s = .next t →
    (t.busy = true ↔ (s.busy = false ∧ (s.nextWrites .cmd (encode .encode) ∨ s.nextWrites .cmd (encode .decode))) ∨
      (s.busy = true ∧ ¬ s.nextCompletes ∧ ¬ s.nextResets)) ∧
    (s.busy = true → t.busy = true → t.engine = s.engine) ∧
    (s.busy = false → s.nextWrites .cmd (encode .encode) → t.engine = .busy .encode s.args) ∧
    (s.busy = false → s.nextWrites .cmd (encode .decode) → t.engine = .busy .decode s.args)

/-- 10_state.md R37: LASTCMD after a step. -/
def Obligations.LastCmdNamesTheLastAcceptedWord : Prop :=
  ∀ s t, step s = .next t →
    (∀ w, s.busy = false → s.nextWrites .cmd w →
      t.lastCmd = if w = encode .softReset then 0 else w.extractLsb' 0 8) ∧
    (s.nextResets → t.lastCmd = 0) ∧
    (¬ s.nextResets → (∀ w, s.nextWrites .cmd w → s.busy = true) → t.lastCmd = s.lastCmd)

/-- Derived from 10_state.md section 2 and section 3 (R34, R38, R46): the result and error record changes only at an issue, at a completion and at a
reset, is cleared by the issue of ENCODE, DECODE and CLEAR, and is kept by NOP. -/
def Obligations.RecordChangesOnlyAtIssueCompletionAndReset : Prop :=
  ∀ s t, step s = .next t →
    (t.record ≠ s.record →
      (s.busy = false ∧ ∃ w, s.nextWrites .cmd w ∧ w ≠ encode .nop) ∨ (s.busy = true ∧ s.nextCompletes) ∨ s.nextResets) ∧
    (∀ w, s.busy = false → s.nextWrites .cmd w →
      w ∈ [encode .encode, encode .decode, encode .clear, encode .softReset] → t.record = Record.cleared) ∧
    (∀ w, s.busy = false → s.nextWrites .cmd w → (∀ i, w ≠ encode i) →
      t.record = { Record.cleared with errCode := .illegalCommand, errValue := w }) ∧
    (s.nextResets → t.record = Record.cleared)

/-- Derived from 10_state.md section 1 (R20, R45): the argument CSRs change only by a host write to them, SOFT_RESET or
hardware reset; and the parameter MEM_BYTES never changes. -/
def Obligations.ArgumentCsrsChangeOnlyByHostWritesAndResets : Prop :=
  ∀ s t, step s = .next t → t.memBytes = s.memBytes ∧
    (s.nextResets ∨ (s.busy = false ∧ s.nextWrites .cmd (encode .softReset)) → t.args = Args.atReset) ∧
    (t.args ≠ s.args → s.nextResets ∨ (s.busy = false ∧ s.nextWrites .cmd (encode .softReset)) ∨
      ∃ n w, n ∈ [.alphabetSize, .srcAddr, .srcLen, .dstAddr, .dstCap] ∧ s.nextWrites n w ∧ t.csrValue n = w ∧
        ∀ k ∈ [CsrName.alphabetSize, .srcAddr, .srcLen, .dstAddr, .dstCap], k ≠ n → t.csrValue k = s.csrValue k)

/-- Derived from 20_memory.md (R64, R65, R66) and 70_reset_and_hazards.md R340: a byte of MEM changes only by a host
write to it, by the success of a command whose output covers it, or by a reset that abandons a command whose
destination region covers it. -/
def Obligations.MemChangesOnlyByHostWritesOutputsAndAbandonment : Prop :=
  ∀ s t a, s.Inv → step s = .next t → t.mem.readByte a ≠ s.mem.readByte a →
    (∃ b v rest, s.inputs = .memWrite b v :: rest ∧ b.toNat = a ∧ a < s.memBytes) ∨
    (∃ cmd x, s.engine = .busy cmd x ∧ s.nextCompletes ∧ t.record.errCode = .none ∧ x.da ≤ a ∧
      a < x.da + t.record.resultLen.toNat ∧ t.record.resultLen.toNat ≤ x.dc) ∨
    (∃ cmd x, s.engine = .busy cmd x ∧ s.nextResets ∧ x.da ≤ a ∧ a < x.da + x.dc ∧ a < s.memBytes)

/-- Derived from 10_state.md (R46, R51, R52), 20_memory.md R60 and 60_exceptions.md (R311, R316); its MEM_BYTES is the
model's choice (log 1). -/
def Obligations.ResetStateIsLegal : Prop := State.reset.Inv

/-- Derived from 10_state.md (R46, R51), 20_memory.md R60 and 60_exceptions.md (R311, R316): every step keeps the
machine's invariant. -/
def Obligations.EveryStepKeepsTheStateLegal : Prop := ∀ s t, s.Inv → step s = .next t → t.Inv

/-- Derived from 00_scope.md R15, 41_priority_queue.md R134 and 44_bitstream.md R210: the points marked unreachable are
never reached, from any state, so every run is safe. -/
def Obligations.NoStepReachesAnUnreachablePoint : Prop := (∀ s f, step s ≠ .fault f) ∧ ∀ n s, SafeRun n s

/-- Derived from 20_memory.md section 4 (R72; log 7): the one move the model does not give the host, exactly. -/
def Obligations.OnlyAHostAccessToALatchedRegionIsRefused : Prop :=
  ∀ s r, step s = .refused r ↔ ∃ a rest cmd x, (s.inputs = .memRead a :: rest ∨ ∃ v, s.inputs = .memWrite a v :: rest) ∧
    s.engine = .busy cmd x ∧ a.toNat < s.memBytes ∧
    ((x.sa ≤ a.toNat ∧ a.toNat < x.sa + x.sl) ∨ (x.da ≤ a.toNat ∧ a.toNat < x.da + x.dc)) ∧
    r = .hostTouchedLatchedRegion a

/-- Derived from 70_reset_and_hazards.md R357 and 20_memory.md R70, with the model's event list (log 6): a running
command completes within the pending events and one more step, unless a hardware reset intervenes. -/
def Obligations.RunningCommandCompletes : Prop :=
  ∀ s cmd x, s.engine = .busy cmd x → (∀ e ∈ s.inputs, e ≠ .hwReset ∧ keepsDuty x s.memBytes e = true) →
    ∃ k t, k ≤ s.inputs.length + 1 ∧ Sys2Proof.core.run k s = .next t ∧ State.engine t = .idle ∧ State.done t = true

/-- Derived from 10_state.md R50 (its working state is unobservable; log 4) and 60_exceptions.md R334: two states that differ
in the working state alone take the same step, up to the working state; and the result and error CSRs, at their offsets, are
the only view into a command. No other CSR but STATUS shows anything a command holds or leaves; they show its record alone,
and all 0 while it runs; and STATUS does not show which command runs on which arguments, nor how far it is. -/
def Obligations.WorkingStateIsUnobservable : Prop :=
  (∀ (s : State) w, match step s with
    | .next t => ∃ w', step { s with work := w } = .next { t with work := w' }
    | .fault f => step { s with work := w } = .fault f
    | .refused r => step { s with work := w } = .refused r) ∧
  (resultAndErrorCsrs.map csrOffset =
    [0x028#12, 0x02C#12, 0x030#12, 0x034#12, 0x038#12, 0x03C#12, 0x040#12, 0x044#12, 0x048#12]) ∧
  (∀ (s : State) e w r m d l n, n ∉ resultAndErrorCsrs → n ≠ .status →
    State.csrValue { s with engine := e, work := w, record := r, mem := m, done := d, lastCmd := l } n = s.csrValue n) ∧
  (∀ (s : State) e w m d l,
    State.commandView { s with engine := e, work := w, mem := m, done := d, lastCmd := l } = s.commandView) ∧
  (∀ s : State, s.Inv → s.busy = true → s.commandView = List.replicate 9 0) ∧
  (∀ (s : State) cmd x cmd' x' w m,
    State.status { s with engine := .busy cmd' x', work := w, mem := m } = State.status { s with engine := .busy cmd x })

/-! ## MEM and reset -/

/-- Derived from 20_memory.md sections 1, 3 and 4 (R65, R67, R72): the MEM host port. That an access at or above MEM_BYTES
is the same while BUSY is read from R67 (log 8), and that `memRdata` keeps the last read is the model's (log 5). -/
def Obligations.HostMemPortReadsAndWritesOneByte : Prop :=
  (∀ s a v, runEvent (.memRead a) s = hostMemRead a s ∧ runEvent (.memWrite a v) s = hostMemWrite a v s) ∧
  (∀ s (a : Addr), s.memBytes ≤ a.toNat → hostMemRead a s = .next { s with memRdata := 0 } ∧
    ∀ v, hostMemWrite a v s = .next s) ∧
  (∀ s (a : Addr), a.toNat < s.memBytes → s.latchedRegion a.toNat = false →
    hostMemRead a s = .next { s with memRdata := s.mem.readByte a.toNat } ∧
    ∀ v, ∃ m, hostMemWrite a v s = .next { s with mem := m } ∧ m.readByte a.toNat = v ∧
      ∀ b, b ≠ a.toNat → m.readByte b = s.mem.readByte b) ∧
  (∀ (s : State) a, s.busy = false → s.latchedRegion a = false)

/-- Derived from 00_scope.md R14 and 20_memory.md R61: a multi-byte value is little-endian, at any address, and writing
it touches its bytes alone. -/
def Obligations.MultiByteValuesAreLittleEndian : Prop :=
  ∀ (m : Memory) a n v, memRead (m.writeBytes a (leBytes n v)).readByte a n = v % 256 ^ n ∧
    m.sameOutside (m.writeBytes a (leBytes n v)) a (a + n) ∧
    ∀ i < n, ((m.writeBytes a (leBytes n v)).readByte (a + i)).toNat = v / 256 ^ i % 256

/-- Derived from 70_reset_and_hazards.md section 1 (R340); of the abandoned command's destination bytes nothing is said
(U8). That the port registers and the pending events are kept is the model's choice (logs 5 and 13). -/
def Obligations.HardwareResetRestoresAndAbandons : Prop :=
  ∀ s : State, ∃ t, runEvent .hwReset s = .next t ∧ t.ie = false ∧ t.args = Args.atReset ∧ t.engine = .idle ∧
    t.status = 0 ∧ t.record = Record.cleared ∧ t.done = false ∧ t.ovr = false ∧ t.lastCmd = 0 ∧
    t.memBytes = s.memBytes ∧ t.csrRdata = s.csrRdata ∧ t.memRdata = s.memRdata ∧ t.inputs = s.inputs ∧
    (s.engine = .idle → t.mem = s.mem) ∧
    (∀ cmd x, s.engine = .busy cmd x → s.mem.sameOutside t.mem x.da (x.da + x.dc))

/-- Derived from 70_reset_and_hazards.md R345: the commands straight after reset, for every MEM_BYTES. -/
def Obligations.CommandsStraightAfterReset : Prop :=
  ∀ s : State, s.engine = .idle → s.args = Args.atReset →
    (∃ t, exec .encode s = .next t ∧ t.reports ⟨.bounds, 3, 24, 0⟩) ∧
    (∃ t, exec .decode s = .next t ∧ t.reports ⟨.truncatedStream, 0, 24, 0⟩) ∧
    (∃ t, exec .nop s = .next t ∧ t.done = true ∧ t.mem = s.mem) ∧
    (∃ t, exec .clear s = .next t ∧ t.done = true ∧ t.mem = s.mem)

/-! ## Errors -/

/-- 60_exceptions.md R318: REGION_CHECK, its overlap test as the rule writes it and as what it means: some byte lies in
both regions. -/
def Obligations.RegionCheckRefusesOutsideAndOverlap : Prop :=
  ∀ memBytes sa sl da dc,
    (sl > 0 ∧ dc > 0 ∧ sa < da + dc ∧ da < sa + sl ↔ ∃ a, inRegion sa sl a = true ∧ inRegion da dc a = true) ∧
    (memBytes < sa + sl → regionCheck memBytes sa sl da dc = raise .bounds 0 sa sl) ∧
    (sa + sl ≤ memBytes → memBytes < da + dc → regionCheck memBytes sa sl da dc = raise .bounds 1 da dc) ∧
    (sa + sl ≤ memBytes → da + dc ≤ memBytes →
      ((∃ a, inRegion sa sl a = true ∧ inRegion da dc a = true) → regionCheck memBytes sa sl da dc = raise .bounds 2 da sa) ∧
      ((∀ a, ¬ (inRegion sa sl a = true ∧ inRegion da dc a = true)) → regionCheck memBytes sa sl da dc = .ok ()))

/-- 60_exceptions.md R313: a running command whose completion step raises reports the error and has no other effect, and an
illegal word does the same in its host step. -/
def Obligations.RaisedErrorIsRecordedAndEndsTheCommand : Prop :=
  (∀ (s : State) x r, s.engine = .busy .encode x → encodeRun s.memBytes s.mem.readByte x s.work = .error (.raised r) →
    s.reports r) ∧
  (∀ (s : State) x r, s.engine = .busy .decode x → decodeRun s.memBytes s.mem.readByte x s.work = .error (.raised r) →
    s.reports r) ∧
  (∀ s x r, ∃ t, finish x (.error (.raised r)) s = .next t ∧ t.engine = .idle ∧ t.done = true ∧ t.mem = s.mem ∧
    t.record = { s.record with
      errCode := r.kind, errSub := BitVec.ofNat 8 r.sub, errIndex := BitVec.ofNat 64 r.index,
      errValue := BitVec.ofNat 32 r.value } ∧ SameForCompletion s t) ∧
  (∀ s w, s.engine = .idle → (∀ i, w ≠ encode i) → ∃ t, cmdWrite w s = .next t ∧ t.engine = .idle ∧ t.done = true ∧
    t.mem = s.mem ∧ t.record = { Record.cleared with errCode := .illegalCommand, errValue := w })

/-- Derived from 60_exceptions.md R310 and R311: the kinds ENCODE and DECODE raise, their subcodes, and that index and
value fit their CSRs. -/
def Obligations.CommandsRaiseOnlyErrorsOfTheTable : Prop :=
  (∀ memBytes rd x w r, encodeRun memBytes rd x w = .error (.raised r) →
    r.kind ∈ [.unknownSymbol, .config, .bounds] ∧ r.kind.allows r.sub = true ∧ r.index < 2 ^ 64 ∧ r.value < 2 ^ 32) ∧
  (∀ memBytes rd x w r, decodeRun memBytes rd x w = .error (.raised r) →
    r.kind ∈ [.truncatedStream, .corruptTree, .bounds] ∧ r.kind.allows r.sub = true ∧ r.index < 2 ^ 64 ∧ r.value < 2 ^ 32)

/-- 45_encoder.md R223, R224 and R226, and the symbol check, in the order of R222: each as the one error the command
reports. -/
def Obligations.EncodeReportsTheFirstFailingCheck : Prop :=
  ∀ (s : State) x, s.engine = .busy .encode x →
    (x.A = 0 ∨ 2 ^ 24 < x.A → s.reports ⟨.config, 0, 0, x.A⟩) ∧
    (1 ≤ x.A → x.A ≤ 2 ^ 24 →
      (x.sl % 4 ≠ 0 → s.reports ⟨.config, 1, 0, x.sl⟩) ∧
      (x.sl % 4 = 0 →
        (s.memBytes < x.sa + x.sl → s.reports ⟨.bounds, 0, x.sa, x.sl⟩) ∧
        (x.sa + x.sl ≤ s.memBytes → s.memBytes < x.da + x.dc → s.reports ⟨.bounds, 1, x.da, x.dc⟩) ∧
        (x.sa + x.sl ≤ s.memBytes → x.da + x.dc ≤ s.memBytes →
          (∃ a, inRegion x.sa x.sl a = true ∧ inRegion x.da x.dc a = true) → s.reports ⟨.bounds, 2, x.da, x.sa⟩) ∧
        (RegionsOk s.memBytes x → ∀ i < x.sl / 4,
          x.A ≤ memRead s.mem.readByte (x.sa + 4 * i) 4 → (∀ j < i, memRead s.mem.readByte (x.sa + 4 * j) 4 < x.A) →
          s.reports ⟨.unknownSymbol, 0, i, memRead s.mem.readByte (x.sa + 4 * i) 4⟩)))

/-- 46_decoder.md R253 and R255, with REGION_CHECK before and the entry count after them, in the order of R252: each as the
one error reported. -/
def Obligations.DecodeReportsTheFirstFailingHeaderCheck : Prop :=
  ∀ (s : State) x, s.engine = .busy .decode x →
    (s.memBytes < x.sa + x.sl → s.reports ⟨.bounds, 0, x.sa, x.sl⟩) ∧
    (x.sa + x.sl ≤ s.memBytes → s.memBytes < x.da + x.dc → s.reports ⟨.bounds, 1, x.da, x.dc⟩) ∧
    (x.sa + x.sl ≤ s.memBytes → x.da + x.dc ≤ s.memBytes →
      (∃ a, inRegion x.sa x.sl a = true ∧ inRegion x.da x.dc a = true) → s.reports ⟨.bounds, 2, x.da, x.sa⟩) ∧
    (RegionsOk s.memBytes x →
      (x.sl < 24 → s.reports ⟨.truncatedStream, 0, 24, 0⟩) ∧
      (24 ≤ x.sl →
        ∀ alphabet, alphabet = memRead s.mem.readByte (x.sa + 8) 4 →
        ∀ entries, entries = memRead s.mem.readByte (x.sa + 12) 4 →
        (alphabet = 0 ∨ 2 ^ 24 < alphabet → s.reports ⟨.corruptTree, 0, 0, alphabet⟩) ∧
        (1 ≤ alphabet → alphabet ≤ 2 ^ 24 → alphabet < entries → s.reports ⟨.corruptTree, 1, 0, entries⟩)))

/-- 46_decoder.md R260 and R261, with the other checks of R257 and R262 in their order: after records that are accepted, what
the next record makes a running DECODE report, and what it makes the parsing of records raise for any capacity of the
trie. -/
def Obligations.DecodeReportsTheFirstBadRecord : Prop :=
  (∀ (s : State) x alphabet recs, s.engine = .busy .decode x → RegionsOk s.memBytes x →
    alphabet = memRead s.mem.readByte (x.sa + 8) 4 → 1 ≤ alphabet → alphabet ≤ 2 ^ 24 →
    memRead s.mem.readByte (x.sa + 12) 4 ≤ alphabet → recs.length < memRead s.mem.readByte (x.sa + 12) 4 →
    PrefixTable alphabet recs → recordsAt s.mem.readByte (x.sa + 24) recs → 24 + recordsSize recs ≤ x.sl →
    trieNodes recs ≤ 2 ^ 25 →
    NextRecordErrs s.mem.readByte x.sa x.sl alphabet (2 ^ 25) recs s.reports) ∧
  (∀ rd sa sl alphabet cap recs more, PrefixTable alphabet recs → recordsAt rd (sa + 24) recs →
    24 + recordsSize recs ≤ sl → trieNodes recs ≤ cap →
    NextRecordErrs rd sa sl alphabet cap recs fun r =>
      decodeRecords rd sa sl alphabet cap (recs.length + (more + 1)) 0 24 ctTrieInit = .error (.raised r))

/-- 46_decoder.md R266, with the payload check before it: the payload's bytes and the destination's capacity, after a
table that is accepted. -/
def Obligations.DecodeReportsShortPayloadAndSmallDestination : Prop :=
  ∀ (s : State) x count alphabet recs bits, s.engine = .busy .decode x → RegionsOk s.memBytes x → 24 + recordsSize recs ≤ x.sl →
    count = memRead s.mem.readByte x.sa 8 → alphabet = memRead s.mem.readByte (x.sa + 8) 4 →
    recs.length = memRead s.mem.readByte (x.sa + 12) 4 → bits = memRead s.mem.readByte (x.sa + 16) 8 →
    1 ≤ alphabet → alphabet ≤ 2 ^ 24 → recs.length ≤ alphabet → recordsAt s.mem.readByte (x.sa + 24) recs →
    PrefixTable alphabet recs → trieNodes recs ≤ 2 ^ 25 →
    (x.sl < 24 + recordsSize recs + ceil8 bits →
      s.reports ⟨.truncatedStream, 2, 24 + recordsSize recs + ceil8 bits, 0⟩) ∧
    (24 + recordsSize recs + ceil8 bits ≤ x.sl → x.dc < 4 * count →
      s.reports ⟨.bounds, 3, min (4 * count) (2 ^ 64 - 1), 0⟩)

/-- 46_decoder.md R268, and the null child beside it: the walk runs out of bits, or a bit selects a NIL child. -/
def Obligations.DecodeReportsExhaustionAndNullChild : Prop :=
  ∀ (s : State) x count alphabet recs payload S p, s.engine = .busy .decode x → RegionsOk s.memBytes x →
    ContainerAt s.mem.readByte x.sa count alphabet recs payload → containerSize recs payload ≤ x.sl →
    1 ≤ alphabet → alphabet ≤ 2 ^ 24 → recs.length ≤ alphabet → PrefixTable alphabet recs → trieNodes recs ≤ 2 ^ 25 →
    4 * count ≤ x.dc → S.length < count → (∀ q ∈ S, q ∈ recs.map (·.1)) → insideTrie recs p →
    (payload = bitsOf recs S ++ p → s.reports ⟨.truncatedStream, 3, S.length, 0⟩) ∧
    (∀ b rest, payload = bitsOf recs S ++ p ++ b :: rest → (∀ e ∈ recs, ¬ (p ++ [b]) <+: e.2) →
      s.reports ⟨.corruptTree, 7, (bitsOf recs S).length + p.length, S.length⟩)

/-! ## Frequency table, queue, tree -/

/-- 40_frequency_table.md R120 and R121: a cleared table counts nothing, and counting adds one occurrence of one symbol
and nothing else. -/
def Obligations.CountingChangesOneCounter : Prop :=
  (∀ f s, freqOf (ftClear f) s = 0) ∧
  (∀ f s r, freqOf (ftCount f s) r = freqOf f r + if r = s then 1 else 0)

/-- Derived from 45_encoder.md (R225), 40_frequency_table.md (R122, R123) and 00_scope.md section 4 (R10, COUNT_W): the
counting pass counts every symbol and lists the active alphabet in ascending order, or reports the first symbol outside the
alphabet; the counts add up to the number of symbols, and with fewer than 2^COUNT_W symbols every counter fits its width. -/
def Obligations.CountingPassCountsOrReportsTheFirstBadSymbol : Prop :=
  ∀ A S f0,
    ((∀ s ∈ S, s < A) → ∃ f, countPass A S 0 (ftClear f0) = .ok f ∧ (∀ s, freqOf f s = S.count s) ∧
      (ftActive f A).Pairwise (· < ·) ∧ (∀ s, s ∈ ftActive f A ↔ s < A ∧ 0 < freqOf f s) ∧
      ((ftActive f A).map (freqOf f)).sum = S.length ∧
      (S.length < 2 ^ Config.countW → ∀ s, freqOf f s < 2 ^ Config.countW)) ∧
    (∀ i s, S[i]? = some s → A ≤ s → (∀ j < i, ∀ r, S[j]? = some r → r < A) →
      countPass A S 0 (ftClear f0) = raise .unknownSymbol 0 i s)

/-- 41_priority_queue.md R134, with the order of R131: the least entry leaves, and an empty queue is unreachable. -/
def Obligations.ExtractMinRemovesTheLeastEntry : Prop :=
  ∀ q : PQ, (q.entries = [] → pqExtractMin q = unreachableAt .pqExtractMinEmpty) ∧
    (q.entries ≠ [] → ∃ e q', pqExtractMin q = .ok (e, q') ∧ e ∈ q.entries ∧ q'.nextSeq = q.nextSeq ∧
      q.entries.Perm (e :: q'.entries) ∧
      ∀ d ∈ q.entries, e.weight < d.weight ∨ (e.weight = d.weight ∧ e.seq ≤ d.seq))

/-- Derived from 42_tree_builder.md (R151 to R158) and 41_priority_queue.md (R131): the shape, the weights and the parents of
the tree TB_BUILD returns; and each internal node joins the two nodes that leave the queue first when it is made, the first
as its left child and the second as its right child. No weight is above the sum of the counts, so with a sum below 2^COUNT_W
every weight fits its width (R161, 00_scope.md R10). -/
def Obligations.BuiltTreeHasTheHuffmanShape : Prop :=
  ∀ (f : Freq) (active : List Nat) (b0 : Builder), (active = [] → tbBuild f active b0 = .ok .empty) ∧
    (active ≠ [] → ∃ (arena : List Node) (root : Nat), tbBuild f active b0 = .ok (.tree arena root) ∧
      arena.length = 2 * active.length - 1 ∧ root < arena.length ∧
      (∀ (i s : Nat), active[i]? = some s → arena[i]? = some (Node.leaf s (freqOf f s))) ∧
      (∀ i, active.length ≤ i → i < arena.length → ∃ (l r : Nat) (nl nr : Node), arena[i]? = some (Node.internal (some l) (some r) (nl.weight + nr.weight)) ∧
        arena[l]? = some nl ∧ arena[r]? = some nr ∧ l < i ∧ r < i ∧ l ≠ r) ∧
      (∀ i < arena.length, i ≠ root → ∃ p, isChild arena p i ∧ ∀ q, isChild arena q i → q = p) ∧
      (∀ p, ¬ isChild arena p root) ∧
      (∀ i, active.length ≤ i → i < arena.length → ∃ (l r w : Nat), arena[i]? = some (Node.internal (some l) (some r) w) ∧
        waiting arena i l ∧ waiting arena i r ∧ leavesBefore arena l r ∧
        ∀ j, waiting arena i j → j ≠ l → j ≠ r → leavesBefore arena r j) ∧
      (∀ (i : Nat) (n : Node), arena[i]? = some n → n.weight ≤ (active.map (freqOf f)).sum ∧
        ((active.map (freqOf f)).sum < 2 ^ Config.countW → n.weight < 2 ^ Config.countW)) ∧
      ∃ n, arena[root]? = some n ∧ n.weight = (active.map (freqOf f)).sum)

/-! ## Codes -/

/-- Derived from 43_code_table.md R175 (a), (c) and R173: every active symbol gets one non-empty code, no other symbol
gets one, and no code is a prefix of another's. -/
def Obligations.GeneratedCodesArePrefixFree : Prop :=
  ∀ f active b0, active.Nodup → ∃ tree codes, tbBuild f active b0 = .ok tree ∧ ctGen tree = .ok codes ∧
    (∀ s, codeOf codes s ≠ [] ↔ s ∈ active) ∧
    (∀ s ∈ active, ∀ r ∈ active, s ≠ r → ¬ codeOf codes s <+: codeOf codes r) ∧
    (∀ s, active = [s] → codeOf codes s = [false])

/-- Derived from 43_code_table.md R177 and 42_tree_builder.md R160: with fewer than 2^30 symbols counted, no code is
longer than 42 bits. -/
def Obligations.CodesAreAtMost42BitsLong : Prop :=
  ∀ f active b0 tree codes, active.Nodup → (∀ s ∈ active, 1 ≤ freqOf f s) →
    (active.map (freqOf f)).sum ≤ 2 ^ 30 - 1 → tbBuild f active b0 = .ok tree → ctGen tree = .ok codes →
    ∀ s ∈ active, 1 ≤ (codeOf codes s).length ∧ (codeOf codes s).length ≤ 42

/-- Derived from 43_code_table.md section 1 (R176): a more frequent symbol's code is no longer. -/
def Obligations.MoreFrequentSymbolsHaveNoLongerCodes : Prop :=
  ∀ f active b0 tree codes, active.Nodup → tbBuild f active b0 = .ok tree → ctGen tree = .ok codes →
    ∀ a ∈ active, ∀ b ∈ active, freqOf f b < freqOf f a → (codeOf codes a).length ≤ (codeOf codes b).length

/-! ## Bit streams and the decode trie -/

/-- 44_bitstream.md R200, with the zero padding of R204: where every bit of a packed sequence lies, and the zero padding. -/
def Obligations.PackedBitsAreMsbFirstAndZeroPadded : Prop :=
  ∀ c : Bits, (pack c).length = ceil8 c.length ∧
    ∀ i, i < 8 * (pack c).length → ((pack c).getD (i / 8) 0).getLsbD (7 - i % 8) = c.getD i false

/-- Derived from 44_bitstream.md R212, with R209 and R210: reading what was written gives it back bit for bit, and then
no bit is left. -/
def Obligations.ReaderGivesBackWhatTheWriterPacked : Prop :=
  ∀ (w : BitWriter) (bits : Bits) rd base, bytesAt rd base (bwFinalize (bwPutSeq (bwInit w) bits)).1 →
    (bwFinalize (bwPutSeq (bwInit w) bits)).2 = bits.length ∧
    (∀ i b, bits[i]? = some b → brGet rd ⟨base, bits.length, i⟩ = .ok (b, ⟨base, bits.length, i + 1⟩)) ∧
    (∀ i ≤ bits.length, brAvailable ⟨base, bits.length, i⟩ = bits.length - i) ∧
    brGet rd ⟨base, bits.length, bits.length⟩ = unreachableAt .brGetAtEnd

/-- Derived from 43_code_table.md R181 and R182: a prefix code's records are all accepted, with one node for each prefix
of a code; then a repeated symbol, a conflicting code and a full arena are what the next insert reports. -/
def Obligations.TrieAcceptsExactlyPrefixCodes : Prop :=
  ∀ alphabet cap recs, PrefixTable alphabet recs → trieNodes recs ≤ cap →
    ∃ t, insertRecords cap 0 recs ctTrieInit = .ok t ∧ t.arena.length = trieNodes recs ∧
      (∀ q, q ∈ t.seen ↔ q ∈ recs.map (·.1)) ∧
      ∀ j sym c, c ≠ [] →
        (sym ∈ recs.map (·.1) → ctTrieInsert cap j sym c t = raise .corruptTree 4 j sym) ∧
        (sym ∉ recs.map (·.1) →
          (conflicts recs c → ctTrieInsert cap j sym c t = raise .corruptTree 5 j sym) ∧
          (¬ conflicts recs c →
            (trieNodes (recs ++ [(sym, c)]) ≤ cap → ∃ t', ctTrieInsert cap j sym c t = .ok t') ∧
            (cap < trieNodes (recs ++ [(sym, c)]) → ctTrieInsert cap j sym c t = raise .corruptTree 6 j sym)))

/-! ## ENCODE and DECODE -/

/-- Derived from 20_memory.md R63 and R64: what ENCODE and DECODE compute depends on no byte outside the latched source
region. -/
def Obligations.CommandsReadOnlyTheSourceRegion : Prop :=
  ∀ memBytes rd rd' x w, (∀ a, inRegion x.sa x.sl a = true → rd a = rd' a) →
    encodeRun memBytes rd x w = encodeRun memBytes rd' x w ∧ decodeRun memBytes rd x w = decodeRun memBytes rd' x w

/-- Derived from 45_encoder.md (R221, R225, R227, R229 to R235) and 30_encoding.md (R95 to R101): issued while IDLE with legal
arguments and symbols, ENCODE answers, and its completion writes the container whose records are the symbols that occur, in
ascending order, each with its code of the tree TB_BUILD makes of their counts, or reports that it does not fit. -/
def Obligations.EncodeWritesTheContainerOfItsSymbols : Prop :=
  ∀ s S, s.engine = .idle → EncodeOk s.memBytes s.mem.readByte s.args →
    S = readSymbols s.mem.readByte s.args.sa s.args.n →
    ∃ t f tree codes recs, exec .encode s = .next t ∧
      countPass s.args.A S 0 (ftClear []) = .ok f ∧ (∀ q, freqOf f q = S.count q) ∧
      (∀ b0, tbBuild f (ftActive f s.args.A) b0 = .ok tree) ∧ ctGen tree = .ok codes ∧
      recs = (ftActive f s.args.A).map (fun q => (q, codeOf codes q)) ∧ PrefixTable s.args.A recs ∧
      (recs.map (·.1)).Pairwise (· < ·) ∧ (∀ q, q ∈ recs.map (·.1) ↔ q ∈ S) ∧
      (s.args.dc < containerSize recs (bitsOf recs S) → t.reports ⟨.bounds, 3, containerSize recs (bitsOf recs S), 0⟩) ∧
      (containerSize recs (bitsOf recs S) ≤ s.args.dc →
        (containerBytes S.length s.args.A recs (bitsOf recs S)).length = containerSize recs (bitsOf recs S) ∧
        t.delivers s.args.da (containerBytes S.length s.args.A recs (bitsOf recs S)) S.length (bitsOf recs S).length
          recs.length)

/-- Derived from 45_encoder.md R234 and R235: the containers of an empty source and of a source with one distinct
symbol. -/
def Obligations.EncodeOfEmptyAndOfOneSymbol : Prop :=
  ∀ s, s.engine = .idle → EncodeOk s.memBytes s.mem.readByte s.args →
    (s.args.sl = 0 → 24 ≤ s.args.dc → ∃ t, exec .encode s = .next t ∧
      t.delivers s.args.da (leBytes 8 0 ++ leBytes 4 s.args.A ++ leBytes 4 0 ++ leBytes 8 0) 0 0 0) ∧
    (∀ q, 0 < s.args.n → (∀ i < s.args.n, memRead s.mem.readByte (s.args.sa + 4 * i) 4 = q) →
      30 + ceil8 s.args.n ≤ s.args.dc → ∃ t, exec .encode s = .next t ∧
      t.delivers s.args.da
        (leBytes 8 s.args.n ++ leBytes 4 s.args.A ++ leBytes 4 1 ++ leBytes 8 s.args.n ++ leBytes 4 q ++ [1#8, 0#8] ++
          List.replicate (ceil8 s.args.n) 0#8)
        s.args.n s.args.n 1)

/-- Derived from 45_encoder.md R237: with this capacity a legal ENCODE never lacks room. -/
def Obligations.EncodeFitsTheGuaranteedCapacity : Prop :=
  ∀ s, s.engine = .idle → EncodeOk s.memBytes s.mem.readByte s.args →
    24 + 11 * min s.args.n s.args.A + ceil8 (42 * s.args.n) ≤ s.args.dc →
    ∃ t u, exec .encode s = .next t ∧ engineStep t = .next u ∧ u.record.errCode = .none ∧ u.engine = .idle ∧
      u.done = true ∧ u.record.resultCount.toNat = s.args.n ∧
      u.record.resultLen.toNat ≤ 24 + 11 * min s.args.n s.args.A + ceil8 (42 * s.args.n)

/-- Derived from 46_decoder.md (R251, R259, R267, R270 to R273, R275, R276) and 30_encoding.md (R100, R102): issued
while IDLE on a container in memory whose records are a prefix code in any order and whose payload begins with the codes
of S, DECODE answers, and its completion writes S; padding, further bits and trailing bytes do not matter. -/
def Obligations.DecodeWritesTheSymbolsOfAContainer : Prop :=
  ∀ s alphabet recs payload S, s.engine = .idle → RegionsOk s.memBytes s.args →
    ContainerAt s.mem.readByte s.args.sa S.length alphabet recs payload → containerSize recs payload ≤ s.args.sl →
    1 ≤ alphabet → alphabet ≤ 2 ^ 24 → recs.length ≤ alphabet → PrefixTable alphabet recs → trieNodes recs ≤ 2 ^ 25 →
    (∀ q ∈ S, q ∈ recs.map (·.1)) → bitsOf recs S <+: payload → 4 * S.length ≤ s.args.dc →
    ∃ t, exec .decode s = .next t ∧
      t.delivers s.args.da (S.flatMap (leBytes 4)) S.length (bitsOf recs S).length recs.length

/-- Derived from 46_decoder.md R277: DECODE of what ENCODE wrote gives the source words back, byte for byte. -/
def Obligations.DecodeAfterEncodeGivesBackTheSource : Prop :=
  ∀ s t u v, s.engine = .idle → exec .encode s = .next t → engineStep t = .next u → u.record.errCode = .none →
    v.engine = .idle → v.memBytes = s.memBytes →
    (∀ o < u.record.resultLen.toNat, v.mem.readByte (s.args.da + o) = u.mem.readByte (s.args.da + o)) →
    v.args.sa = s.args.da → v.args.sl = u.record.resultLen.toNat → RegionsOk v.memBytes v.args → s.args.sl ≤ v.args.dc →
    ∃ w z, exec .decode v = .next w ∧ engineStep w = .next z ∧ z.record.errCode = .none ∧ z.engine = .idle ∧
      z.done = true ∧
      (∀ o < s.args.sl, z.mem.readByte (v.args.da + o) = s.mem.readByte (s.args.sa + o)) ∧
      v.mem.sameOutside z.mem v.args.da (v.args.da + s.args.sl) ∧
      z.record.resultCount = u.record.resultCount ∧ z.record.payloadBits = u.record.payloadBits ∧
      z.record.tableEntries = u.record.tableEntries ∧ z.record.resultLen = s.args.srcLen

/-! ## Codes as paths -/

/-- Derived from 43_code_table.md section 1 (R170 to R173) and 42_tree_builder.md (R155): with two active symbols or more, a
symbol's code is the path from the root to its leaf, left edges 0 and right edges 1, root edge first, and every path to a leaf
is a code; a single active symbol has the code 0, and with none there is no code. -/
def Obligations.CodesAreThePathsToTheirLeaves : Prop :=
  ∀ (f : Freq) (active : List Nat) (b0 : Builder), active.Nodup →
    ∃ tree codes, tbBuild f active b0 = .ok tree ∧ ctGen tree = .ok codes ∧
      (active = [] → tree = .empty ∧ codes = []) ∧
      (∀ s, active = [s] → codeOf codes s = [false]) ∧
      (2 ≤ active.length → ∃ arena root, tree = .tree arena root ∧
        (∀ s ∈ active, nodeAt arena root (codeOf codes s) = some (Node.leaf s (freqOf f s))) ∧
        ∀ p s w, nodeAt arena root p = some (Node.leaf s w) → s ∈ active ∧ w = freqOf f s ∧ p = codeOf codes s)
end

