-- ==== Sys2Proof/Laws/Decode.lean ====
section
/-! SUPPORT. The widths of 00_scope.md R10 as numbers, and what the expansion of assembler lines can do. -/

namespace Sys2Proof

/-! ## The widths as numbers -/

@[simp] theorem Config.addrW_eq : Config.addrW = 32 := rfl
@[simp] theorem Config.csrW_eq : Config.csrW = 32 := rfl
@[simp] theorem Config.symW_eq : Config.symW = 32 := rfl
@[simp] theorem Config.countW_eq : Config.countW = 64 := rfl
@[simp] theorem Config.symBytes_eq : Config.symBytes = 4 := rfl
@[simp] theorem Config.countBytes_eq : Config.countBytes = 8 := rfl

/-! ## The MEM port's addresses and the lines that use it -/

/-- The MEM port carries an address as it is, or as the last address (20_memory.md R60). -/
theorem portAddr_toNat (a : Nat) : (portAddr a).toNat = min a (2 ^ 32 - 1) := by
  simp only [portAddr, BitVec.toNat_ofNat, Config.addrW_eq]
  omega

/-- An address outside a MEM of at most 2^32 − 1 bytes is carried as one outside it (20_memory.md R60). -/
theorem le_portAddr_toNat {m a : Nat} (hm : m ≤ 2 ^ 32 - 1) (h : m ≤ a) : m ≤ (portAddr a).toNat := by
  rw [portAddr_toNat]; omega

@[simp] theorem memwEvents_length (a : Nat) (bs : List Nat) : (memwEvents a bs).length = bs.length := by
  induction bs generalizing a with
  | nil => rfl
  | cons b bs ih => simp [memwEvents, ih]

@[simp] theorem memrEvents_length (a n : Nat) : (memrEvents a n).length = n := by
  induction n generalizing a with
  | zero => rfl
  | succ n ih => simp [memrEvents, ih]

/-- The i-th transaction of `memw`: byte i to address a + i (30_encoding.md R86). -/
theorem memwEvents_getElem? (a : Nat) (bs : List Nat) (i : Nat) :
    (memwEvents a bs)[i]? = (bs[i]?).map fun b => .memWrite (portAddr (a + i)) (BitVec.ofNat 8 b) := by
  induction bs generalizing a i with
  | nil => rfl
  | cons b bs ih =>
    cases i with
    | zero => rfl
    | succ i => simpa [memwEvents, Nat.add_assoc, Nat.add_comm 1 i] using ih (a + 1) i

/-- The i-th transaction of `memr`: a read of address a + i (30_encoding.md R86). -/
theorem memrEvents_getElem? {a n i : Nat} (h : i < n) : (memrEvents a n)[i]? = some (.memRead (portAddr (a + i))) := by
  induction n generalizing a i with
  | zero => cases h
  | succ n ih =>
    cases i with
    | zero => rfl
    | succ i => simpa [memrEvents, Nat.add_assoc, Nat.add_comm 1 i] using ih (a := a + 1) (i := i) (by omega)

end Sys2Proof
end

