-- ==== Sys2Proof/Laws/Memory.lean ====
section
/-! SUPPORT. Laws of sorted maps and of MEM: a read after a write, what a write leaves alone, and that every memory
operation keeps the canonical form. -/

namespace Sys2Proof.Machine

/-! ## Sorted maps -/

@[simp] theorem mapGet_nil {α : Type} (a : Nat) : mapGet ([] : List (Nat × α)) a = none := rfl

/-- A map after a put: the new value at its key, every other key as before. -/
theorem mapGet_mapPut {α : Type} (m : List (Nat × α)) (a b : Nat) (v : α) :
    mapGet (mapPut m a v) b = if a = b then some v else mapGet m b := by
  induction m with
  | nil => simp [mapPut, mapGet]
  | cons c m ih =>
    obtain ⟨k, u⟩ := c
    simp only [mapPut]
    split
    · simp [mapGet]
    · split
      · rename_i heq
        by_cases h : k = b <;> simp [mapGet, heq, h]
      · by_cases hk : k = b
        · subst hk; simp [mapGet]; intro h; omega
        · simp [mapGet, hk, ih]

@[simp] theorem mapGet_mapPut_self {α : Type} (m : List (Nat × α)) (a : Nat) (v : α) :
    mapGet (mapPut m a v) a = some v := by simp [mapGet_mapPut]

/-- Every entry after a put is the new one or an old one. -/
theorem mem_mapPut {α : Type} {m : List (Nat × α)} {a : Nat} {v : α} {c : Nat × α} (h : c ∈ mapPut m a v) :
    c = (a, v) ∨ c ∈ m := by
  induction m with
  | nil => simpa [mapPut] using h
  | cons d m ih =>
    obtain ⟨k, u⟩ := d
    simp only [mapPut] at h
    split at h
    · simpa using h
    · split at h
      · simp only [List.mem_cons] at h ⊢; rcases h with h | h
        · exact .inl h
        · exact .inr (.inr h)
      · simp only [List.mem_cons] at h ⊢; rcases h with h | h
        · exact .inr (.inl h)
        · rcases ih h with h | h
          · exact .inl h
          · exact .inr (.inr h)

/-- A put keeps keys strictly rising. -/
theorem mapPut_sorted {α : Type} {m : List (Nat × α)} (h : m.Pairwise fun c d => c.1 < d.1) (a : Nat) (v : α) :
    (mapPut m a v).Pairwise fun c d => c.1 < d.1 := by
  induction m with
  | nil => simp [mapPut]
  | cons d m ih =>
    obtain ⟨k, u⟩ := d
    rw [List.pairwise_cons] at h
    simp only [mapPut]
    split
    · rename_i hlt
      refine List.pairwise_cons.2 ⟨?_, List.pairwise_cons.2 h⟩
      intro c hc
      rcases List.mem_cons.1 hc with rfl | hc
      · exact hlt
      · exact Nat.lt_trans hlt (h.1 c hc)
    · split
      · rename_i _ heq; subst heq; exact List.pairwise_cons.2 h
      · rename_i h1 h2
        refine List.pairwise_cons.2 ⟨?_, ih h.2⟩
        intro c hc
        rcases mem_mapPut hc with rfl | hc
        · show k < a; omega
        · exact h.1 c hc

/-- In a sorted map every listed entry is what its key reads as. -/
theorem mapGet_of_mem {α : Type} {m : List (Nat × α)} (h : m.Pairwise fun c d => c.1 < d.1) {a : Nat} {v : α}
    (hm : (a, v) ∈ m) : mapGet m a = some v := by
  induction m with
  | nil => cases hm
  | cons d m ih =>
    obtain ⟨k, u⟩ := d
    rw [List.pairwise_cons] at h
    rcases List.mem_cons.1 hm with heq | hm
    · cases heq; simp [mapGet]
    · have := h.1 _ hm
      simp only at this
      have hne : ¬ k = a := by omega
      simp [mapGet, hne, ih h.2 hm]

/-- A key that no entry has is not listed. -/
theorem mapGet_eq_none {α : Type} {m : List (Nat × α)} {a : Nat} (h : ∀ c ∈ m, c.1 ≠ a) : mapGet m a = none := by
  induction m with
  | nil => rfl
  | cons d m ih =>
    obtain ⟨k, u⟩ := d
    have hk : k ≠ a := h (k, u) (by simp)
    simp [mapGet, hk, ih fun c hc => h c (by simp [hc])]

/-- What a key reads as is an entry. -/
theorem mem_of_mapGet {α : Type} {m : List (Nat × α)} {a : Nat} {v : α} (h : mapGet m a = some v) : (a, v) ∈ m := by
  induction m with
  | nil => cases h
  | cons d m ih =>
    obtain ⟨k, u⟩ := d
    simp only [mapGet] at h
    split at h
    · cases h; simp_all
    · exact List.mem_cons_of_mem _ (ih h)

theorem mapGet_append {α : Type} (m n : List (Nat × α)) (a : Nat) :
    mapGet (m ++ n) a = (mapGet m a).or (mapGet n a) := by
  induction m with
  | nil => simp
  | cons d m ih =>
    obtain ⟨k, u⟩ := d
    by_cases h : k = a <;> simp [mapGet, h, ih]

theorem mapGet_filter {α : Type} (m : List (Nat × α)) (p : Nat → Bool) (a : Nat) :
    mapGet (m.filter fun c => p c.1) a = if p a then mapGet m a else none := by
  induction m with
  | nil => simp
  | cons d m ih =>
    obtain ⟨k, u⟩ := d
    by_cases hk : k = a
    · subst hk; by_cases hp : p k <;> simp [hp, mapGet, ih]
    · by_cases hp : p k <;> simp [hp, mapGet, hk, ih]

/-! ## Numbers and bytes -/

@[simp] theorem leBytes_length (n v : Nat) : (leBytes n v).length = n := by
  induction n generalizing v with
  | zero => rfl
  | succ n ih => simp [leBytes, ih]

/-- Memory that holds the little-endian bytes of v reads as v, cut to n bytes (00_scope.md R14). -/
theorem memRead_of_leBytes {rd : Nat → Byte} {a n v : Nat} (h : bytesAt rd a (leBytes n v)) :
    memRead rd a n = v % 256 ^ n := by
  induction n generalizing a v with
  | zero => simp [memRead, Nat.mod_one]
  | succ n ih =>
    have h0 : rd a = BitVec.ofNat 8 v := by simpa [leBytes] using h 0 (by simp)
    have hs : bytesAt rd (a + 1) (leBytes n (v / 256)) := by
      intro o ho
      have := h (o + 1) (by simpa [leBytes] using ho)
      simpa [leBytes, Nat.add_assoc, Nat.add_comm 1 o] using this
    rw [memRead, ih hs, h0]
    rw [BitVec.toNat_ofNat]
    show v % 256 + _ = _
    rw [Nat.pow_succ, Nat.mul_comm (256 ^ n) 256, Nat.mod_mul]

theorem memRead_lt (rd : Nat → Byte) (a n : Nat) : memRead rd a n < 256 ^ n := by
  induction n generalizing a with
  | zero => simp [memRead]
  | succ n ih =>
    have h1 := (rd a).isLt
    have h2 := ih (a + 1)
    simp only [memRead, Nat.pow_succ]
    omega

/-- A read depends on its n bytes only. -/
theorem memRead_congr {rd rd' : Nat → Byte} {a n : Nat} (h : ∀ o < n, rd (a + o) = rd' (a + o)) :
    memRead rd a n = memRead rd' a n := by
  induction n generalizing a with
  | zero => rfl
  | succ n ih =>
    have h0 := h 0 (by omega)
    simp only [Nat.add_zero] at h0
    rw [memRead, memRead, h0, ih]
    intro o ho
    have := h (o + 1) (by omega)
    simpa [Nat.add_assoc, Nat.add_comm 1 o] using this

/-! ## MEM -/

/-- A read after a byte write: the byte written at its address, every other address as before (20_memory.md R65). -/
theorem Memory.readByte_writeByte (m : Memory) (a b : Nat) (v : Byte) :
    (m.writeByte a v).readByte b = if a = b then v else m.readByte b := by
  unfold Memory.readByte Memory.writeByte
  rw [mapGet_mapPut]
  split <;> rfl

theorem Memory.writeByte_wf {m : Memory} (h : m.wf) (a : Nat) (v : Byte) : (m.writeByte a v).wf := mapPut_sorted h a v

theorem Memory.writeBytes_wf {m : Memory} (h : m.wf) (a : Nat) (bs : List Byte) : (m.writeBytes a bs).wf := by
  induction bs generalizing m a with
  | nil => exact h
  | cons v vs ih => exact ih (m.writeByte_wf h a v) (a + 1)

/-- What bytes written from a upward leave to read. -/
theorem Memory.readByte_writeBytes (m : Memory) (a b : Nat) (bs : List Byte) :
    (m.writeBytes a bs).readByte b = if a ≤ b ∧ b < a + bs.length then bs.getD (b - a) 0 else m.readByte b := by
  induction bs generalizing m a with
  | nil =>
    have h : ¬ (a ≤ b ∧ b < a + 0) := by omega
    simp only [Memory.writeBytes, List.length_nil, if_neg h]
  | cons v vs ih =>
    simp only [Memory.writeBytes, ih, Memory.readByte_writeByte, List.length_cons]
    by_cases h1 : a + 1 ≤ b ∧ b < a + 1 + vs.length
    · have h2 : a ≤ b ∧ b < a + (vs.length + 1) := by omega
      rw [if_pos h1, if_pos h2]
      have : b - a = (b - (a + 1)) + 1 := by omega
      rw [this]; rfl
    · rw [if_neg h1]
      by_cases h2 : a = b
      · subst h2
        have h3 : a ≤ a ∧ a < a + (vs.length + 1) := by omega
        simp [h3]
      · have h3 : ¬ (a ≤ b ∧ b < a + (vs.length + 1)) := by omega
        rw [if_neg h2, if_neg h3]

theorem Memory.writeBytes_sameOutside (m : Memory) (a : Nat) (bs : List Byte) :
    m.sameOutside (m.writeBytes a bs) a (a + bs.length) := by
  intro b hb
  rw [Memory.readByte_writeBytes, if_neg (by omega)]

theorem Memory.bytesAt_writeBytes (m : Memory) (a : Nat) (bs : List Byte) : bytesAt (m.writeBytes a bs).readByte a bs := by
  intro o ho
  rw [Memory.readByte_writeBytes, if_pos (by omega)]
  simp

/-- Every entry of a written memory is an old one or lies in the written range. -/
theorem Memory.mem_writeBytes {m : Memory} {a : Nat} {bs : List Byte} {c : Host.Cell} (h : c ∈ m.writeBytes a bs) :
    c ∈ m ∨ (a ≤ c.1 ∧ c.1 < a + bs.length) := by
  induction bs generalizing m a with
  | nil => exact .inl h
  | cons v vs ih =>
    rcases ih h with h | h
    · rcases mem_mapPut h with rfl | h
      · right; simp
      · exact .inl h
    · right; simp only [List.length_cons]; omega

/-- What a scramble leaves outside its range (70_reset_and_hazards.md R340). -/
theorem Memory.scramble_sameOutside (m : Memory) (lo hi : Nat) (draw : Nat → Byte) :
    m.sameOutside (m.scramble lo hi draw) lo hi := by
  intro b hb
  unfold Memory.scramble
  split
  · rename_i hlt
    unfold Memory.readByte
    have hmid : mapGet ((List.range' lo (hi - lo)).map fun a => (a, draw a)) b = none := by
      apply mapGet_eq_none
      intro c hc
      simp only [List.mem_map, List.mem_range'_1] at hc
      obtain ⟨a, ha, rfl⟩ := hc
      simp only; omega
    have h1 := mapGet_filter m (fun a => decide (a < lo)) b
    have h2 := mapGet_filter m (fun a => decide (hi ≤ a)) b
    rw [mapGet_append, mapGet_append, hmid, h1, h2]
    rcases hb with hb | hb
    · have : ¬ hi ≤ b := by omega
      simp [hb, this]
    · have : ¬ b < lo := by omega
      simp [hb, this]
  · rfl

theorem Memory.scramble_wf {m : Memory} (h : m.wf) (lo hi : Nat) (draw : Nat → Byte) : (m.scramble lo hi draw).wf := by
  unfold Memory.scramble
  split
  · rename_i hlt
    have hmid : ((List.range' lo (hi - lo)).map fun a => (a, draw a)).Pairwise fun c d => c.1 < d.1 := by
      rw [List.pairwise_map]
      exact List.pairwise_lt_range' (s := lo) (n := hi - lo)
    unfold Memory.wf
    rw [List.pairwise_append, List.pairwise_append]
    refine ⟨⟨List.Pairwise.filter _ h, hmid, ?_⟩, List.Pairwise.filter _ h, ?_⟩
    · intro c hc d hd
      simp only [List.mem_filter, decide_eq_true_eq, List.mem_map, List.mem_range'_1] at hc hd
      obtain ⟨a, ha, rfl⟩ := hd
      simp only; omega
    · intro c hc d hd
      simp only [List.mem_append, List.mem_filter, decide_eq_true_eq, List.mem_map, List.mem_range'_1] at hc hd
      rcases hc with hc | ⟨a, ha, rfl⟩
      · omega
      · simp only; omega
  · exact h

/-- Every entry of a scrambled memory is an old one or lies in the scrambled range. -/
theorem Memory.mem_scramble {m : Memory} {lo hi : Nat} {draw : Nat → Byte} {c : Host.Cell} (h : c ∈ m.scramble lo hi draw) :
    c ∈ m ∨ (lo ≤ c.1 ∧ c.1 < hi) := by
  unfold Memory.scramble at h
  split at h
  · simp only [List.mem_append, List.mem_filter, List.mem_map, List.mem_range'_1] at h
    rcases h with (h | ⟨a, ha, rfl⟩) | h
    · exact .inl h.1
    · right; simp only; omega
    · exact .inl h.1
  · exact .inl h

end Sys2Proof.Machine
end

