-- ==== Sys2Proof/Laws/State.lean ====
section
/-! SUPPORT. One lemma for each field of State under each named update, true by rfl, so that no proof unfolds a record
update. -/

namespace Sys2Proof.Machine

/-! ## State.dropWork -/

@[simp] theorem State.dropWork_memBytes (s : State) : (s.dropWork).memBytes = s.memBytes := rfl
@[simp] theorem State.dropWork_ie (s : State) : (s.dropWork).ie = s.ie := rfl
@[simp] theorem State.dropWork_args (s : State) : (s.dropWork).args = s.args := rfl
@[simp] theorem State.dropWork_engine (s : State) : (s.dropWork).engine = s.engine := rfl
@[simp] theorem State.dropWork_done (s : State) : (s.dropWork).done = s.done := rfl
@[simp] theorem State.dropWork_ovr (s : State) : (s.dropWork).ovr = s.ovr := rfl
@[simp] theorem State.dropWork_lastCmd (s : State) : (s.dropWork).lastCmd = s.lastCmd := rfl
@[simp] theorem State.dropWork_record (s : State) : (s.dropWork).record = s.record := rfl
@[simp] theorem State.dropWork_mem (s : State) : (s.dropWork).mem = s.mem := rfl
@[simp] theorem State.dropWork_work (s : State) : (s.dropWork).work = Config.unspecifiedWork s.draws := rfl
@[simp] theorem State.dropWork_csrRdata (s : State) : (s.dropWork).csrRdata = s.csrRdata := rfl
@[simp] theorem State.dropWork_memRdata (s : State) : (s.dropWork).memRdata = s.memRdata := rfl
@[simp] theorem State.dropWork_inputs (s : State) : (s.dropWork).inputs = s.inputs := rfl
@[simp] theorem State.dropWork_draws (s : State) : (s.dropWork).draws = s.draws + 1 := rfl

/-! ## State.clearRecord -/

@[simp] theorem State.clearRecord_memBytes (s : State) : (s.clearRecord).memBytes = s.memBytes := rfl
@[simp] theorem State.clearRecord_ie (s : State) : (s.clearRecord).ie = s.ie := rfl
@[simp] theorem State.clearRecord_args (s : State) : (s.clearRecord).args = s.args := rfl
@[simp] theorem State.clearRecord_engine (s : State) : (s.clearRecord).engine = s.engine := rfl
@[simp] theorem State.clearRecord_done (s : State) : (s.clearRecord).done = s.done := rfl
@[simp] theorem State.clearRecord_ovr (s : State) : (s.clearRecord).ovr = s.ovr := rfl
@[simp] theorem State.clearRecord_lastCmd (s : State) : (s.clearRecord).lastCmd = s.lastCmd := rfl
@[simp] theorem State.clearRecord_record (s : State) : (s.clearRecord).record = Record.cleared := rfl
@[simp] theorem State.clearRecord_mem (s : State) : (s.clearRecord).mem = s.mem := rfl
@[simp] theorem State.clearRecord_work (s : State) : (s.clearRecord).work = s.work := rfl
@[simp] theorem State.clearRecord_csrRdata (s : State) : (s.clearRecord).csrRdata = s.csrRdata := rfl
@[simp] theorem State.clearRecord_memRdata (s : State) : (s.clearRecord).memRdata = s.memRdata := rfl
@[simp] theorem State.clearRecord_inputs (s : State) : (s.clearRecord).inputs = s.inputs := rfl
@[simp] theorem State.clearRecord_draws (s : State) : (s.clearRecord).draws = s.draws := rfl

/-! ## State.acceptWord -/

@[simp] theorem State.acceptWord_memBytes (s : State) (op : BitVec 8) : (s.acceptWord op).memBytes = s.memBytes := rfl
@[simp] theorem State.acceptWord_ie (s : State) (op : BitVec 8) : (s.acceptWord op).ie = s.ie := rfl
@[simp] theorem State.acceptWord_args (s : State) (op : BitVec 8) : (s.acceptWord op).args = s.args := rfl
@[simp] theorem State.acceptWord_engine (s : State) (op : BitVec 8) : (s.acceptWord op).engine = s.engine := rfl
@[simp] theorem State.acceptWord_done (s : State) (op : BitVec 8) : (s.acceptWord op).done = s.done := rfl
@[simp] theorem State.acceptWord_ovr (s : State) (op : BitVec 8) : (s.acceptWord op).ovr = s.ovr := rfl
@[simp] theorem State.acceptWord_lastCmd (s : State) (op : BitVec 8) : (s.acceptWord op).lastCmd = op := rfl
@[simp] theorem State.acceptWord_record (s : State) (op : BitVec 8) : (s.acceptWord op).record = s.record := rfl
@[simp] theorem State.acceptWord_mem (s : State) (op : BitVec 8) : (s.acceptWord op).mem = s.mem := rfl
@[simp] theorem State.acceptWord_work (s : State) (op : BitVec 8) : (s.acceptWord op).work = s.work := rfl
@[simp] theorem State.acceptWord_csrRdata (s : State) (op : BitVec 8) : (s.acceptWord op).csrRdata = s.csrRdata := rfl
@[simp] theorem State.acceptWord_memRdata (s : State) (op : BitVec 8) : (s.acceptWord op).memRdata = s.memRdata := rfl
@[simp] theorem State.acceptWord_inputs (s : State) (op : BitVec 8) : (s.acceptWord op).inputs = s.inputs := rfl
@[simp] theorem State.acceptWord_draws (s : State) (op : BitVec 8) : (s.acceptWord op).draws = s.draws := rfl

/-! ## State.setDone -/

@[simp] theorem State.setDone_memBytes (s : State) : (s.setDone).memBytes = s.memBytes := rfl
@[simp] theorem State.setDone_ie (s : State) : (s.setDone).ie = s.ie := rfl
@[simp] theorem State.setDone_args (s : State) : (s.setDone).args = s.args := rfl
@[simp] theorem State.setDone_engine (s : State) : (s.setDone).engine = s.engine := rfl
@[simp] theorem State.setDone_done (s : State) : (s.setDone).done = true := rfl
@[simp] theorem State.setDone_ovr (s : State) : (s.setDone).ovr = s.ovr := rfl
@[simp] theorem State.setDone_lastCmd (s : State) : (s.setDone).lastCmd = s.lastCmd := rfl
@[simp] theorem State.setDone_record (s : State) : (s.setDone).record = s.record := rfl
@[simp] theorem State.setDone_mem (s : State) : (s.setDone).mem = s.mem := rfl
@[simp] theorem State.setDone_work (s : State) : (s.setDone).work = s.work := rfl
@[simp] theorem State.setDone_csrRdata (s : State) : (s.setDone).csrRdata = s.csrRdata := rfl
@[simp] theorem State.setDone_memRdata (s : State) : (s.setDone).memRdata = s.memRdata := rfl
@[simp] theorem State.setDone_inputs (s : State) : (s.setDone).inputs = s.inputs := rfl
@[simp] theorem State.setDone_draws (s : State) : (s.setDone).draws = s.draws := rfl

/-! ## State.overrun -/

@[simp] theorem State.overrun_memBytes (s : State) : (s.overrun).memBytes = s.memBytes := rfl
@[simp] theorem State.overrun_ie (s : State) : (s.overrun).ie = s.ie := rfl
@[simp] theorem State.overrun_args (s : State) : (s.overrun).args = s.args := rfl
@[simp] theorem State.overrun_engine (s : State) : (s.overrun).engine = s.engine := rfl
@[simp] theorem State.overrun_done (s : State) : (s.overrun).done = s.done := rfl
@[simp] theorem State.overrun_ovr (s : State) : (s.overrun).ovr = true := rfl
@[simp] theorem State.overrun_lastCmd (s : State) : (s.overrun).lastCmd = s.lastCmd := rfl
@[simp] theorem State.overrun_record (s : State) : (s.overrun).record = s.record := rfl
@[simp] theorem State.overrun_mem (s : State) : (s.overrun).mem = s.mem := rfl
@[simp] theorem State.overrun_work (s : State) : (s.overrun).work = s.work := rfl
@[simp] theorem State.overrun_csrRdata (s : State) : (s.overrun).csrRdata = s.csrRdata := rfl
@[simp] theorem State.overrun_memRdata (s : State) : (s.overrun).memRdata = s.memRdata := rfl
@[simp] theorem State.overrun_inputs (s : State) : (s.overrun).inputs = s.inputs := rfl
@[simp] theorem State.overrun_draws (s : State) : (s.overrun).draws = s.draws := rfl

/-! ## State.issue -/

@[simp] theorem State.issue_memBytes (s : State) (cmd : LongCmd) (op : BitVec 8) : (s.issue cmd op).memBytes = s.memBytes := rfl
@[simp] theorem State.issue_ie (s : State) (cmd : LongCmd) (op : BitVec 8) : (s.issue cmd op).ie = s.ie := rfl
@[simp] theorem State.issue_args (s : State) (cmd : LongCmd) (op : BitVec 8) : (s.issue cmd op).args = s.args := rfl
@[simp] theorem State.issue_engine (s : State) (cmd : LongCmd) (op : BitVec 8) : (s.issue cmd op).engine = .busy cmd s.args := rfl
@[simp] theorem State.issue_done (s : State) (cmd : LongCmd) (op : BitVec 8) : (s.issue cmd op).done = false := rfl
@[simp] theorem State.issue_ovr (s : State) (cmd : LongCmd) (op : BitVec 8) : (s.issue cmd op).ovr = s.ovr := rfl
@[simp] theorem State.issue_lastCmd (s : State) (cmd : LongCmd) (op : BitVec 8) : (s.issue cmd op).lastCmd = op := rfl
@[simp] theorem State.issue_record (s : State) (cmd : LongCmd) (op : BitVec 8) : (s.issue cmd op).record = Record.cleared := rfl
@[simp] theorem State.issue_mem (s : State) (cmd : LongCmd) (op : BitVec 8) : (s.issue cmd op).mem = s.mem := rfl
@[simp] theorem State.issue_work (s : State) (cmd : LongCmd) (op : BitVec 8) : (s.issue cmd op).work = s.work := rfl
@[simp] theorem State.issue_csrRdata (s : State) (cmd : LongCmd) (op : BitVec 8) : (s.issue cmd op).csrRdata = s.csrRdata := rfl
@[simp] theorem State.issue_memRdata (s : State) (cmd : LongCmd) (op : BitVec 8) : (s.issue cmd op).memRdata = s.memRdata := rfl
@[simp] theorem State.issue_inputs (s : State) (cmd : LongCmd) (op : BitVec 8) : (s.issue cmd op).inputs = s.inputs := rfl
@[simp] theorem State.issue_draws (s : State) (cmd : LongCmd) (op : BitVec 8) : (s.issue cmd op).draws = s.draws := rfl

/-! ## State.complete -/

@[simp] theorem State.complete_memBytes (s : State) : (s.complete).memBytes = s.memBytes := rfl
@[simp] theorem State.complete_ie (s : State) : (s.complete).ie = s.ie := rfl
@[simp] theorem State.complete_args (s : State) : (s.complete).args = s.args := rfl
@[simp] theorem State.complete_engine (s : State) : (s.complete).engine = .idle := rfl
@[simp] theorem State.complete_done (s : State) : (s.complete).done = true := rfl
@[simp] theorem State.complete_ovr (s : State) : (s.complete).ovr = s.ovr := rfl
@[simp] theorem State.complete_lastCmd (s : State) : (s.complete).lastCmd = s.lastCmd := rfl
@[simp] theorem State.complete_record (s : State) : (s.complete).record = s.record := rfl
@[simp] theorem State.complete_mem (s : State) : (s.complete).mem = s.mem := rfl
@[simp] theorem State.complete_work (s : State) : (s.complete).work = s.work := rfl
@[simp] theorem State.complete_csrRdata (s : State) : (s.complete).csrRdata = s.csrRdata := rfl
@[simp] theorem State.complete_memRdata (s : State) : (s.complete).memRdata = s.memRdata := rfl
@[simp] theorem State.complete_inputs (s : State) : (s.complete).inputs = s.inputs := rfl
@[simp] theorem State.complete_draws (s : State) : (s.complete).draws = s.draws := rfl

/-! ## State.report -/

@[simp] theorem State.report_memBytes (s : State) (r : Raised) : (s.report r).memBytes = s.memBytes := rfl
@[simp] theorem State.report_ie (s : State) (r : Raised) : (s.report r).ie = s.ie := rfl
@[simp] theorem State.report_args (s : State) (r : Raised) : (s.report r).args = s.args := rfl
@[simp] theorem State.report_engine (s : State) (r : Raised) : (s.report r).engine = .idle := rfl
@[simp] theorem State.report_done (s : State) (r : Raised) : (s.report r).done = true := rfl
@[simp] theorem State.report_ovr (s : State) (r : Raised) : (s.report r).ovr = s.ovr := rfl
@[simp] theorem State.report_lastCmd (s : State) (r : Raised) : (s.report r).lastCmd = s.lastCmd := rfl
@[simp] theorem State.report_record (s : State) (r : Raised) : (s.report r).record = { s.record with
      errCode := r.kind, errSub := BitVec.ofNat 8 r.sub, errIndex := BitVec.ofNat 64 r.index,
      errValue := BitVec.ofNat 32 r.value } := rfl
@[simp] theorem State.report_mem (s : State) (r : Raised) : (s.report r).mem = s.mem := rfl
@[simp] theorem State.report_work (s : State) (r : Raised) : (s.report r).work = s.work := rfl
@[simp] theorem State.report_csrRdata (s : State) (r : Raised) : (s.report r).csrRdata = s.csrRdata := rfl
@[simp] theorem State.report_memRdata (s : State) (r : Raised) : (s.report r).memRdata = s.memRdata := rfl
@[simp] theorem State.report_inputs (s : State) (r : Raised) : (s.report r).inputs = s.inputs := rfl
@[simp] theorem State.report_draws (s : State) (r : Raised) : (s.report r).draws = s.draws := rfl

/-! ## State.acknowledge -/

@[simp] theorem State.acknowledge_memBytes (s : State) (w : Word) : (s.acknowledge w).memBytes = s.memBytes := rfl
@[simp] theorem State.acknowledge_ie (s : State) (w : Word) : (s.acknowledge w).ie = s.ie := rfl
@[simp] theorem State.acknowledge_args (s : State) (w : Word) : (s.acknowledge w).args = s.args := rfl
@[simp] theorem State.acknowledge_engine (s : State) (w : Word) : (s.acknowledge w).engine = s.engine := rfl
@[simp] theorem State.acknowledge_done (s : State) (w : Word) : (s.acknowledge w).done = (s.done && !w.getLsbD 1) := rfl
@[simp] theorem State.acknowledge_ovr (s : State) (w : Word) : (s.acknowledge w).ovr = (s.ovr && !w.getLsbD 4) := rfl
@[simp] theorem State.acknowledge_lastCmd (s : State) (w : Word) : (s.acknowledge w).lastCmd = s.lastCmd := rfl
@[simp] theorem State.acknowledge_record (s : State) (w : Word) : (s.acknowledge w).record = s.record := rfl
@[simp] theorem State.acknowledge_mem (s : State) (w : Word) : (s.acknowledge w).mem = s.mem := rfl
@[simp] theorem State.acknowledge_work (s : State) (w : Word) : (s.acknowledge w).work = s.work := rfl
@[simp] theorem State.acknowledge_csrRdata (s : State) (w : Word) : (s.acknowledge w).csrRdata = s.csrRdata := rfl
@[simp] theorem State.acknowledge_memRdata (s : State) (w : Word) : (s.acknowledge w).memRdata = s.memRdata := rfl
@[simp] theorem State.acknowledge_inputs (s : State) (w : Word) : (s.acknowledge w).inputs = s.inputs := rfl
@[simp] theorem State.acknowledge_draws (s : State) (w : Word) : (s.acknowledge w).draws = s.draws := rfl

/-! ## State.succeed -/

@[simp] theorem State.succeed_memBytes (s : State) (x : Args) (r : CommandResult) : (s.succeed x r).memBytes = s.memBytes := rfl
@[simp] theorem State.succeed_ie (s : State) (x : Args) (r : CommandResult) : (s.succeed x r).ie = s.ie := rfl
@[simp] theorem State.succeed_args (s : State) (x : Args) (r : CommandResult) : (s.succeed x r).args = s.args := rfl
@[simp] theorem State.succeed_engine (s : State) (x : Args) (r : CommandResult) : (s.succeed x r).engine = .idle := rfl
@[simp] theorem State.succeed_done (s : State) (x : Args) (r : CommandResult) : (s.succeed x r).done = true := rfl
@[simp] theorem State.succeed_ovr (s : State) (x : Args) (r : CommandResult) : (s.succeed x r).ovr = s.ovr := rfl
@[simp] theorem State.succeed_lastCmd (s : State) (x : Args) (r : CommandResult) : (s.succeed x r).lastCmd = s.lastCmd := rfl
@[simp] theorem State.succeed_record (s : State) (x : Args) (r : CommandResult) : (s.succeed x r).record = { s.record with
      empty := decide (r.resultCount = 0), resultLen := BitVec.ofNat 32 r.resultLen,
      resultCount := BitVec.ofNat 64 r.resultCount, payloadBits := BitVec.ofNat 64 r.payloadBits,
      tableEntries := BitVec.ofNat 32 r.tableEntries } := rfl
@[simp] theorem State.succeed_mem (s : State) (x : Args) (r : CommandResult) : (s.succeed x r).mem = s.mem.writeBytes x.dstAddr.toNat r.bytes := rfl
@[simp] theorem State.succeed_work (s : State) (x : Args) (r : CommandResult) : (s.succeed x r).work = s.work := rfl
@[simp] theorem State.succeed_csrRdata (s : State) (x : Args) (r : CommandResult) : (s.succeed x r).csrRdata = s.csrRdata := rfl
@[simp] theorem State.succeed_memRdata (s : State) (x : Args) (r : CommandResult) : (s.succeed x r).memRdata = s.memRdata := rfl
@[simp] theorem State.succeed_inputs (s : State) (x : Args) (r : CommandResult) : (s.succeed x r).inputs = s.inputs := rfl
@[simp] theorem State.succeed_draws (s : State) (x : Args) (r : CommandResult) : (s.succeed x r).draws = s.draws := rfl

/-! ## State.resetRegs -/

@[simp] theorem State.resetRegs_memBytes (s : State) : (s.resetRegs).memBytes = s.memBytes := rfl
@[simp] theorem State.resetRegs_ie (s : State) : (s.resetRegs).ie = false := rfl
@[simp] theorem State.resetRegs_args (s : State) : (s.resetRegs).args = Args.atReset := rfl
@[simp] theorem State.resetRegs_engine (s : State) : (s.resetRegs).engine = .idle := rfl
@[simp] theorem State.resetRegs_done (s : State) : (s.resetRegs).done = false := rfl
@[simp] theorem State.resetRegs_ovr (s : State) : (s.resetRegs).ovr = false := rfl
@[simp] theorem State.resetRegs_lastCmd (s : State) : (s.resetRegs).lastCmd = 0 := rfl
@[simp] theorem State.resetRegs_record (s : State) : (s.resetRegs).record = Record.cleared := rfl
@[simp] theorem State.resetRegs_mem (s : State) : (s.resetRegs).mem = s.mem := rfl
@[simp] theorem State.resetRegs_work (s : State) : (s.resetRegs).work = Config.unspecifiedWork s.draws := rfl
@[simp] theorem State.resetRegs_csrRdata (s : State) : (s.resetRegs).csrRdata = s.csrRdata := rfl
@[simp] theorem State.resetRegs_memRdata (s : State) : (s.resetRegs).memRdata = s.memRdata := rfl
@[simp] theorem State.resetRegs_inputs (s : State) : (s.resetRegs).inputs = s.inputs := rfl
@[simp] theorem State.resetRegs_draws (s : State) : (s.resetRegs).draws = s.draws + 1 := rfl

/-! ## State.pushCommand -/

@[simp] theorem State.pushCommand_memBytes (s : State) (w : Word) : (s.pushCommand w).memBytes = s.memBytes := rfl
@[simp] theorem State.pushCommand_ie (s : State) (w : Word) : (s.pushCommand w).ie = s.ie := rfl
@[simp] theorem State.pushCommand_args (s : State) (w : Word) : (s.pushCommand w).args = s.args := rfl
@[simp] theorem State.pushCommand_engine (s : State) (w : Word) : (s.pushCommand w).engine = s.engine := rfl
@[simp] theorem State.pushCommand_done (s : State) (w : Word) : (s.pushCommand w).done = s.done := rfl
@[simp] theorem State.pushCommand_ovr (s : State) (w : Word) : (s.pushCommand w).ovr = s.ovr := rfl
@[simp] theorem State.pushCommand_lastCmd (s : State) (w : Word) : (s.pushCommand w).lastCmd = s.lastCmd := rfl
@[simp] theorem State.pushCommand_record (s : State) (w : Word) : (s.pushCommand w).record = s.record := rfl
@[simp] theorem State.pushCommand_mem (s : State) (w : Word) : (s.pushCommand w).mem = s.mem := rfl
@[simp] theorem State.pushCommand_work (s : State) (w : Word) : (s.pushCommand w).work = s.work := rfl
@[simp] theorem State.pushCommand_csrRdata (s : State) (w : Word) : (s.pushCommand w).csrRdata = s.csrRdata := rfl
@[simp] theorem State.pushCommand_memRdata (s : State) (w : Word) : (s.pushCommand w).memRdata = s.memRdata := rfl
@[simp] theorem State.pushCommand_inputs (s : State) (w : Word) : (s.pushCommand w).inputs = .csrWrite (csrOffset .cmd) w :: s.inputs := rfl
@[simp] theorem State.pushCommand_draws (s : State) (w : Word) : (s.pushCommand w).draws = s.draws := rfl

/-! ## State.hardReset -/

@[simp] theorem State.hardReset_memBytes (s : State) : s.hardReset.memBytes = s.memBytes := by
  unfold State.hardReset; split <;> rfl
@[simp] theorem State.hardReset_ie (s : State) : s.hardReset.ie = false := by
  unfold State.hardReset; split <;> rfl
@[simp] theorem State.hardReset_args (s : State) : s.hardReset.args = Args.atReset := by
  unfold State.hardReset; split <;> rfl
@[simp] theorem State.hardReset_engine (s : State) : s.hardReset.engine = .idle := by
  unfold State.hardReset; split <;> rfl
@[simp] theorem State.hardReset_done (s : State) : s.hardReset.done = false := by
  unfold State.hardReset; split <;> rfl
@[simp] theorem State.hardReset_ovr (s : State) : s.hardReset.ovr = false := by
  unfold State.hardReset; split <;> rfl
@[simp] theorem State.hardReset_lastCmd (s : State) : s.hardReset.lastCmd = 0 := by
  unfold State.hardReset; split <;> rfl
@[simp] theorem State.hardReset_record (s : State) : s.hardReset.record = Record.cleared := by
  unfold State.hardReset; split <;> rfl
@[simp] theorem State.hardReset_work (s : State) : s.hardReset.work = Config.unspecifiedWork s.draws := by
  unfold State.hardReset; split <;> rfl
@[simp] theorem State.hardReset_csrRdata (s : State) : s.hardReset.csrRdata = s.csrRdata := by
  unfold State.hardReset; split <;> rfl
@[simp] theorem State.hardReset_memRdata (s : State) : s.hardReset.memRdata = s.memRdata := by
  unfold State.hardReset; split <;> rfl
@[simp] theorem State.hardReset_inputs (s : State) : s.hardReset.inputs = s.inputs := by
  unfold State.hardReset; split <;> rfl
@[simp] theorem State.hardReset_draws (s : State) : s.hardReset.draws = s.draws + 1 := by
  unfold State.hardReset; split <;> rfl

theorem State.hardReset_mem_idle (s : State) (h : s.engine = .idle) : s.hardReset.mem = s.mem := by
  simp [State.hardReset, h]

theorem State.hardReset_mem_busy (s : State) {cmd : LongCmd} {x : Args} (h : s.engine = .busy cmd x) :
    s.hardReset.mem = s.mem.scramble x.dstAddr.toNat (min (x.dstAddr.toNat + x.dstCap.toNat) s.memBytes)
      (Config.abandonedByte s.draws) := by
  simp [State.hardReset, h]

/-! ## The engine and BUSY -/

theorem State.busy_eq_false_iff (s : State) : s.busy = false ↔ s.engine = .idle := by
  unfold State.busy; split <;> simp_all

theorem State.busy_eq_true_iff (s : State) : s.busy = true ↔ ∃ cmd x, s.engine = .busy cmd x := by
  unfold State.busy; split <;> simp_all

end Sys2Proof.Machine
end

