-- ==== Sys2Proof/Laws/Ops.lean ====
section
/-! SUPPORT. What each shared operation can do, said once: raising and checking, dispatch, completion, the CSR and MEM
ports, the engine's step and the events. -/

namespace Sys2Proof.Machine

/-! ## Raising and checking -/

theorem raiseIf_pos {bad : Prop} [Decidable bad] (h : bad) (k : ErrorKind) (s i v : Nat) :
    raiseIf bad k s i v = raise k s i v := by simp [raiseIf, h]

theorem raiseIf_neg {bad : Prop} [Decidable bad] (h : ¬ bad) (k : ErrorKind) (s i v : Nat) :
    raiseIf bad k s i v = .ok () := by simp [raiseIf, h]

/-- A check passes exactly where it finds nothing bad. -/
theorem raiseIf_eq_ok {bad : Prop} [Decidable bad] {k : ErrorKind} {s i v : Nat} {u : Unit} :
    raiseIf bad k s i v = .ok u ↔ ¬ bad := by
  by_cases h : bad <;> simp [raiseIf, raise, h]

/-- A check raises only what it names. -/
theorem raiseIf_eq_error {bad : Prop} [Decidable bad] {k : ErrorKind} {s i v : Nat} {e : Stop} :
    raiseIf bad k s i v = .error e ↔ bad ∧ e = .raised ⟨k, s, i, v⟩ := by
  by_cases h : bad <;> simp [raiseIf, raise, h, eq_comm]

@[simp] theorem raise_ne_ok {α : Type} (k : ErrorKind) (s i v : Nat) (a : α) : raise k s i v ≠ .ok a := by
  simp [raise]

@[simp] theorem raise_bind {α β : Type} (k : ErrorKind) (s i v : Nat) (f : α → Except Stop β) :
    (raise k s i v >>= f) = raise k s i v := rfl

@[simp] theorem ok_bind {α β : Type} (a : α) (f : α → Except Stop β) : ((Except.ok a : Except Stop α) >>= f) = f a := rfl

@[simp] theorem error_bind {α β : Type} (e : Stop) (f : α → Except Stop β) :
    ((Except.error e : Except Stop α) >>= f) = .error e := rfl

/-- A computation that succeeds has a first part that succeeds. -/
theorem bind_eq_ok {α β : Type} {x : Except Stop α} {f : α → Except Stop β} {b : β} :
    (x >>= f) = .ok b ↔ ∃ a, x = .ok a ∧ f a = .ok b := by
  cases x <;> simp

/-- A computation that stops does so in its first part or in its second. -/
theorem bind_eq_error {α β : Type} {x : Except Stop α} {f : α → Except Stop β} {e : Stop} :
    (x >>= f) = .error e ↔ x = .error e ∨ ∃ a, x = .ok a ∧ f a = .error e := by
  cases x <;> simp

/-- When REGION_CHECK passes (60_exceptions.md R318). -/
theorem regionCheck_eq_ok {m sa sl da dc : Nat} {u : Unit} :
    regionCheck m sa sl da dc = .ok u ↔
      sa + sl ≤ m ∧ da + dc ≤ m ∧ ¬ (0 < sl ∧ 0 < dc ∧ sa < da + dc ∧ da < sa + sl) := by
  simp [regionCheck, bind_eq_ok, raiseIf_eq_ok]

/-- The regions of passed checks share no byte. -/
theorem regionsOk_of_regionCheck {m : Nat} {x : Args} {u : Unit} (h : regionCheck m x.sa x.sl x.da x.dc = .ok u) :
    RegionsOk m x := by
  obtain ⟨h1, h2, h3⟩ := regionCheck_eq_ok.1 h
  refine ⟨h1, h2, ?_⟩
  rintro a ⟨ha, hb⟩
  simp only [inRegion, Bool.and_eq_true, decide_eq_true_eq] at ha hb
  omega

theorem regionCheck_of_regionsOk {m : Nat} {x : Args} (h : RegionsOk m x) :
    regionCheck m x.sa x.sl x.da x.dc = .ok () := by
  refine regionCheck_eq_ok.2 ⟨h.source, h.destination, ?_⟩
  rintro ⟨h1, h2, h3, h4⟩
  refine h.disjoint (max x.sa x.da) ?_
  simp only [inRegion, Bool.and_eq_true, decide_eq_true_eq]
  omega

/-! ## Dispatch and completion -/

theorem State.busy_iff (s : State) : s.busy = true ↔ ∃ cmd x, s.engine = .busy cmd x := by
  unfold State.busy; cases s.engine <;> simp

theorem State.not_busy_iff (s : State) : s.busy = false ↔ s.engine = .idle := by
  unfold State.busy; cases s.engine <;> simp

/-- While IDLE a command word has its effect (47_control_commands.md R295). -/
theorem dispatch_idle {s : State} (h : s.engine = .idle) (f : State → State) : dispatch f s = .next (f s) := by
  simp [dispatch, h]

/-- While BUSY a command word is dropped (47_control_commands.md R297). -/
theorem dispatch_busy {s : State} (h : s.busy = true) (f : State → State) : dispatch f s = .next s.overrun := by
  obtain ⟨cmd, x, hx⟩ := s.busy_iff.1 h
  simp [dispatch, hx]

/-- How a completion step can end: success, a report, or a point that no input reaches. -/
theorem finish_eq_next {x : Args} {r : Except Stop CommandResult} {s t : State} (h : finish x r s = .next t) :
    (∃ out, r = .ok out ∧ t = (s.succeed x out).dropWork) ∨ (∃ e, r = .error (.raised e) ∧ t = (s.report e).dropWork) := by
  unfold finish at h
  split at h
  · cases h; exact .inl ⟨_, rfl, rfl⟩
  · cases h; exact .inr ⟨_, rfl, rfl⟩
  · cases h

/-- The computation of a running command (45_encoder.md R221, 46_decoder.md R251). -/
def State.commandResult (s : State) (cmd : LongCmd) (x : Args) : Except Stop CommandResult :=
  match cmd with
  | .encode => encodeRun s.memBytes s.mem.readByte x s.work
  | .decode => decodeRun s.memBytes s.mem.readByte x s.work

theorem engineStep_idle {s : State} (h : s.engine = .idle) : engineStep s = .next s := by simp [engineStep, h]

theorem engineStep_busy {s : State} {cmd : LongCmd} {x : Args} (h : s.engine = .busy cmd x) :
    engineStep s = finish x (s.commandResult cmd x) s := by
  cases cmd <;> simp [engineStep, h, completeEncode, completeDecode, State.commandResult]

/-- Everything the engine's step can do when it answers a next state (20_memory.md R70). -/
theorem engineStep_eq_next {s t : State} (h : engineStep s = .next t) :
    (s.engine = .idle ∧ t = s) ∨
    (∃ cmd x, s.engine = .busy cmd x ∧
      ((∃ out, s.commandResult cmd x = .ok out ∧ t = (s.succeed x out).dropWork) ∨
        (∃ e, s.commandResult cmd x = .error (.raised e) ∧ t = (s.report e).dropWork))) := by
  cases he : s.engine with
  | idle => rw [engineStep_idle he] at h; cases h; exact .inl ⟨rfl, rfl⟩
  | busy cmd x => rw [engineStep_busy he] at h; exact .inr ⟨cmd, x, rfl, finish_eq_next h⟩

/-- A completed command has succeeded or reported: the engine is IDLE, DONE is set, and nothing else but the record, MEM
and the working state differs. -/
theorem SameForCompletion.succeed (s : State) (x : Args) (out : CommandResult) :
    SameForCompletion s (s.succeed x out).dropWork := by constructor <;> rfl

theorem SameForCompletion.report (s : State) (e : Raised) : SameForCompletion s (s.report e).dropWork := by
  constructor <;> rfl

/-- A running command whose computation raises reports it (60_exceptions.md R313). -/
theorem State.reports_of_raise {s : State} {cmd : LongCmd} {x : Args} {e : Raised} (hb : s.engine = .busy cmd x)
    (h : s.commandResult cmd x = .error (.raised e)) : s.reports e :=
  ⟨(s.report e).dropWork, by rw [engineStep_busy hb, h]; rfl, rfl, rfl, rfl, .report s e, rfl⟩

/-- A running command whose computation succeeds delivers its output (20_memory.md R66). -/
theorem State.delivers_of_ok {s : State} {cmd : LongCmd} {x : Args} {out : CommandResult} (hb : s.engine = .busy cmd x)
    (h : s.commandResult cmd x = .ok out) (hl : out.resultLen = out.bytes.length) :
    s.delivers x.da out.bytes out.resultCount out.payloadBits out.tableEntries := by
  refine ⟨(s.succeed x out).dropWork, by rw [engineStep_busy hb, h]; rfl, rfl, rfl, .succeed s x out,
    Memory.bytesAt_writeBytes _ _ _, Memory.writeBytes_sameOutside _ _ _, ?_⟩
  rw [← hl]; rfl

/-! ## The ports -/

/-- The CSR a byte offset reaches, from its number (10_state.md R22, R23). -/
theorem csrAt_of_offset {off : BitVec 12} {n : CsrName} (h : (csrOffset n).toNat = off.toNat / 4 * 4) :
    csrAt off = some n := by
  have hinj : ∀ a b, (csrOffset a).toNat = (csrOffset b).toNat → a = b := by intro a b; cases a <;> cases b <;> decide
  cases hf : csrAt off with
  | none =>
    have := List.find?_eq_none.1 hf n (by cases n <;> decide)
    simp [h] at this
  | some m =>
    have hm := List.find?_some hf
    simp only [beq_iff_eq] at hm
    rw [hinj m n (hm.trans h.symm)]

theorem offset_of_csrAt {off : BitVec 12} {n : CsrName} (h : csrAt off = some n) :
    (csrOffset n).toNat = off.toNat / 4 * 4 := by simpa using List.find?_some h

@[simp] theorem csrAt_csrOffset (n : CsrName) : csrAt (csrOffset n) = some n :=
  csrAt_of_offset (by cases n <;> decide)

/-- The meaning of every command word is one dispatch (47_control_commands.md R295). -/
theorem exec_eq_dispatch (i : Instr) : ∃ f, ∀ s, exec i s = dispatch f s := by
  cases i <;> exact ⟨_, fun _ => rfl⟩

/-- A command word never faults and is never refused. -/
theorem exec_next (i : Instr) (s : State) : ∃ t, exec i s = .next t := by
  obtain ⟨f, hf⟩ := exec_eq_dispatch i
  rw [hf]
  unfold dispatch
  split <;> exact ⟨_, rfl⟩

theorem cmdWrite_busy {s : State} (h : s.busy = true) (w : Word) : cmdWrite w s = .next s.overrun := by
  unfold cmdWrite
  split
  · rename_i i _
    obtain ⟨f, hf⟩ := exec_eq_dispatch i
    rw [hf, dispatch_busy h]
  · exact dispatch_busy h _

theorem cmdWrite_next (w : Word) (s : State) : ∃ t, cmdWrite w s = .next t := by
  unfold cmdWrite
  split
  · exact exec_next _ s
  · unfold illegalWord dispatch; split <;> exact ⟨_, rfl⟩

/-! ## Steps -/

theorem step_nil {s : State} (h : s.inputs = []) : step s = engineStep s := by simp [step, takeEvent, h]

theorem step_cons {s : State} {e : Event} {rest : List Event} (h : s.inputs = e :: rest) :
    step s = runEvent e { s with inputs := rest } := by simp [step, takeEvent, h]

/-- The working state a command is given does not matter (10_state.md R50). -/
theorem encodeRun_work (m : Nat) (rd : Nat → Byte) (x : Args) (w w' : Work) :
    encodeRun m rd x w = encodeRun m rd x w' := rfl

theorem decodeRun_work (m : Nat) (rd : Nat → Byte) (x : Args) (w w' : Work) :
    decodeRun m rd x w = decodeRun m rd x w' := rfl

/-! ## Tables, queue and trie -/

/-- CODES after one code is set. -/
theorem codeOf_mapPut (c : Codes) (s r : Nat) (b : Bits) :
    codeOf (mapPut c s b) r = if s = r then b else codeOf c r := by
  unfold codeOf; rw [mapGet_mapPut]; split <;> rfl

theorem pqLeast_eq_none {es : List QEntry} : pqLeast es = none ↔ es = [] := by
  cases es with
  | nil => simp [pqLeast]
  | cons e es =>
    simp only [pqLeast]
    split
    · simp
    · split <;> simp

/-- The least entry is one of the entries. -/
theorem pqLeast_mem {es : List QEntry} {e : QEntry} (h : pqLeast es = some e) : e ∈ es := by
  induction es generalizing e with
  | nil => cases h
  | cons d es ih =>
    simp only [pqLeast] at h
    split at h
    · cases h; simp
    · rename_i m hm
      split at h
      · cases h; exact List.mem_cons_of_mem _ (ih hm)
      · cases h; simp

/-- The two steps a child can take, after it is set (43_code_table.md R181). -/
theorem child_setChild_self {arena : List Node} {i v w : Nat} {l r : Option Nat} {b : Bool}
    (h : arena[i]? = some (.internal l r w)) : child (setChild arena i b v) i b = .ok (some v) := by
  have hi : i < arena.length := (List.getElem?_eq_some_iff.1 h).1
  unfold setChild
  rw [h]
  cases b <;> simp [child, hi]

theorem setChild_length (arena : List Node) (i : Nat) (b : Bool) (v : Nat) :
    (setChild arena i b v).length = arena.length := by
  unfold setChild; split <;> simp

/-! ## Bit streams -/

@[simp] theorem bwPut_pos (w : BitWriter) (b : Bool) : (bwPut w b).pos = w.pos + 1 := rfl

theorem bwPutSeq_pos (w : BitWriter) (c : Bits) : (bwPutSeq w c).pos = w.pos + c.length := by
  induction c generalizing w with
  | nil => rfl
  | cons b c ih =>
    show (bwPutSeq (bwPut w b) c).pos = _
    rw [ih, bwPut_pos, List.length_cons]; omega

theorem bwPutSeq_append (w : BitWriter) (c d : Bits) : bwPutSeq w (c ++ d) = bwPutSeq (bwPutSeq w c) d := by
  simp [bwPutSeq, List.foldl_append]

/-- The packing pass writes the codes' bits one after another (45_encoder.md R230). -/
theorem packPass_eq (c : Codes) (S : List Nat) (w : BitWriter) : packPass c S w = bwPutSeq w (S.flatMap (codeOf c)) := by
  induction S generalizing w with
  | nil => rfl
  | cons s S ih => simp only [packPass, ih, List.flatMap_cons, bwPutSeq_append]

end Sys2Proof.Machine
end

