-- ==== Sys2Proof/Laws/PerInstr.lean ====
section
/-! SUPPORT. What holds of every command as syntax, one lemma for each constructor. -/

namespace Sys2Proof.Laws.Encoding

/-- A command is well formed, its word has RSVD zero and its opcode below, and the word decodes to it, also when it is
numbered as the opcode table numbers it (30_encoding.md R80, R81, R84). -/
def Statement (i : Instr) : Prop :=
  i.wf = true ∧ rsvdOf (encode i) = 0 ∧ opcodeOf (encode i) = opcode i ∧ decode (encode i) = .ok i ∧
    decodeTableWord 32 (encode i).toNat = some i

theorem nop : Statement .nop := ⟨rfl, rfl, rfl, rfl, rfl⟩
theorem encode : Statement .encode := ⟨rfl, rfl, rfl, rfl, rfl⟩
theorem decode : Statement .decode := ⟨rfl, rfl, rfl, rfl, rfl⟩
theorem clear : Statement .clear := ⟨rfl, rfl, rfl, rfl, rfl⟩
theorem softReset : Statement .softReset := ⟨rfl, rfl, rfl, rfl, rfl⟩

end Sys2Proof.Laws.Encoding
end

