-- ==== Sys2Proof/Laws/Step.lean ====
section
/-! SUPPORT. Everything a step can do when it answers a next state, said once: the inversion of `step` and of a CSR
write. -/

namespace Sys2Proof.Machine

/-- The state with its next event taken. -/
def State.popped (s : State) : State := { s with inputs := s.inputs.tail }

@[simp] theorem State.popped_memBytes (s : State) : s.popped.memBytes = s.memBytes := rfl
@[simp] theorem State.popped_ie (s : State) : s.popped.ie = s.ie := rfl
@[simp] theorem State.popped_args (s : State) : s.popped.args = s.args := rfl
@[simp] theorem State.popped_engine (s : State) : s.popped.engine = s.engine := rfl
@[simp] theorem State.popped_done (s : State) : s.popped.done = s.done := rfl
@[simp] theorem State.popped_ovr (s : State) : s.popped.ovr = s.ovr := rfl
@[simp] theorem State.popped_lastCmd (s : State) : s.popped.lastCmd = s.lastCmd := rfl
@[simp] theorem State.popped_record (s : State) : s.popped.record = s.record := rfl
@[simp] theorem State.popped_mem (s : State) : s.popped.mem = s.mem := rfl
@[simp] theorem State.popped_work (s : State) : s.popped.work = s.work := rfl
@[simp] theorem State.popped_csrRdata (s : State) : s.popped.csrRdata = s.csrRdata := rfl
@[simp] theorem State.popped_memRdata (s : State) : s.popped.memRdata = s.memRdata := rfl
@[simp] theorem State.popped_draws (s : State) : s.popped.draws = s.draws := rfl
@[simp] theorem State.popped_busy (s : State) : s.popped.busy = s.busy := rfl

/-- What the next event is, when it is a CSR write that reaches a CSR (10_state.md R22). -/
theorem State.nextWrites_iff {s : State} {off : BitVec 12} {w : Word} {rest : List Event}
    (h : s.inputs = .csrWrite off w :: rest) (n : CsrName) (v : Word) :
    s.nextWrites n v ↔ csrAt off = some n ∧ v = w := by
  constructor
  · rintro ⟨off', rest', h1, h2⟩
    rw [h] at h1; cases h1; exact ⟨h2, rfl⟩
  · rintro ⟨h1, rfl⟩; exact ⟨off, rest, h, h1⟩

/-- No other event is a CSR write. -/
theorem State.not_nextWrites {s : State} (h : ∀ off w rest, s.inputs ≠ .csrWrite off w :: rest) (n : CsrName) (v : Word) :
    ¬ s.nextWrites n v := by rintro ⟨off, rest, h1, -⟩; exact h _ _ _ h1

/-- Everything a step can do (20_memory.md R70, R71): the engine's turn, a CSR read, a CSR write that reaches no CSR or one,
a MEM read or write at the host port, a hardware reset. -/
theorem step_eq_next {s t : State} (h : step s = .next t) :
    (s.nextCompletes ∧ engineStep s.popped = .next t) ∨
    (∃ off rest, s.inputs = .csrRead off :: rest ∧ t = { s.popped with csrRdata := s.csrReadAt off }) ∨
    (∃ off w rest, s.inputs = .csrWrite off w :: rest ∧ csrAt off = none ∧ t = s.popped) ∨
    (∃ off w rest n, s.inputs = .csrWrite off w :: rest ∧ csrAt off = some n ∧ csrWriteTo n w s.popped = .next t) ∨
    (∃ a rest, s.inputs = .memRead a :: rest ∧ ∃ b, t = { s.popped with memRdata := b }) ∨
    (∃ a v rest, s.inputs = .memWrite a v :: rest ∧
      ((s.memBytes ≤ a.toNat ∧ t = s.popped) ∨
        (a.toNat < s.memBytes ∧ t = { s.popped with mem := s.mem.writeByte a.toNat v }))) ∨
    (∃ rest, s.inputs = .hwReset :: rest ∧ t = s.popped.hardReset) := by
  cases hin : s.inputs with
  | nil =>
    rw [step_nil hin] at h
    refine .inl ⟨.inl hin, ?_⟩
    have : s.popped = s := by unfold State.popped; cases s; simp_all
    rw [this]; exact h
  | cons e rest =>
    rw [step_cons hin] at h
    have hp : ({ s with inputs := rest } : State) = s.popped := by unfold State.popped; rw [hin]; rfl
    rw [hp] at h
    cases e with
    | csrRead off => cases h; exact .inr (.inl ⟨off, rest, rfl, rfl⟩)
    | csrWrite off w =>
      simp only [runEvent, csrWriteAt] at h
      cases hc : csrAt off with
      | none =>
        simp only [hc] at h; cases h
        exact .inr (.inr (.inl ⟨off, w, rest, rfl, hc, rfl⟩))
      | some n =>
        simp only [hc] at h
        exact .inr (.inr (.inr (.inl ⟨off, w, rest, n, rfl, hc, h⟩)))
    | memRead a =>
      refine .inr (.inr (.inr (.inr (.inl ⟨a, rest, rfl, ?_⟩))))
      simp only [runEvent, hostMemRead] at h
      split at h
      · cases h; exact ⟨_, rfl⟩
      · split at h <;> cases h; exact ⟨_, rfl⟩
    | memWrite a v =>
      refine .inr (.inr (.inr (.inr (.inr (.inl ⟨a, v, rest, rfl, ?_⟩)))))
      simp only [runEvent, hostMemWrite] at h
      split at h
      · rename_i hle; cases h; exact .inl ⟨hle, rfl⟩
      · rename_i hle; split at h <;> cases h; exact .inr ⟨by simpa [State.popped] using hle, rfl⟩
    | hwReset => cases h; exact .inr (.inr (.inr (.inr (.inr (.inr ⟨rest, rfl, rfl⟩)))))
    | engineSlot => exact .inl ⟨.inr ⟨rest, hin⟩, h⟩

/-- Everything a CSR write can do: nothing (a read-only CSR), change CTRL.IE or the arguments, acknowledge, or issue. -/
theorem csrWriteTo_eq_next {n : CsrName} {w : Word} {s t : State} (h : csrWriteTo n w s = .next t) :
    (n ≠ .cmd ∧ n ≠ .status ∧
      (t = s ∨ (n = .ctrl ∧ t = { s with ie := w.getLsbD 0 }) ∨
        (n ∈ [.alphabetSize, .srcAddr, .srcLen, .dstAddr, .dstCap] ∧ t.csrValue n = w ∧
          (∀ k ∈ [CsrName.alphabetSize, .srcAddr, .srcLen, .dstAddr, .dstCap], k ≠ n → t.csrValue k = s.csrValue k) ∧
          t = { s with args := t.args }))) ∨
    (n = .status ∧ t = s.acknowledge w) ∨ (n = .cmd ∧ cmdWrite w s = .next t) := by
  cases n
  case ctrl => cases h; exact .inl ⟨by decide, by decide, .inr (.inl ⟨rfl, rfl⟩)⟩
  case status => cases h; exact .inr (.inl ⟨rfl, rfl⟩)
  case cmd => exact .inr (.inr ⟨rfl, h⟩)
  case alphabetSize | srcAddr | srcLen | dstAddr | dstCap =>
    cases h
    refine .inl ⟨by decide, by decide, .inr (.inr ⟨by decide, rfl, ?_, rfl⟩)⟩
    intro k hk hne
    cases k <;> first | rfl | exact absurd rfl hne
  all_goals cases h; exact .inl ⟨by decide, by decide, .inl rfl⟩

end Sys2Proof.Machine
end

