-- ==== Sys2Proof/Tests/Slice0.lean ====
section
/-! SUPPORT. Tests of single operations and single steps, with their expected results from spec/95_test_vectors.md (the row
is named), and for every statement with hypotheses the witnesses that meet them. -/

namespace Sys2Proof.Tests

-- one theorem after another, so that the kernel's evaluations do not pile up threads
set_option Elab.async false

open Sys2Proof Sys2Proof.Machine

/-! ## Helpers -/

/-- Whether an outcome is a next state with a property. -/
def nextSat (o : Host.Outcome State Fault Refusal) (p : State → Bool) : Bool :=
  match o with
  | .next t => p t
  | .fault _ => false
  | .refused _ => false

theorem exists_next {o : Host.Outcome State Fault Refusal} {p : State → Bool} (h : nextSat o p = true) :
    ∃ t, o = .next t ∧ p t = true := by
  cases o with
  | next t => exact ⟨t, rfl, h⟩
  | fault f => cases h
  | refused r => cases h

/-- Whether a computation succeeds with a property. -/
def okSat {α : Type} (x : Except Stop α) (p : α → Bool) : Bool :=
  match x with
  | .ok a => p a
  | .error _ => false

/-- Whether a computation raises exactly this error. -/
def raises {α : Type} (x : Except Stop α) (k : ErrorKind) (sub index value : Nat) : Bool :=
  match x with
  | .ok _ => false
  | .error e => e == .raised ⟨k, sub, index, value⟩

/-- The (ERRCODE, ERRSUB, ERR_INDEX, ERR_VALUE) a state reports, with DONE set and the engine IDLE. -/
def reported (k : ErrorKind) (sub index value : Nat) (t : State) : Bool :=
  t.record.errCode == k && t.record.errSub.toNat == sub && t.record.errIndex.toNat == index &&
    t.record.errValue.toNat == value && t.done && !t.busy

def bytesFrom (m : Memory) (a n : Nat) : List Byte := (List.range n).map fun i => m.readByte (a + i)

def words (l : List Nat) : List Byte := l.flatMap (leBytes 4)

def argsOf (A sa sl da dc : Nat) : Args :=
  ⟨BitVec.ofNat 32 A, BitVec.ofNat 32 sa, BitVec.ofNat 32 sl, BitVec.ofNat 32 da, BitVec.ofNat 32 dc⟩

/-- The reset state with these bytes stored at `a` and these arguments. -/
def loaded (a : Nat) (bs : List Byte) (x : Args) : State :=
  { State.reset with
    args := x
    mem := Memory.writeBytes [] a bs }

/-- The same with the command issued. -/
def running (cmd : LongCmd) (a : Nat) (bs : List Byte) (x : Args) : State :=
  { loaded a bs x with
    engine := .busy cmd x
    lastCmd := cmd.opcode }

/-- E1's container, byte by byte (row E1). -/
def containerE1 : List Byte :=
  [0x06#8, 0, 0, 0, 0, 0, 0, 0, 0x00#8, 0x01#8, 0, 0, 0x03#8, 0, 0, 0, 0x09#8, 0, 0, 0, 0, 0, 0, 0] ++
  [0x41#8, 0, 0, 0, 0x01#8, 0x00#8, 0x42#8, 0, 0, 0, 0x02#8, 0xC0#8, 0x43#8, 0, 0, 0, 0x02#8, 0x80#8] ++
  [0x1F#8, 0x00#8]

def symbolsE1 : List Nat := [0x41, 0x41, 0x41, 0x42, 0x42, 0x43]

def tableE1 : List (Nat × Bits) := [(0x41, [false]), (0x42, [true, true]), (0x43, [true, false])]

def payloadE1 : Bits := [false, false, false, true, true, true, true, true, false]

/-- ENCODE of E1's symbols from 0, into 0x800, with this capacity. -/
def encE1 (cap : Nat) : State := loaded 0 (words symbolsE1) (argsOf 256 0 24 0x800 cap)
def encE1Busy (cap : Nat) : State := running .encode 0 (words symbolsE1) (argsOf 256 0 24 0x800 cap)

/-- DECODE of these bytes from 0, with this source length, into 0x800, with this capacity. -/
def dec (bs : List Byte) (sl cap : Nat) : State := loaded 0 bs (argsOf 256 0 sl 0x800 cap)
def decBusy (bs : List Byte) (sl cap : Nat) : State := running .decode 0 bs (argsOf 256 0 sl 0x800 cap)

/-- E1's container with the bytes from offset i replaced. -/
def patched (i : Nat) (bs : List Byte) : List Byte := containerE1.take i ++ bs ++ containerE1.drop (i + bs.length)

/-! ## Well-formedness: an ill-formed term for each check -/

theorem test_csr_offset_must_fit : (Tuple.mk .csr .r 0x1000 none).wf = false := by decide
theorem test_mem_address_must_fit : (Tuple.mk .mem .r 0x100000000 none).wf = false := by decide
theorem test_csr_data_must_fit : (Tuple.mk .csr .w 0x010 (some 0x100000000)).wf = false := by decide
theorem test_mem_data_must_fit : (Tuple.mk .mem .w 0 (some 0x100)).wf = false := by decide
theorem test_write_needs_data : (Tuple.mk .mem .w 0 none).wf = false := by decide
theorem test_read_carries_no_data : (Tuple.mk .csr .r 0 (some 0)).wf = false := by decide
theorem test_ill_formed_tuple_is_no_event : (Tuple.mk .csr .r 0x1000 none).toEvent = none := by decide
theorem test_csrw_value_must_fit : (AsmLine.csrw .ctrl 0x100000000).wf = false := by decide
theorem test_memw_must_stay_in_the_address_space : (AsmLine.memw 0xFFFFFFFF [1, 2]).wf = false := by decide
theorem test_memw_byte_must_fit : (AsmLine.memw 0 [0x100]).wf = false := by decide
theorem test_memr_must_stay_in_the_address_space : (AsmLine.memr 0xFFFFFFFF 2).wf = false := by decide
theorem test_memw32_value_must_fit : (AsmLine.memw32 0 0x100000000).wf = false := by decide
theorem test_memw32_must_stay_in_the_address_space : (AsmLine.memw32 0xFFFFFFFD 0).wf = false := by decide
theorem test_memr32_must_stay_in_the_address_space : (AsmLine.memr32 0xFFFFFFFD).wf = false := by decide

/-! ## Decoding: each command's word bit by bit from 30_encoding.md R80 and R81 -/

theorem test_decode_nop : decode 0b000000000000000000000000_00000000#32 = .ok .nop := rfl
theorem test_decode_encode : decode 0b000000000000000000000000_00000001#32 = .ok .encode := rfl
theorem test_decode_decode : decode 0b000000000000000000000000_00000010#32 = .ok .decode := rfl
theorem test_decode_clear : decode 0b000000000000000000000000_00000011#32 = .ok .clear := rfl
theorem test_decode_softReset : decode 0b000000000000000000000000_00000100#32 = .ok .softReset := rfl
theorem test_decode_refuses_reserved : decode 0b000000000000000000000000_11111111#32 = .error .reservedOpcode := rfl
theorem test_decode_refuses_rsvd : decode 0b100000000000000000000000_00000001#32 = .error .rsvdNotZero := rfl
theorem test_table_word : decodeTableWord 32 4 = some .softReset ∧ decodeTableWord 32 0x101 = none := by decide

/-- 30_encoding.md R86's own lines. -/
theorem test_assembler :
    assemble [.cmd .encode, .memw32 0x10 0x12345678, .clrdone] =
      [.csrWrite 0x010#12 1#32, .memWrite 0x10#32 0x78#8, .memWrite 0x11#32 0x56#8, .memWrite 0x12#32 0x34#8,
        .memWrite 0x13#32 0x12#8, .csrWrite 0x00C#12 2#32] := by decide

/-- An address past 2^32 − 1 does not wrap to 0 (20_memory.md R60): the second byte is no write of MEM[0]. -/
theorem test_memw_does_not_wrap :
    assemble [.memw 0xFFFFFFFF [7, 7], .memr 0x100000000 1] =
        [.memWrite 0xFFFFFFFF#32 7#8, .memWrite 0xFFFFFFFF#32 7#8, .memRead 0xFFFFFFFF#32] ∧
      hostMemWrite 0xFFFFFFFF#32 7#8 State.reset = .next State.reset := ⟨by decide, rfl⟩

/-! ## Internal operations -/

/-- Rows F2 and F3. -/
theorem test_counts :
    (let f := symbolsE1.foldl ftCount (ftClear [])
     freqOf f 0x41 = 3 ∧ freqOf f 0x42 = 2 ∧ freqOf f 0x43 = 1 ∧ freqOf f 0x44 = 0 ∧ ftActive f 256 = [0x41, 0x42, 0x43]) := by
  decide +kernel

/-- Row Q3: equal weights leave in insertion order. -/
theorem test_queue_ties :
    okSat (do
      let q := pqInsert (pqInsert (pqInsert (pqInsert (pqInit ⟨[], 0⟩) 0 5) 1 3) 2 5) 3 3
      let (a, q) ← pqExtractMin q
      let (b, q) ← pqExtractMin q
      let (c, q) ← pqExtractMin q
      let (d, _) ← pqExtractMin q
      return [a, b, c, d]) (fun l => l.map (fun e => (e.node, e.seq)) == [(1, 1), (3, 3), (0, 0), (2, 2)]) = true := by
  decide +kernel

/-- Row T2: the arena of the tied weights. -/
theorem test_tree :
    okSat (tbBuild [(5, 1), (7, 2), (8, 2), (9, 1)] [5, 7, 8, 9] ⟨[], ⟨[], 0⟩⟩) (fun t =>
      t == .tree [.leaf 5 1, .leaf 7 2, .leaf 8 2, .leaf 9 1, .internal (some 0) (some 3) 2, .internal (some 1) (some 2) 4,
        .internal (some 4) (some 5) 6] 6) = true := by decide +kernel

/-- Row K1: the codes of T1, and their records. -/
theorem test_codes :
    okSat (do
      let t ← tbBuild [(0x41, 3), (0x42, 2), (0x43, 1)] [0x41, 0x42, 0x43] ⟨[], ⟨[], 0⟩⟩
      ctGen t) (fun c => ctSerialize [0x41, 0x42, 0x43] c == (containerE1.drop 24).take 18) = true := by decide +kernel

/-- Row K10: the trie's arena. -/
theorem test_trie :
    okSat (insertRecords 100 0 [(0x41, [false]), (0x42, [true, true]), (0x43, [true, false])] ctTrieInit) (fun t =>
      t.arena == [.internal (some 1) (some 2) 0, .leaf 0x41 0, .internal (some 4) (some 3) 0, .leaf 0x42 0, .leaf 0x43 0])
      = true := by decide +kernel

/-- Row K16: the arena is full at 4 nodes. -/
theorem test_trie_capacity :
    raises (insertRecords 4 0 [(1, [true]), (2, [false, true]), (3, [false, false, true])] ctTrieInit) .corruptTree 6 2 3
      = true := by decide +kernel

/-- Rows B2 and B4. -/
theorem test_writer :
    bwFinalize (bwPutSeq (bwInit ⟨[], 0⟩) [true, false, true]) = ([0xA0#8], 3) ∧
      bwFinalize (bwPutSeq (bwInit ⟨[], 0⟩) (List.replicate 8 true ++ [false])) = ([0xFF#8, 0x00#8], 9) := by decide +kernel

/-- Row B9. -/
theorem test_reader : unpackBits (fun _ => 0xBF#8) 7 3 = [true, false, true] := by decide +kernel

/-- Rows G10, G12 and G14. -/
theorem test_region_check :
    raises (regionCheck 4096 0xFFFFFFFF 1 0 0) .bounds 0 0xFFFFFFFF 1 = true ∧
      okSat (regionCheck 4096 10 0 10 10) (fun _ => true) = true ∧ okSat (regionCheck 4096 0 4096 0 0) (fun _ => true) = true := by
  decide +kernel

/-! ## Commands -/

/-- Row X12, from X11's record: ERRCODE 4 kept, LASTCMD 0, DONE 1. -/
theorem test_nop :
    nextSat (exec .nop { State.reset with lastCmd := 1, record := { Record.cleared with errCode := .illegalCommand } })
      (fun t => t.status == 0x00000406#32) = true := by decide +kernel

/-- Row X13. -/
theorem test_clear :
    nextSat (exec .clear { State.reset with record := { Record.cleared with errCode := .illegalCommand, errValue := 0x101 } })
      (fun t => t.status == 0x00030002#32 && t.csrReadAt 0x048#12 == 0) = true := by decide +kernel

/-- Row X15. -/
theorem test_softReset :
    nextSat (exec .softReset { State.reset with ie := true, done := true, args := argsOf 1 2 3 4 5 })
      (fun t => t.status == 0 && t.csrReadAt 0x008#12 == 0 && t.csrReadAt 0x014#12 == 0x100#32 && !t.irq) = true := by
  decide +kernel

/-- Row V1: the issue of ENCODE. -/
theorem test_encode_issue : nextSat (exec .encode (encE1 2048)) (fun t => t.status == 0x00010001#32) = true := by
  decide +kernel

/-- Row E1: ENCODE's completion. -/
theorem test_encode_completion :
    nextSat (engineStep (encE1Busy 2048)) (fun t => bytesFrom t.mem 0x800 44 == containerE1 && t.status == 0x00010002#32 &&
      t.record.resultLen == 44#32 && t.record.resultCount == 6#64 && t.record.payloadBits == 9#64 &&
      t.record.tableEntries == 3#32) = true := by decide +kernel

/-- The issue of DECODE (10_state.md R51). -/
theorem test_decode_issue : nextSat (exec .decode (dec containerE1 44 2048)) (fun t => t.status == 0x00020001#32) = true := by
  decide +kernel

/-- Row D1: DECODE's completion. -/
theorem test_decode_completion :
    nextSat (engineStep (decBusy containerE1 44 2048)) (fun t => bytesFrom t.mem 0x800 24 == words symbolsE1 &&
      t.status == 0x00020002#32 && t.record.resultLen == 24#32 && t.record.payloadBits == 9#64) = true := by decide +kernel

/-- Row X10: an illegal word. -/
theorem test_illegal_word :
    nextSat (runEvent (.csrWrite 0x010#12 0x101#32) State.reset) (fun t => t.status == 0x00010406#32 &&
      t.record.errValue == 0x101#32) = true := by decide +kernel

/-- Row V3: a word written while BUSY. -/
theorem test_overrun :
    nextSat (runEvent (.csrWrite 0x010#12 2#32) (encE1Busy 2048)) (fun t => t.status == 0x00010011#32) = true := by
  decide +kernel

/-- Row X6: an offset is rounded down. -/
theorem test_offset_rounds_down :
    nextSat (runEvent (.csrWrite 0x015#12 0x12345678#32) State.reset) (fun t => t.csrReadAt 0x014#12 == 0x12345678#32) = true := by
  decide +kernel

/-- Row X11: a STATUS write clears only DONE and OVR. -/
theorem test_status_write :
    nextSat (runEvent (.csrWrite 0x00C#12 0xFFFFFFFF#32)
      { State.reset with done := true, lastCmd := 1, record := { Record.cleared with errCode := .illegalCommand } })
      (fun t => t.status == 0x00010404#32) = true := by decide +kernel

/-- Row Z2: a hardware reset while ENCODE runs keeps the source. -/
theorem test_hardware_reset :
    nextSat (runEvent .hwReset (encE1Busy 2048)) (fun t => t.status == 0 && bytesFrom t.mem 0 24 == words symbolsE1) = true := by
  decide +kernel

/-! ## Witnesses for the statements' hypotheses -/

theorem witness_LegalCommandWords :
    decode 0x00000101#32 = .error .rsvdNotZero ∧ decode 0x00000005#32 = .error .reservedOpcode ∧ State.reset.engine = .idle :=
  ⟨rfl, rfl, rfl⟩

theorem witness_TransactionsAndTuplesAgree :
    (Event.memWrite 0xFFFFFFFF#32 0xFF#8).toTuple = some ⟨.mem, .w, 0xFFFFFFFF, some 0xFF⟩ ∧
      (Tuple.mk .csr .w 0xFFF (some 0xFFFFFFFF)).toEvent = some (.csrWrite 0xFFF#12 0xFFFFFFFF#32) ∧
      (AsmLine.memw 0xFFFFFFFF [255]).wf = true ∧ [255][0]? = some 255 ∧ (AsmLine.memr 0xFFFFFFFF 1).wf = true ∧ 0 < 1 ∧
      (AsmLine.memw32 0xFFFFFFFC 0xFFFFFFFF).wf = true ∧ Event.csrRead 0x055#12 ≠ .hwReset ∧
      Event.csrRead 0x055#12 ≠ .engineSlot ∧ (Tuple.mk .mem .r 0xFFFFFFFF none).wf = true := by decide

/-- The first address outside MEM, and the largest MEM with a line that runs past 2^32 − 1. -/
theorem witness_TransactionsOutsideMem :
    State.reset.memBytes ≤ 2 ^ 32 - 1 ∧ State.reset.memBytes ≤ 4095 + 1 ∧
      (AsmLine.memw 4095 [1, 2]).expand[1]? = some (.memWrite 4096#32 2#8) ∧
      { State.reset with memBytes := 2 ^ 32 - 1 }.memBytes ≤ 0xFFFFFFFF + 1 ∧
      (AsmLine.memw 0xFFFFFFFF [1, 2]).expand[1]? = some (.memWrite 0xFFFFFFFF#32 2#8) ∧
      (AsmLine.memr 0xFFFFFFFF 2).expand[1]? = some (.memRead 0xFFFFFFFF#32) := by decide

theorem witness_CsrPortRoundsReadsAndIgnores :
    csrAt 0x053#12 = some .memBytes ∧ csrAt 0x054#12 = none ∧ csrAt 0xFFF#12 = none ∧ csrAt 0x003#12 = some .id ∧
      (0x014#12).toNat = (0x017#12).toNat / 4 * 4 ∧ csrAt 0x00B#12 = some .ctrl ∧ csrAt 0x017#12 = some .alphabetSize ∧
      csrAt 0x01B#12 = some .srcAddr ∧ csrAt 0x01F#12 = some .srcLen ∧ csrAt 0x023#12 = some .dstAddr ∧
      csrAt 0x027#12 = some .dstCap ∧
      CsrName.id ∉ [CsrName.ctrl, .status, .cmd, .alphabetSize, .srcAddr, .srcLen, .dstAddr, .dstCap] ∧
      (0xFFFFFFFE#32).getLsbD 0 = (0#32).getLsbD 0 ∧ (0xFFFFFFED#32).getLsbD 1 = (0#32).getLsbD 1 ∧
      (0xFFFFFFED#32).getLsbD 4 = (0#32).getLsbD 4 := by decide

theorem witness_IdentityAndParameterCsrs : { State.reset with memBytes := 2 ^ 32 - 1 }.memBytes ≤ 2 ^ 32 - 1 := by decide

theorem busy_encE1 : (encE1Busy 2048).busy = true := rfl

theorem engineStep_encE1 : ∃ t, engineStep (encE1Busy 2048) = .next t ∧ t.done = true := by
  obtain ⟨t, h, hp⟩ := exists_next (p := fun t => t.done) (o := engineStep (encE1Busy 2048)) (by decide +kernel)
  exact ⟨t, h, hp⟩

theorem witness_ArgumentWritesWhileBusy :
    CsrName.dstCap ∈ [CsrName.alphabetSize, .srcAddr, .srcLen, .dstAddr, .dstCap, .ctrl] ∧ CsrName.dstCap ≠ .ctrl ∧
      CsrName.srcAddr ≠ .dstCap ∧ CsrName.ctrl ∈ [CsrName.alphabetSize, .srcAddr, .srcLen, .dstAddr, .dstCap, .ctrl] ∧
      (encE1Busy 2048).busy = true ∧ ∃ u, engineStep (encE1Busy 2048) = .next u := by
  obtain ⟨u, h, -⟩ := engineStep_encE1
  exact ⟨by decide, by decide, by decide, by decide, busy_encE1, u, h⟩

theorem witness_InterruptFollowsDoneAndEnable :
    (∃ t, (encE1Busy 2048).busy = true ∧ engineStep (encE1Busy 2048) = .next t) ∧ State.reset.busy = false ∧
      CsrName.srcLen ∈ [CsrName.alphabetSize, .srcAddr, .srcLen, .dstAddr, .dstCap] := by
  obtain ⟨t, h, -⟩ := engineStep_encE1
  exact ⟨⟨t, busy_encE1, h⟩, rfl, by decide⟩

/-- NOP, CLEAR, SOFT_RESET, the issue of ENCODE and DECODE, and the completion statements of all five. -/
theorem witness_idle_and_busy : State.reset.engine = .idle ∧ (encE1Busy 2048).busy = true := ⟨rfl, rfl⟩

theorem witness_IssueLatches :
    State.reset.engine = .idle ∧ CsrName.srcAddr ∈ [CsrName.alphabetSize, .srcAddr, .srcLen, .dstAddr, .dstCap] ∧
      (encE1Busy 2048).busy = true ∧ ∃ u, engineStep (encE1Busy 2048) = .next u := by
  obtain ⟨u, h, -⟩ := engineStep_encE1
  exact ⟨rfl, by decide, rfl, u, h⟩

theorem witness_IllegalWord :
    State.reset.engine = .idle ∧ (0x00000100#32).extractLsb' 8 24 ≠ 0#24 ∧ 5 ≤ ((0x00000005#32).extractLsb' 0 8).toNat ∧
      5 ≤ ((0x000000FF#32).extractLsb' 0 8).toNat := by decide

theorem witness_CmdWriteDispatches :
    (encE1Busy 2048).busy = true ∧ State.reset.busy = false ∧
      0x00000005#32 ∉ [0x00000000#32, 0x00000001#32, 0x00000002#32, 0x00000003#32, 0x00000004#32] ∧ CsrName.status ≠ .cmd ∧
      (∃ t, csrWriteTo .status 2#32 (encE1Busy 2048) = .next t) ∧
      (∃ t, hostMemWrite 0x700#32 1#8 (encE1Busy 2048) = .next t) :=
  ⟨rfl, rfl, by decide, by decide, ⟨_, rfl⟩, ⟨_, rfl⟩⟩

theorem witness_WordWrittenWhileBusy :
    (encE1Busy 2048).busy = true ∧ (∃ t, engineStep (encE1Busy 2048) = .next t) ∧
      (∃ t, runEvent (.csrWrite 0x010#12 4#32) (encE1Busy 2048) = .next t) ∧
      (∃ t, runEvent (.memWrite 0x700#32 1#8) (encE1Busy 2048) = .next t) := by
  obtain ⟨t, h, -⟩ := engineStep_encE1
  exact ⟨rfl, ⟨t, h⟩, ⟨_, rfl⟩, ⟨_, rfl⟩⟩

/-- A state whose next event is this one. -/
def before (e : Event) (s : State) : State := { s with inputs := [e] }

theorem witness_StepRunsTheDecodedCommand :
    (before (.csrWrite 0x013#12 1#32) State.reset).inputs = [.csrWrite 0x013#12 1#32] ∧ csrAt 0x013#12 = some .cmd ∧
      decode 1#32 = .ok .encode ∧ decode 0x105#32 = .error .rsvdNotZero ∧ State.reset.inputs = [] :=
  ⟨rfl, by decide, rfl, rfl, rfl⟩

/-- The steps the rules of the whole machine speak of: an overrun, an acknowledgement, each command accepted, an illegal
word, a hardware reset while BUSY, an argument write and a completion. -/
theorem witness_overrun_step :
    ∃ t, (encE1Busy 2048).busy = true ∧ (before (.csrWrite 0x010#12 5#32) (encE1Busy 2048)).nextWrites .cmd 5#32 ∧
      step (before (.csrWrite 0x010#12 5#32) (encE1Busy 2048)) = .next t :=
  ⟨_, rfl, ⟨_, _, rfl, by decide⟩, rfl⟩

theorem witness_acknowledge_step :
    ∃ t, (before (.csrWrite 0x00C#12 0x12#32) State.reset).nextWrites .status 0x12#32 ∧ (0x12#32).getLsbD 1 = true ∧
      (0x12#32).getLsbD 4 = true ∧ step (before (.csrWrite 0x00C#12 0x12#32) State.reset) = .next t :=
  ⟨_, ⟨_, _, rfl, by decide⟩, by decide, by decide, rfl⟩

theorem witness_command_step (i : Instr) :
    ∃ t, (before (.csrWrite 0x010#12 (encode i)) State.reset).busy = false ∧
      (before (.csrWrite 0x010#12 (encode i)) State.reset).nextWrites .cmd (encode i) ∧
      step (before (.csrWrite 0x010#12 (encode i)) State.reset) = .next t := by
  cases i <;> exact ⟨_, rfl, ⟨_, _, rfl, by decide⟩, rfl⟩

theorem witness_illegal_step :
    ∃ t, (before (.csrWrite 0x010#12 5#32) State.reset).busy = false ∧
      (before (.csrWrite 0x010#12 5#32) State.reset).nextWrites .cmd 5#32 ∧ (∀ i, 5#32 ≠ encode i) ∧
      step (before (.csrWrite 0x010#12 5#32) State.reset) = .next t :=
  ⟨_, rfl, ⟨_, _, rfl, by decide⟩, by intro i; cases i <;> decide, rfl⟩

theorem witness_reset_step :
    ∃ t, (encE1Busy 2048).busy = true ∧ (before .hwReset (encE1Busy 2048)).nextResets ∧
      step (before .hwReset (encE1Busy 2048)) = .next t := ⟨_, rfl, ⟨_, rfl⟩, rfl⟩

theorem witness_argument_step :
    ∃ t, (before (.csrWrite 0x018#12 7#32) State.reset).nextWrites .srcAddr 7#32 ∧
      step (before (.csrWrite 0x018#12 7#32) State.reset) = .next t ∧ t.args ≠ State.reset.args :=
  ⟨_, ⟨_, _, rfl, by decide⟩, rfl, by decide⟩

theorem witness_completion_step :
    ∃ t, (encE1Busy 2048).busy = true ∧ (encE1Busy 2048).nextCompletes ∧ step (encE1Busy 2048) = .next t ∧
      t.record ≠ (encE1Busy 2048).record := by
  obtain ⟨t, h, hp⟩ := exists_next (o := step (encE1Busy 2048)) (p := fun t => t.record.resultLen == 44#32) (by decide +kernel)
  refine ⟨t, rfl, .inl rfl, h, ?_⟩
  intro heq
  rw [heq] at hp
  exact absurd hp (by decide)

theorem inv_encE1Busy : (encE1Busy 2048).Inv := by
  refine ⟨by decide, by decide +kernel, by decide +kernel, fun _ => ⟨rfl, rfl⟩, ?_, ?_⟩
  · intro cmd x h; cases h; rfl
  · refine ⟨rfl, fun _ => ⟨rfl, rfl⟩, fun h => absurd rfl h, fun h => ?_⟩
    cases h

theorem inv_before {s : State} (h : s.Inv) (e : Event) : (before e s).Inv :=
  ⟨h.memBytesLegal, h.memWf, h.memInside, h.busyQuiet, h.busyLastCmd, h.record⟩

theorem witness_EveryStepKeepsTheStateLegal :
    (encE1Busy 2048).Inv ∧ (∃ t, step (encE1Busy 2048) = .next t) ∧ (before .hwReset (encE1Busy 2048)).Inv ∧
      ∃ t, step (before .hwReset (encE1Busy 2048)) = .next t := by
  obtain ⟨t, -, -, h, -⟩ := witness_completion_step
  exact ⟨inv_encE1Busy, ⟨t, h⟩, inv_before inv_encE1Busy _, _, rfl⟩

/-- A CSR beside the view, and a running command whose view is all 0 (row V2). -/
theorem witness_WorkingStateIsUnobservable :
    CsrName.memBytes ∉ resultAndErrorCsrs ∧ CsrName.memBytes ≠ .status ∧ (encE1Busy 2048).Inv ∧ (encE1Busy 2048).busy = true :=
  ⟨by decide, by decide, inv_encE1Busy, rfl⟩

/-- MEM changes by a host write to its last byte, by an output, and by an abandonment. -/
theorem witness_MemChanges_host :
    ∃ s t, s.Inv ∧ step s = .next t ∧ t.mem.readByte 4095 ≠ s.mem.readByte 4095 := by
  refine ⟨before (.memWrite 4095#32 (Config.powerUpByte 4095 + 1#8)) (encE1Busy 1024), _,
    inv_before ⟨by decide, by decide +kernel, by decide +kernel, fun _ => ⟨rfl, rfl⟩, ?_, ?_⟩ _, rfl, ?_⟩
  · intro cmd x h; cases h; rfl
  · exact ⟨rfl, fun _ => ⟨rfl, rfl⟩, fun h => absurd rfl h, fun h => by cases h⟩
  · show (Memory.writeByte (encE1Busy 1024).mem 4095 (Config.powerUpByte 4095 + 1#8)).readByte 4095 ≠ Config.powerUpByte 4095
    rw [Memory.readByte_writeByte, if_pos rfl]
    intro h
    have := congrArg BitVec.toNat h
    simp only [BitVec.toNat_add] at this
    have := (Config.powerUpByte 4095).isLt
    simp at *

/-- A running ENCODE of E1 whose first destination byte holds v. -/
def encOver (v : Byte) : State := running .encode 0 (words symbolsE1 ++ [v]) (argsOf 256 0 24 24 44)

theorem inv_encOver (v : Byte) : (encOver v).Inv := by
  refine ⟨by show 24 ≤ 4096 ∧ 4096 ≤ 4294967295; decide, ?_, ?_, fun _ => ⟨rfl, rfl⟩, ?_, ?_⟩
  · exact Memory.writeBytes_wf (m := []) List.Pairwise.nil 0 _
  · intro c hc
    rcases Memory.mem_writeBytes hc with h | h
    · cases h
    · exact Nat.lt_trans h.2 (by show 0 + 25 < 4096; decide)
  · intro cmd x h; cases h; rfl
  · exact ⟨rfl, fun _ => ⟨rfl, rfl⟩, fun h => absurd rfl h, fun h => by cases h⟩

theorem witness_MemChanges_output :
    ∃ s t, s.Inv ∧ step s = .next t ∧ t.mem.readByte 24 ≠ s.mem.readByte 24 := by
  obtain ⟨t, h, hp⟩ := exists_next (o := step (encOver 0xFF#8)) (p := fun t => t.mem.readByte 24 == 6#8) (by decide +kernel)
  refine ⟨_, t, inv_encOver 0xFF#8, h, ?_⟩
  rw [eq_of_beq hp]
  decide +kernel

theorem witness_MemChanges_abandonment :
    ∃ s t, s.Inv ∧ step s = .next t ∧ t.mem.readByte 24 ≠ s.mem.readByte 24 := by
  refine ⟨before .hwReset (encOver (Config.abandonedByte 1 24 + 1#8)), _, inv_before (inv_encOver _) _, rfl, ?_⟩
  show Config.abandonedByte 1 24 ≠ Config.abandonedByte 1 24 + 1#8
  intro h
  have := congrArg BitVec.toNat h
  simp only [BitVec.toNat_add] at this
  have := (Config.abandonedByte 1 24).isLt
  simp at *

/-- The refused accesses, at both ends of both latched regions, and the first accesses outside them. -/
theorem witness_OnlyAHostAccessIsRefused :
    step (before (.memRead 0#32) (encE1Busy 2048)) = .refused (.hostTouchedLatchedRegion 0#32) ∧
      step (before (.memRead 23#32) (encE1Busy 2048)) = .refused (.hostTouchedLatchedRegion 23#32) ∧
      step (before (.memWrite 0x800#32 1#8) (encE1Busy 1024)) = .refused (.hostTouchedLatchedRegion 0x800#32) ∧
      step (before (.memWrite 0xBFF#32 1#8) (encE1Busy 1024)) = .refused (.hostTouchedLatchedRegion 0xBFF#32) ∧
      (∃ t, step (before (.memRead 24#32) (encE1Busy 1024)) = .next t) ∧
      (∃ t, step (before (.memRead 0x7FF#32) (encE1Busy 1024)) = .next t) ∧
      (∃ t, step (before (.memRead 0xC00#32) (encE1Busy 1024)) = .next t) :=
  ⟨rfl, rfl, rfl, rfl, ⟨_, rfl⟩, ⟨_, rfl⟩, ⟨_, rfl⟩⟩

theorem witness_RunningCommandCompletes :
    ∃ (s : State) (x : Args), s.engine = .busy .encode x ∧ s.inputs = [.csrRead 0x00C#12, .memWrite 24#32 1#8, .csrWrite 0x010#12 4#32] ∧
      ∀ e ∈ s.inputs, e ≠ .hwReset ∧ keepsDuty x s.memBytes e = true := by
  refine ⟨{ encE1Busy 2048 with inputs := [.csrRead 0x00C#12, .memWrite 24#32 1#8, .csrWrite 0x010#12 4#32] }, _, rfl, rfl, ?_⟩
  decide +kernel

theorem witness_HostMemPort :
    State.reset.memBytes ≤ (4096#32).toNat ∧ (4095#32).toNat < (encE1Busy 1024).memBytes ∧
      (encE1Busy 1024).latchedRegion (4095#32).toNat = false ∧ State.reset.busy = false := by decide +kernel

theorem witness_HardwareReset : State.reset.engine = .idle ∧ ∃ x, (encE1Busy 2048).engine = .busy .encode x := ⟨rfl, _, rfl⟩

theorem witness_CommandsStraightAfterReset : State.reset.engine = .idle ∧ State.reset.args = Args.atReset := ⟨rfl, rfl⟩

theorem witness_RegionCheck :
    4096 < 4096 + 1 ∧ (0 + 4096 ≤ 4096 ∧ 4096 < 4000 + 97) ∧
      (∃ a, inRegion 100 44 a = true ∧ inRegion 77 24 a = true) ∧
      (∀ a, ¬ (inRegion 100 44 a = true ∧ inRegion 76 24 a = true)) ∧
      (∀ a, ¬ (inRegion 10 0 a = true ∧ inRegion 10 10 a = true)) := by
  refine ⟨by decide, by decide, ⟨100, by decide⟩, ?_, ?_⟩ <;> intro a <;> simp only [inRegion, Bool.and_eq_true, decide_eq_true_eq]
  · omega
  · omega

theorem witness_RaisedError :
    (∃ (s : State) (x : Args) (e : Raised), s.engine = .busy .encode x ∧
      encodeRun s.memBytes s.mem.readByte x s.work = .error (.raised e)) ∧
    (∃ (s : State) (x : Args) (e : Raised), s.engine = .busy .decode x ∧
      decodeRun s.memBytes s.mem.readByte x s.work = .error (.raised e)) ∧
    State.reset.engine = .idle ∧ ∀ i, 0x000000FF#32 ≠ encode i :=
  ⟨⟨running .encode 0 [] (argsOf 0 0 0 0 0), _, _, rfl, rfl⟩, ⟨running .decode 0 [] (argsOf 0 0 0 0 0), _, _, rfl, rfl⟩, rfl,
    by intro i; cases i <;> decide⟩

theorem witness_CommandsRaise :
    (∃ r, encodeRun 4096 (fun _ => 0#8) (argsOf 0 0 0 0 0) (beginWork (Config.unspecifiedWork 0)) = .error (.raised r)) ∧
      ∃ r, decodeRun 4096 (fun _ => 0#8) (argsOf 0 0 0 0 0) (beginWork (Config.unspecifiedWork 0)) = .error (.raised r) :=
  ⟨⟨_, rfl⟩, ⟨_, rfl⟩⟩

/-- ENCODE's checks at the ends of their ranges: A = 0, 2^24, 2^24 + 1, SRC_LEN = 6, a region one byte too long, regions
that share one byte, and a symbol equal to A. -/
theorem witness_EncodeReports_alphabet :
    (argsOf 0 0 4 0x800 64).A = 0 ∧ 2 ^ 24 < (argsOf 0x1000001 0 4 0x800 64).A ∧
      (1 ≤ (argsOf 0x1000000 0 6 0x800 64).A ∧ (argsOf 0x1000000 0 6 0x800 64).A ≤ 2 ^ 24 ∧
        (argsOf 0x1000000 0 6 0x800 64).sl % 4 ≠ 0) ∧
      (running .encode 0 [] (argsOf 0 0 4 0x800 64)).engine = .busy .encode (argsOf 0 0 4 0x800 64) := by decide +kernel

theorem witness_EncodeReports_regions :
    (1 ≤ (argsOf 1 4093 4 0 0).A ∧ (argsOf 1 4093 4 0 0).sl % 4 = 0 ∧ 4096 < (argsOf 1 4093 4 0 0).sa + (argsOf 1 4093 4 0 0).sl) ∧
      ((argsOf 1 4092 4 4000 97).sa + (argsOf 1 4092 4 4000 97).sl ≤ 4096 ∧
        4096 < (argsOf 1 4092 4 4000 97).da + (argsOf 1 4092 4 4000 97).dc) ∧
      ((argsOf 1 0 4 3 24).da + (argsOf 1 0 4 3 24).dc ≤ 4096 ∧
        ∃ a, inRegion (argsOf 1 0 4 3 24).sa (argsOf 1 0 4 3 24).sl a = true ∧
          inRegion (argsOf 1 0 4 3 24).da (argsOf 1 0 4 3 24).dc a = true) := by
  refine ⟨by decide, by decide, by decide, 3, by decide⟩

theorem witness_EncodeReports_symbol :
    ∃ s : State, ∃ x, s.engine = .busy .encode x ∧ RegionsOk s.memBytes x ∧ 1 < x.sl / 4 ∧
      x.A ≤ memRead s.mem.readByte (x.sa + 4 * 1) 4 ∧ ∀ j < 1, memRead s.mem.readByte (x.sa + 4 * j) 4 < x.A :=
  ⟨running .encode 0 (words [1, 256]) (argsOf 256 0 8 8 64), _, rfl, regionsOk_of_regionCheck (u := ()) rfl, by decide,
    by decide +kernel, by decide +kernel⟩

theorem regionsOk_dec (sl cap : Nat) (h : sl ≤ 0x800) (h2 : cap ≤ 0x800) : RegionsOk 4096 (argsOf 256 0 sl 0x800 cap) := by
  have h1 : (argsOf 256 0 sl 0x800 cap).sl = sl := by simp [argsOf, Args.sl]; omega
  have h3 : (argsOf 256 0 sl 0x800 cap).dc = cap := by simp [argsOf, Args.dc]; omega
  have h4 : (argsOf 256 0 sl 0x800 cap).sa = 0 := rfl
  have h5 : (argsOf 256 0 sl 0x800 cap).da = 0x800 := rfl
  refine regionsOk_of_regionCheck (u := ()) (regionCheck_eq_ok.2 ?_)
  omega

theorem witness_DecodeReportsHeader :
    (∃ x, (decBusy [] 23 0).engine = .busy .decode x ∧ RegionsOk (decBusy [] 23 0).memBytes x ∧ x.sl < 24) ∧
      (∃ x, (decBusy (patched 8 (leBytes 4 0)) 44 24).engine = .busy .decode x ∧ 24 ≤ x.sl ∧
        RegionsOk (decBusy (patched 8 (leBytes 4 0)) 44 24).memBytes x ∧
        memRead (decBusy (patched 8 (leBytes 4 0)) 44 24).mem.readByte (x.sa + 8) 4 = 0) ∧
      memRead (decBusy (patched 8 (leBytes 4 0x1000001)) 44 24).mem.readByte 8 4 = 2 ^ 24 + 1 ∧
      (1 ≤ memRead (decBusy (patched 8 (leBytes 4 2)) 44 24).mem.readByte 8 4 ∧
        memRead (decBusy (patched 8 (leBytes 4 2)) 44 24).mem.readByte 8 4 ≤ 2 ^ 24 ∧
        memRead (decBusy (patched 8 (leBytes 4 2)) 44 24).mem.readByte 8 4 <
          memRead (decBusy (patched 8 (leBytes 4 2)) 44 24).mem.readByte 12 4) :=
  ⟨⟨_, rfl, regionsOk_dec 23 0 (by decide) (by decide), by decide⟩,
    ⟨_, rfl, by decide, regionsOk_dec 44 24 (by decide) (by decide), by decide +kernel⟩, by decide +kernel, by decide +kernel⟩

theorem witness_DecodeReportsHeader_regions :
    4096 < (argsOf 256 4053 44 0 24).sa + (argsOf 256 4053 44 0 24).sl ∧
      4096 < (argsOf 256 0 44 4000 97).da + (argsOf 256 0 44 4000 97).dc ∧
      ∃ a, inRegion (argsOf 256 100 44 77 24).sa (argsOf 256 100 44 77 24).sl a = true ∧
        inRegion (argsOf 256 100 44 77 24).da (argsOf 256 100 44 77 24).dc a = true :=
  ⟨by decide, by decide, 100, by decide⟩

theorem prefixTable_E1 : PrefixTable 256 tableE1 := ⟨by decide, by decide, by decide, by decide⟩

theorem prefixTable_first : PrefixTable 0x43 (tableE1.take 2) := ⟨by decide, by decide, by decide, by decide⟩

/-- E1's container as memory, with the bytes from offset i replaced. -/
def memE1 (i : Nat) (bs : List Byte) : Nat → Byte := (Memory.writeBytes [] 0 (patched i bs)).readByte

theorem recordsAt_first (rd : Nat → Byte) (h : ∀ o < 36, rd o = (containerE1.getD o 0)) :
    recordsAt rd (0 + 24) (tableE1.take 2) := by
  have h' : ∀ a n, a + n ≤ 36 → memRead rd a n = memRead (containerE1.getD · 0) a n := by
    intro a n hn; exact memRead_congr fun o ho => h (a + o) (by omega)
  refine ⟨?_, ?_, ?_, ?_, ?_, ?_, trivial⟩
  · rw [h' _ _ (by decide)]; decide +kernel
  · rw [h' _ _ (by decide)]; decide +kernel
  · show [packedBit rd 29 0] = _; unfold packedBit; rw [h _ (by decide)]; decide +kernel
  · rw [h' _ _ (by decide)]; decide +kernel
  · rw [h' _ _ (by decide)]; decide +kernel
  · show [packedBit rd 35 0, packedBit rd 35 1] = _; unfold packedBit; rw [h _ (by decide)]; decide +kernel

/-- The third record of E1's container at offset 36: its head one byte too long, its symbol at the alphabet size, its code
of length 0, its code bytes one byte too long, its symbol a repeated one, its code a conflicting one. -/
theorem witness_DecodeReportsTheFirstBadRecord :
    recordsAt (memE1 0 []) (0 + 24) (tableE1.take 2) ∧ 24 + recordsSize (tableE1.take 2) ≤ 40 ∧
      trieNodes (tableE1.take 2) ≤ 4 ∧ 40 < 36 + 5 ∧ (36 + 5 ≤ 41 ∧ 0x43 ≤ memRead (memE1 0 []) (0 + 36) 4) ∧
      (memRead (memE1 40 [0#8]) (0 + 36 + 4) 1 = 0) ∧
      (1 ≤ memRead (memE1 0 []) (0 + 36 + 4) 1 ∧ 41 < 36 + 5 + ceil8 (memRead (memE1 0 []) (0 + 36 + 4) 1)) ∧
      (36 + 5 + ceil8 (memRead (memE1 0 []) (0 + 36 + 4) 1) ≤ 42) ∧
      memRead (memE1 36 [0x41#8]) (0 + 36) 4 ∈ (tableE1.take 2).map (·.1) ∧
      (memRead (memE1 41 [0xC0#8]) (0 + 36) 4 ∉ (tableE1.take 2).map (·.1) ∧
        conflicts (tableE1.take 2) (unpackBits (memE1 41 [0xC0#8]) (0 + 36 + 5) 2)) := by
  refine ⟨recordsAt_first _ (by decide +kernel), by decide, by decide, by decide, by decide +kernel, by decide +kernel,
    by decide +kernel, by decide +kernel, by decide +kernel, by decide +kernel, (0x42, [true, true]), by decide, .inl ?_⟩
  decide +kernel

theorem witness_FirstBadRecord_in_range : memRead (memE1 0 []) (0 + 36) 4 < 256 ∧ PrefixTable 256 (tableE1.take 2) :=
  ⟨by decide +kernel, by decide, by decide, by decide, by decide⟩

theorem rd_patched {i : Nat} {bs : List Byte} (h : ∀ o < 36, (memE1 i bs) o = containerE1.getD o 0) (sl : Nat) :
    ∃ (s : State) (x : Args), s.engine = .busy .decode x ∧ s.mem.readByte = memE1 i bs ∧ x.sa = 0 ∧ x = argsOf 256 0 sl 0x800 24 ∧
      s.memBytes = 4096 ∧ memRead s.mem.readByte (x.sa + 8) 4 = 256 ∧ memRead s.mem.readByte (x.sa + 12) 4 = 3 ∧
      recordsAt s.mem.readByte (x.sa + 24) (tableE1.take 2) := by
  have h' : ∀ a n, a + n ≤ 36 → memRead (memE1 i bs) a n = memRead (containerE1.getD · 0) a n := by
    intro a n hn; exact memRead_congr fun o ho => h (a + o) (by omega)
  refine ⟨decBusy (patched i bs) sl 24, _, rfl, rfl, rfl, rfl, rfl, ?_, ?_, recordsAt_first _ h⟩
  · exact (h' (0 + 8) 4 (by decide)).trans (by decide +kernel)
  · exact (h' (0 + 12) 4 (by decide)).trans (by decide +kernel)

/-- The states of a running DECODE of those containers, at the lengths of the witness above: regions, header and the first
two records are accepted in each. -/
theorem witness_DecodeReportsTheFirstBadRecord_running :
    (∀ i bs, (∀ o < 36, (memE1 i bs) o = containerE1.getD o 0) → ∀ sl ≤ 44,
      ∃ (s : State) (x : Args), s.engine = .busy .decode x ∧ s.mem.readByte = memE1 i bs ∧ x.sa = 0 ∧ x.sl = sl ∧
        RegionsOk s.memBytes x ∧ memRead s.mem.readByte (x.sa + 8) 4 = 256 ∧ memRead s.mem.readByte (x.sa + 12) 4 = 3 ∧
        (tableE1.take 2).length < 3 ∧ recordsAt s.mem.readByte (x.sa + 24) (tableE1.take 2)) ∧
      (∀ o < 36, (memE1 0 []) o = containerE1.getD o 0) ∧ (∀ o < 36, (memE1 40 [0#8]) o = containerE1.getD o 0) ∧
      (∀ o < 36, (memE1 36 [0x41#8]) o = containerE1.getD o 0) ∧ (∀ o < 36, (memE1 41 [0xC0#8]) o = containerE1.getD o 0) ∧
      256 ≤ memRead (memE1 37 [1#8]) 36 4 ∧ (∀ o < 36, (memE1 37 [1#8]) o = containerE1.getD o 0) := by
  refine ⟨?_, by decide +kernel, by decide +kernel, by decide +kernel, by decide +kernel, by decide +kernel, by decide +kernel⟩
  intro i bs h sl hsl
  obtain ⟨s, x, h1, h2, h3, rfl, h5, h6, h7, h8⟩ := rd_patched h sl
  refine ⟨s, _, h1, h2, h3, ?_, ?_, h6, h7, by decide, h8⟩
  · show (BitVec.ofNat 32 sl).toNat = sl
    rw [BitVec.toNat_ofNat]; omega
  · rw [h5]; exact regionsOk_dec sl 24 (by omega) (by decide)

/-- E1's container in memory, whole. -/
theorem containerAt_E1 {rd : Nat → Byte} (h : ∀ o < 44, rd o = containerE1.getD o 0) :
    ContainerAt rd 0 6 256 tableE1 payloadE1 := by
  have h' : ∀ a n, a + n ≤ 44 → memRead rd a n = memRead (containerE1.getD · 0) a n := by
    intro a n hn; exact memRead_congr fun o ho => h (a + o) (by omega)
  have hb : ∀ a n, a + n / 8 < 44 → unpackBits rd a n = unpackBits (containerE1.getD · 0) a n := by
    intro a n hn
    refine List.map_congr_left ?_
    intro i hi
    have := List.mem_range.1 hi
    unfold packedBit
    rw [h _ (by omega)]
  refine ⟨?_, ?_, ?_, ?_, ⟨?_, ?_, ?_, ?_, ?_, ?_, ?_, ?_, ?_, trivial⟩, ?_⟩
  all_goals first
    | (rw [h' _ _ (by decide)]; decide +kernel)
    | (rw [hb _ _ (by decide)]; decide +kernel)

theorem rd_dec (sl cap : Nat) : ∀ o < 44, (decBusy containerE1 sl cap).mem.readByte o = containerE1.getD o 0 := by
  show ∀ o < 44, (Memory.writeBytes [] 0 containerE1).readByte o = containerE1.getD o 0
  decide +kernel

theorem witness_DecodeReportsShortPayloadAndSmallDestination :
    recordsAt (decBusy containerE1 43 24).mem.readByte (0 + 24) tableE1 ∧ PrefixTable 256 tableE1 ∧ trieNodes tableE1 ≤ 2 ^ 25 ∧
      RegionsOk 4096 (argsOf 256 0 43 0x800 24) ∧ 24 + recordsSize tableE1 ≤ 43 ∧
      43 < 24 + recordsSize tableE1 + ceil8 9 ∧ 24 + recordsSize tableE1 + ceil8 9 ≤ 44 ∧
      RegionsOk 4096 (argsOf 256 0 44 0x800 23) ∧ (argsOf 256 0 44 0x800 23).dc < 4 * 6 :=
  ⟨(containerAt_E1 (rd_dec 43 24)).records, prefixTable_E1, by decide, regionsOk_dec _ _ (by decide) (by decide), by decide,
    by decide, by decide, regionsOk_dec _ _ (by decide) (by decide), by decide⟩

/-- Rows D44 and D45: an empty table, no bit left and a bit with no child. -/
theorem witness_DecodeReportsExhaustionAndNullChild :
    PrefixTable 256 [] ∧ insideTrie [] [] ∧ trieNodes [] ≤ 2 ^ 25 ∧
      ContainerAt ((Memory.writeBytes [] 0 (headerBytes 1 256 0 0)).readByte) 0 1 256 [] [] ∧
      ContainerAt ((Memory.writeBytes [] 0 (headerBytes 1 256 0 1 ++ [0#8])).readByte) 0 1 256 [] [false] ∧
      ([] : Bits) = bitsOf [] [] ++ [] ∧ [false] = bitsOf [] [] ++ [] ++ false :: [] ∧
      RegionsOk 4096 (argsOf 256 0 25 0x800 4) ∧ containerSize [] [false] ≤ 25 ∧ 4 * 1 ≤ (argsOf 256 0 25 0x800 4).dc ∧
      ([] : List Nat).length < 1 ∧ ∃ x, (decBusy (headerBytes 1 256 0 1 ++ [0#8]) 25 4).engine = .busy .decode x := by
  refine ⟨⟨by decide, by decide, by decide, by decide⟩, .inl rfl, by decide, ?_, ?_, rfl, rfl,
    regionsOk_dec _ _ (by decide) (by decide), by decide, by decide, by decide, _, rfl⟩
  · exact ⟨by decide +kernel, by decide +kernel, by decide +kernel, by decide +kernel, trivial, by decide +kernel⟩
  · exact ⟨by decide +kernel, by decide +kernel, by decide +kernel, by decide +kernel, trivial, by decide +kernel⟩

/-- Inside E1's trie, below the root: the code "11" one bit short. -/
theorem witness_insideTrie_below_the_root : insideTrie tableE1 [true] ∧ ∀ q ∈ [0x41], q ∈ tableE1.map (·.1) :=
  ⟨.inr ⟨(0x42, [true, true]), by decide, by decide, by decide⟩, by decide⟩

theorem witness_CountingPass :
    (∀ s ∈ [0, 255], s < 256) ∧ [0, 255].length < 2 ^ Config.countW ∧ [255, 256][1]? = some 256 ∧ 256 ≤ 256 ∧ (∀ j < 1, ∀ r, [255, 256][j]? = some r → r < 256) := by
  refine ⟨by decide, by decide, by decide, by decide, ?_⟩
  intro j hj r h
  have : j = 0 := by omega
  subst this; simp at h; omega

theorem witness_ExtractMin : (pqInit ⟨[], 0⟩).entries = [] ∧ (pqInsert (pqInit ⟨[], 0⟩) 0 7).entries ≠ [] := by decide

theorem witness_BuiltTree :
    ([] : List Nat) = [] ∧ [0x41, 0x42] ≠ [] ∧ [0x41, 0x42][1]? = some 0x42 ∧
      ([0x41, 0x42].map (freqOf [(0x41, 2 ^ 63), (0x42, 2 ^ 63 - 1)])).sum < 2 ^ Config.countW := by decide

/-- Row T2's arena: when node 4 is made the leaf 1 waits beside the two it joins. -/
theorem witness_BuiltTree_waiting :
    waiting [.leaf 5 1, .leaf 7 2, .leaf 8 2, .leaf 9 1, .internal (some 0) (some 3) 2, .internal (some 1) (some 2) 4,
      .internal (some 4) (some 5) 6] 4 1 ∧ 1 ≠ 0 ∧ 1 ≠ 3 := by
  refine ⟨⟨by decide, ?_⟩, by decide, by decide⟩
  intro p hp
  have : p = 0 ∨ p = 1 ∨ p = 2 ∨ p = 3 := by omega
  rintro ⟨l, r, w, h, -⟩
  rcases this with rfl | rfl | rfl | rfl <;> cases h

/-- Row T1's tree, with no, one and three active symbols, and a path to a leaf. -/
theorem witness_CodesAreThePaths :
    ([] : List Nat).Nodup ∧ [0x58].Nodup ∧ [0x41, 0x42, 0x43].Nodup ∧ 2 ≤ [0x41, 0x42, 0x43].length ∧
      nodeAt [.leaf 0x41 3, .leaf 0x42 2, .leaf 0x43 1, .internal (some 2) (some 1) 3, .internal (some 0) (some 3) 6] 4
        [true, false] = some (.leaf 0x43 1) := by decide

theorem witness_GeneratedCodes : [0x41, 0x42, 0x43].Nodup ∧ [0x58] = [0x58] := by decide

/-- One symbol counted 2^30 − 1 times. -/
theorem witness_CodesAreAtMost42BitsLong :
    ∃ tree codes, [7].Nodup ∧ (∀ s ∈ [7], 1 ≤ freqOf [(7, 2 ^ 30 - 1)] s) ∧ ([7].map (freqOf [(7, 2 ^ 30 - 1)])).sum ≤ 2 ^ 30 - 1 ∧
      tbBuild [(7, 2 ^ 30 - 1)] [7] ⟨[], ⟨[], 0⟩⟩ = .ok tree ∧ ctGen tree = .ok codes :=
  ⟨_, _, by decide, by decide, by decide, rfl, rfl⟩

theorem witness_MoreFrequentSymbols :
    ∃ tree codes, [1, 2].Nodup ∧ tbBuild [(1, 3), (2, 2)] [1, 2] ⟨[], ⟨[], 0⟩⟩ = .ok tree ∧ ctGen tree = .ok codes ∧
      freqOf [(1, 3), (2, 2)] 2 < freqOf [(1, 3), (2, 2)] 1 :=
  ⟨_, _, by decide, rfl, rfl, by decide⟩

theorem witness_PackedBits : 15 < 8 * (pack (List.replicate 9 true)).length := by decide +kernel

theorem witness_ReaderGivesBack :
    bytesAt (fun _ => 0xFF#8) 5 (bwFinalize (bwPutSeq (bwInit ⟨[], 0⟩) (List.replicate 8 true))).1 ∧
      (List.replicate 8 true)[7]? = some true ∧ 8 ≤ (List.replicate 8 true).length := by
  refine ⟨?_, by decide, by decide⟩
  show ∀ o < [0xFF#8].length, _
  decide +kernel

/-- Rows K12, K14 and K16's capacity: a repeated symbol, a conflict, and one node too few. -/
theorem witness_TrieAccepts :
    PrefixTable 256 tableE1 ∧ trieNodes tableE1 ≤ 5 ∧ 0x41 ∈ tableE1.map (·.1) ∧
      (7 ∉ tableE1.map (·.1) ∧ conflicts tableE1 [true]) ∧
      (7 ∉ (tableE1.take 2).map (·.1) ∧ ¬ conflicts (tableE1.take 2) [true, false]) ∧
      trieNodes (tableE1.take 2 ++ [(7, [true, false])]) ≤ 5 ∧ 4 < trieNodes (tableE1.take 2 ++ [(7, [true, false])]) := by
  refine ⟨prefixTable_E1, by decide, by decide, ⟨by decide, (0x42, [true, true]), by decide, .inr (by decide)⟩,
    ⟨by decide, ?_⟩, by decide, by decide⟩
  rintro ⟨e, he, h⟩
  simp [tableE1] at he
  rcases he with rfl | rfl <;> revert h <;> decide

theorem witness_CommandsReadOnlyTheSource :
    ∃ rd rd' : Nat → Byte, (∀ a, inRegion (argsOf 256 4 4 8 0).sa (argsOf 256 4 4 8 0).sl a = true → rd a = rd' a) ∧
      rd 3 ≠ rd' 3 ∧ rd 8 ≠ rd' 8 := by
  refine ⟨fun _ => 0#8, fun a => if inRegion 4 4 a then 0#8 else 1#8, ?_, by decide, by decide⟩
  intro a ha
  have : inRegion 4 4 a = true := ha
  simp [this]

theorem encodeOk_E1 (cap : Nat) (h : cap ≤ 0x800) : EncodeOk (encE1 cap).memBytes (encE1 cap).mem.readByte (encE1 cap).args := by
  refine ⟨⟨?_, ?_⟩, by show 24 % 4 = 0; decide, regionsOk_dec 24 cap (by decide) h, ?_⟩
  · show 1 ≤ (256#32).toNat; decide
  · show (256#32).toNat ≤ Config.maxAlphabet; decide
  · have h : ∀ i < 6, memRead (Memory.writeBytes [] 0 (words symbolsE1)).readByte (0 + 4 * i) 4 < 256 := by decide +kernel
    have hn : (encE1 cap).args.n = 6 := by show 24 / 4 = 6; decide
    have hA : (encE1 cap).args.A = 256 := by show (256#32).toNat = 256; decide
    have hs : (encE1 cap).args.sa = 0 := by show (0#32).toNat = 0; decide
    have hm : (encE1 cap).mem = Memory.writeBytes [] 0 (words symbolsE1) := rfl
    rw [hn, hA, hs, hm]
    exact h

/-- ENCODE with a capacity one byte too small, exact, and as R237 asks for it. -/
theorem witness_EncodeWritesTheContainer :
    (encE1 43).engine = .idle ∧ EncodeOk (encE1 43).memBytes (encE1 43).mem.readByte (encE1 43).args ∧
      43 < containerSize tableE1 (bitsOf tableE1 symbolsE1) ∧
      EncodeOk (encE1 44).memBytes (encE1 44).mem.readByte (encE1 44).args ∧
      containerSize tableE1 (bitsOf tableE1 symbolsE1) ≤ 44 :=
  ⟨rfl, encodeOk_E1 43 (by decide), by decide +kernel, encodeOk_E1 44 (by decide), by decide +kernel⟩

theorem witness_EncodeFits :
    EncodeOk (encE1 122).memBytes (encE1 122).mem.readByte (encE1 122).args ∧
      24 + 11 * min (encE1 122).args.n (encE1 122).args.A + ceil8 (42 * (encE1 122).args.n) ≤ (encE1 122).args.dc :=
  ⟨encodeOk_E1 122 (by decide), by decide⟩

/-- Rows E3 and E9: no symbol, and one symbol ten times. -/
theorem witness_EncodeOfEmptyAndOfOneSymbol :
    (EncodeOk 4096 (loaded 0 [] (argsOf 256 0 0 0x800 24)).mem.readByte (argsOf 256 0 0 0x800 24) ∧
      (argsOf 256 0 0 0x800 24).sl = 0 ∧ 24 ≤ (argsOf 256 0 0 0x800 24).dc) ∧
    (EncodeOk 4096 (loaded 0 (words (List.replicate 10 5)) (argsOf 256 0 40 0x800 32)).mem.readByte (argsOf 256 0 40 0x800 32) ∧
      (∀ i < (argsOf 256 0 40 0x800 32).n, memRead (loaded 0 (words (List.replicate 10 5)) (argsOf 256 0 40 0x800 32)).mem.readByte
        ((argsOf 256 0 40 0x800 32).sa + 4 * i) 4 = 5) ∧
      0 < (argsOf 256 0 40 0x800 32).n ∧ 30 + ceil8 (argsOf 256 0 40 0x800 32).n ≤ (argsOf 256 0 40 0x800 32).dc) := by
  refine ⟨⟨⟨by decide, rfl, regionsOk_dec 0 24 (by decide) (by decide), ?_⟩, rfl, by decide⟩,
    ⟨by decide, rfl, regionsOk_dec 40 32 (by decide) (by decide), ?_⟩, ?_, by decide, by decide⟩
  · intro i hi; exact absurd hi (Nat.not_lt_zero i)
  · show ∀ i < 10, _; decide +kernel
  · show ∀ i < 10, _; decide +kernel

theorem witness_DecodeWritesTheSymbols :
    (dec containerE1 44 24).engine = .idle ∧ RegionsOk (dec containerE1 44 24).memBytes (dec containerE1 44 24).args ∧
      ContainerAt (dec containerE1 44 24).mem.readByte (dec containerE1 44 24).args.sa symbolsE1.length 256 tableE1 payloadE1 ∧
      containerSize tableE1 payloadE1 ≤ (dec containerE1 44 24).args.sl ∧ PrefixTable 256 tableE1 ∧ trieNodes tableE1 ≤ 2 ^ 25 ∧
      (∀ q ∈ symbolsE1, q ∈ tableE1.map (·.1)) ∧ bitsOf tableE1 symbolsE1 <+: payloadE1 ∧
      4 * symbolsE1.length ≤ (dec containerE1 44 24).args.dc :=
  ⟨rfl, regionsOk_dec 44 24 (by decide) (by decide), containerAt_E1 (rd_dec 44 24), by decide, prefixTable_E1, by decide,
    by decide, by decide, by decide⟩

theorem witness_DecodeAfterEncode :
    ∃ (s t u v : State), s.engine = .idle ∧ exec .encode s = .next t ∧ engineStep t = .next u ∧ u.record.errCode = .none ∧
      v.engine = .idle ∧ v.memBytes = s.memBytes ∧
      (∀ o < u.record.resultLen.toNat, v.mem.readByte (s.args.da + o) = u.mem.readByte (s.args.da + o)) ∧
      v.args.sa = s.args.da ∧ v.args.sl = u.record.resultLen.toNat ∧ RegionsOk v.memBytes v.args ∧ s.args.sl ≤ v.args.dc := by
  obtain ⟨t, h, ht⟩ := exists_next (o := exec .encode (encE1 2048))
    (p := fun t => nextSat (engineStep t) fun u => u.record.errCode == .none && u.record.resultLen == 44#32 && u.memBytes == 4096)
    (by decide +kernel)
  obtain ⟨u, h2, hu⟩ := exists_next ht
  simp only [Bool.and_eq_true, beq_iff_eq] at hu
  refine ⟨encE1 2048, t, u, { u with engine := .idle, args := argsOf 256 0x800 44 0x100 24 }, rfl, h, h2, hu.1.1, rfl, hu.2,
    fun _ _ => rfl, rfl, ?_, ?_, by show 24 ≤ 24; decide⟩
  · show 44 = _; rw [hu.1.2]; rfl
  · show RegionsOk u.memBytes _
    rw [hu.2]
    exact regionsOk_of_regionCheck (u := ()) rfl

/-! ## A table that fills the decode trie -/

/-- Byte o of the packed code of symbol i: the three bytes of i, then ones. -/
def bigCodeByte (i o : Nat) : Byte := if o < 3 then BitVec.ofNat 8 (i / 256 ^ o) else 0xFF#8

/-- The 255-bit code of symbol i. -/
def bigCode (i : Nat) : Bits := unpackBits (bigCodeByte i) 0 255

def bigRecords (k : Nat) : List (Nat × Bits) := (List.range k).map fun i => (i, bigCode i)

/-- Byte a of a container with alphabet 2^24 and 2^18 of these records. -/
def bigByte (a : Nat) : Byte :=
  if a < 24 then (headerBytes 0 (2 ^ 24) (2 ^ 18) 0).getD a 0
  else if (a - 24) % 37 < 4 then (leBytes 4 ((a - 24) / 37)).getD ((a - 24) % 37) 0
  else if (a - 24) % 37 = 4 then 255#8
  else bigCodeByte ((a - 24) / 37) ((a - 24) % 37 - 5)

theorem bigCode_length (i : Nat) : (bigCode i).length = 255 := by simp [bigCode, unpackBits]

/-- Two of these codes that agree on their first 24 bits belong to one symbol. -/
theorem bigCode_take_inj {i j n : Nat} (hi : i < 2 ^ 24) (hj : j < 2 ^ 24) (hn : 24 ≤ n)
    (h : (bigCode i).take n = (bigCode j).take n) : i = j := by
  have hb : ∀ o < 3, bigCodeByte i o = bigCodeByte j o := by
    intro o ho
    apply BitVec.eq_of_getLsbD_eq
    intro t ht
    have h1 := congrArg (fun l => l[8 * o + (7 - t)]?) h
    have hlt : 8 * o + (7 - t) < n := by omega
    have hlt' : 8 * o + (7 - t) < 255 := by omega
    simp only [bigCode, unpackBits, List.getElem?_take, hlt, if_true, List.getElem?_map, List.getElem?_range, hlt',
      Option.map_some, packedBit, Option.some.injEq, Nat.zero_add] at h1
    have e1 : (8 * o + (7 - t)) / 8 = o := by omega
    have e2 : 7 - (8 * o + (7 - t)) % 8 = t := by omega
    rwa [e1, e2] at h1
  have h0 := congrArg BitVec.toNat (hb 0 (by omega))
  have h1 := congrArg BitVec.toNat (hb 1 (by omega))
  have h2 := congrArg BitVec.toNat (hb 2 (by omega))
  simp [bigCodeByte] at h0 h1 h2
  omega

theorem bigCode_inj {i j : Nat} (hi : i < 2 ^ 24) (hj : j < 2 ^ 24) (h : bigCode i = bigCode j) : i = j :=
  bigCode_take_inj hi hj (Nat.le_refl 24) (by rw [h])

theorem bigRecords_succ (k : Nat) : bigRecords (k + 1) = bigRecords k ++ [(k, bigCode k)] := by
  simp [bigRecords, List.range_succ]

theorem prefix_bigCode {i j : Nat} (hi : i < 2 ^ 24) (hj : j < 2 ^ 24) (h : bigCode i <+: bigCode j) : i = j :=
  bigCode_inj hi hj (h.eq_of_length (by rw [bigCode_length, bigCode_length]))

theorem prefixTable_big {k : Nat} (hk : k ≤ 2 ^ 24) : PrefixTable (2 ^ 24) (bigRecords k) := by
  refine ⟨?_, ?_, ?_, ?_⟩
  · intro e he
    simp only [bigRecords, List.mem_map, List.mem_range] at he
    obtain ⟨i, hi, rfl⟩ := he
    exact Nat.lt_of_lt_of_le hi hk
  · intro e he
    simp only [bigRecords, List.mem_map] at he
    obtain ⟨i, -, rfl⟩ := he
    intro h
    have := bigCode_length i
    simp_all
  · unfold bigRecords
    rw [List.pairwise_map]
    exact List.pairwise_lt_range.imp fun h => Nat.ne_of_lt h
  · unfold bigRecords
    rw [List.pairwise_map]
    refine List.Pairwise.imp_of_mem ?_ List.pairwise_lt_range
    intro i j hi hj hlt
    have hi' := List.mem_range.1 hi
    have hj' := List.mem_range.1 hj
    refine ⟨fun h => ?_, fun h => ?_⟩
    · have := prefix_bigCode (by omega) (by omega) h; omega
    · have := prefix_bigCode (by omega) (by omega) h; omega

theorem recordsSize_big (k : Nat) : recordsSize (bigRecords k) = 37 * k := by
  induction k with
  | zero => rfl
  | succ k ih =>
    rw [bigRecords_succ]
    unfold recordsSize at ih ⊢
    rw [List.map_append, List.sum_append, ih]
    simp only [List.map_cons, List.map_nil, List.sum_cons, List.sum_nil, bigCode_length]
    show 37 * k + (5 + 32 + 0) = _
    omega

/-- Memory that holds `bigByte` below K holds the records that end below K. -/
theorem recordsAt_big {rd : Nat → Byte} {K : Nat} (h : ∀ a < K, rd a = bigByte a) :
    ∀ n i, i + n ≤ 2 ^ 24 → 24 + 37 * (i + n) ≤ K →
      recordsAt rd (24 + 37 * i) ((List.range' i n).map fun i => (i, bigCode i)) := by
  intro n
  induction n with
  | zero => intro i _ _; exact trivial
  | succ n ih =>
    intro i hle hK
    have hd : ∀ o < 37, rd (24 + 37 * i + o) = bigByte (24 + 37 * i + o) ∧ ¬ 24 + 37 * i + o < 24 ∧
        (24 + 37 * i + o - 24) / 37 = i ∧ (24 + 37 * i + o - 24) % 37 = o := by
      intro o ho
      exact ⟨h _ (by omega), by omega, by omega, by omega⟩
    rw [List.range'_succ, List.map_cons]
    refine ⟨?_, ?_, ?_, ?_⟩
    · have : bytesAt rd (24 + 37 * i) (leBytes 4 i) := by
        intro o ho
        have ho : o < 4 := by simpa using ho
        obtain ⟨h1, h2, h3, h4⟩ := hd o (by omega)
        rw [h1, bigByte, if_neg h2, h4, if_pos ho, h3]
      rw [memRead_of_leBytes this]
      exact Nat.mod_eq_of_lt (by omega)
    · obtain ⟨h1, h2, h3, h4⟩ := hd 4 (by omega)
      rw [bigCode_length, memRead, memRead, h1, bigByte, if_neg h2, h4]
      simp
    · rw [bigCode_length]
      refine List.map_congr_left ?_
      intro b hb
      have hb : b < 255 := List.mem_range.1 hb
      obtain ⟨h1, h2, h3, h4⟩ := hd (5 + b / 8) (by omega)
      unfold packedBit
      rw [Nat.add_assoc, h1, bigByte, if_neg h2, h4, if_neg (by omega), if_neg (by omega), h3]
      congr 2
      omega
    · have e : 24 + 37 * i + 5 + ceil8 (bigCode i).length = 24 + 37 * (i + 1) := by
        rw [bigCode_length]; show 24 + 37 * i + 5 + 32 = _; omega
      rw [e]
      exact ih (i + 1) (by omega) (by omega)

/-- The prefixes of 25 to 255 bits of the first k codes are pairwise different, so the trie has a node for each. -/
theorem trieNodes_big {k : Nat} (hk : k ≤ 2 ^ 24) : k * 231 < trieNodes (bigRecords k) := by
  have hlen : ∀ i, ∀ m < 231, ((bigCode i).take (24 + m + 1)).length = 24 + m + 1 := by
    intro i m hm
    rw [List.length_take, bigCode_length]
    omega
  have hnd : ((List.range k).flatMap fun i => (List.range 231).map fun m => (bigCode i).take (24 + m + 1)).Nodup := by
    refine List.pairwise_flatMap.2 ⟨?_, ?_⟩
    · intro i _
      rw [List.pairwise_map]
      refine List.Pairwise.imp_of_mem ?_ List.pairwise_lt_range
      intro m n hm hn hlt heq
      have := congrArg List.length heq
      rw [hlen _ _ (List.mem_range.1 hm), hlen _ _ (List.mem_range.1 hn)] at this
      omega
    · refine List.Pairwise.imp_of_mem ?_ List.pairwise_lt_range
      intro i j hi hj hlt x hx y hy heq
      subst heq
      simp only [List.mem_map, List.mem_range] at hi hj hx hy
      obtain ⟨m, hm, rfl⟩ := hx
      obtain ⟨n, hn, h⟩ := hy
      have hmn := congrArg List.length h
      rw [hlen _ _ hm, hlen _ _ hn] at hmn
      have hmn : n = m := by omega
      subst hmn
      have := bigCode_take_inj (by omega) (by omega) (by omega) h
      omega
  have hle := hnd.length_le_of_subset (l₂ := ((bigRecords k).flatMap fun e =>
    (List.range e.2.length).map fun i => e.2.take (i + 1)).eraseDups) (by
      intro x hx
      rw [List.mem_eraseDups]
      simp only [List.mem_flatMap, List.mem_map, List.mem_range, bigRecords] at hx ⊢
      obtain ⟨i, hi, m, hm, rfl⟩ := hx
      exact ⟨(i, bigCode i), ⟨i, hi, rfl⟩, 24 + m, by rw [bigCode_length]; omega, rfl⟩)
  have hl : ((List.range k).flatMap fun i => (List.range 231).map fun m => (bigCode i).take (24 + m + 1)).length = k * 231 := by
    simp [List.length_flatMap, List.map_const']
  rw [hl] at hle
  unfold trieNodes
  omega

/-- A property that holds of 0 and not of n stops holding somewhere between. -/
theorem exists_last (P : Nat → Prop) (n : Nat) (h0 : P 0) (hn : ¬ P n) : ∃ k < n, P k ∧ ¬ P (k + 1) := by
  induction n with
  | zero => exact absurd h0 hn
  | succ n ih =>
    by_cases h : P n
    · exact ⟨n, Nat.lt_succ_self n, h, hn⟩
    · obtain ⟨k, hk, h1⟩ := ih h
      exact ⟨k, Nat.lt_succ_of_lt hk, h1⟩

/-- A list of memory cells below K reads as the function it was made from. -/
theorem readByte_range (g : Nat → Byte) (K a : Nat) (ha : a < K) :
    Memory.readByte ((List.range K).map fun a => (a, g a)) a = g a := by
  unfold Memory.readByte
  rw [mapGet_of_mem (v := g a)]
  · rfl
  · rw [List.pairwise_map]; exact List.pairwise_lt_range
  · exact List.mem_map.2 ⟨a, List.mem_range.2 ha, rfl⟩

/-- A running DECODE of the first bytes of that container. -/
def bigState (K : Nat) : State :=
  { State.reset with
    memBytes := 2 ^ 24
    engine := .busy .decode (argsOf 256 0 K 0 0)
    lastCmd := 2
    mem := (List.range K).map fun a => (a, bigByte a) }

/-- A table with a full trie: its records are accepted, and the next one, whose symbol and code are new, needs more nodes
than DEC_NODE_CAP. -/
theorem witness_DecodeReports_full_arena :
    ∃ (s : State) (x : Args) (recs : List (Nat × Bits)) (sym : Nat) (c : Bits), s.engine = .busy .decode x ∧
      RegionsOk s.memBytes x ∧ memRead s.mem.readByte (x.sa + 8) 4 = 2 ^ 24 ∧
      memRead s.mem.readByte (x.sa + 12) 4 ≤ 2 ^ 24 ∧ recs.length < memRead s.mem.readByte (x.sa + 12) 4 ∧
      PrefixTable (2 ^ 24) recs ∧ recordsAt s.mem.readByte (x.sa + 24) recs ∧ 24 + recordsSize recs ≤ x.sl ∧
      trieNodes recs ≤ 2 ^ 25 ∧ sym = memRead s.mem.readByte (x.sa + (24 + recordsSize recs)) 4 ∧
      memRead s.mem.readByte (x.sa + (24 + recordsSize recs) + 4) 1 = 255 ∧
      c = unpackBits s.mem.readByte (x.sa + (24 + recordsSize recs) + 5) 255 ∧
      24 + recordsSize recs + 5 + ceil8 255 ≤ x.sl ∧ sym < 2 ^ 24 ∧ sym ∉ recs.map (·.1) ∧ ¬ conflicts recs c ∧
      2 ^ 25 < trieNodes (recs ++ [(sym, c)]) := by
  obtain ⟨k, hk, h1, h2⟩ := exists_last (fun k => trieNodes (bigRecords k) ≤ 2 ^ 25) (2 ^ 18) (by decide) (by
    have := trieNodes_big (k := 2 ^ 18) (by decide)
    omega)
  have hk : k < 262144 := hk
  have hsl : (argsOf 256 0 (24 + 37 * (k + 1)) 0 0).sl = 24 + 37 * (k + 1) := by
    show (BitVec.ofNat 32 (24 + 37 * (k + 1))).toNat = _
    rw [BitVec.toNat_ofNat]; omega
  have hsa : (argsOf 256 0 (24 + 37 * (k + 1)) 0 0).sa = 0 := rfl
  have hrd : ∀ a < 24 + 37 * (k + 1), (bigState (24 + 37 * (k + 1))).mem.readByte a = bigByte a :=
    fun a ha => readByte_range bigByte _ a ha
  have hhd : ∀ a n, a + n ≤ 24 → memRead (bigState (24 + 37 * (k + 1))).mem.readByte a n =
      memRead (fun a => (headerBytes 0 (2 ^ 24) (2 ^ 18) 0).getD a 0) a n := by
    intro a n h
    refine memRead_congr fun o ho => ?_
    rw [hrd _ (by omega), bigByte, if_pos (by omega)]
  have hA : memRead (bigState (24 + 37 * (k + 1))).mem.readByte (0 + 8) 4 = 2 ^ 24 := by
    rw [hhd _ _ (by decide)]; decide +kernel
  have hN : memRead (bigState (24 + 37 * (k + 1))).mem.readByte (0 + 12) 4 = 2 ^ 18 := by
    rw [hhd _ _ (by decide)]; decide +kernel
  have hrec := recordsAt_big hrd (k + 1) 0 (by omega) (by omega)
  have hrec1 := recordsAt_big hrd k 0 (by omega) (by omega)
  have hrec2 := recordsAt_big hrd 1 k (by omega) (by omega)
  obtain ⟨r1, r2, r3, -⟩ := hrec2
  rw [bigCode_length] at r2 r3
  rw [← List.range_eq_range'] at hrec1
  have hp := prefixTable_big (k := k + 1) (by omega)
  rw [bigRecords_succ] at hp
  refine ⟨bigState (24 + 37 * (k + 1)), argsOf 256 0 (24 + 37 * (k + 1)) 0 0, bigRecords k, k, bigCode k, rfl, ?_, hA, ?_, ?_,
    prefixTable_big (by omega), hrec1, ?_, h1, ?_, ?_, ?_, ?_, by omega, ?_, ?_, ?_⟩
  · refine regionsOk_of_regionCheck (u := ()) (regionCheck_eq_ok.2 ?_)
    rw [hsl, hsa]
    show 0 + _ ≤ 2 ^ 24 ∧ 0 + 0 ≤ 2 ^ 24 ∧ ¬ (_ ∧ 0 < 0 ∧ _)
    omega
  · rw [hsa, hN]; decide
  · rw [hsa, hN]; simp [bigRecords]; exact hk
  · rw [recordsSize_big, hsl]; omega
  · rw [recordsSize_big, hsa, Nat.zero_add]; exact r1.symm
  · rw [recordsSize_big, hsa, Nat.zero_add]; exact r2
  · rw [recordsSize_big, hsa, Nat.zero_add]; exact r3.symm
  · rw [recordsSize_big, hsl]; show 24 + 37 * k + 5 + 32 ≤ _; omega
  · intro h
    obtain ⟨e, he, heq⟩ := List.mem_map.1 h
    exact (List.pairwise_append.1 hp.distinct).2.2 e he _ (List.mem_singleton.2 rfl) heq
  · rintro ⟨e, he, h⟩
    have := (List.pairwise_append.1 hp.noPrefix).2.2 e he _ (List.mem_singleton.2 rfl)
    exact h.elim this.1 this.2
  · rw [← bigRecords_succ]; omega

end Sys2Proof.Tests
end

section
/-! PROOFS of the state family (10_state.md): the CSR port, the issue of a command, and the step rules of BUSY, DONE, OVR
and LASTCMD. -/

namespace Sys2Proof

/-! ## Command words -/

theorem commandOf_eq_some_iff (op : BitVec 8) (i : Instr) : commandOf op = some i ↔ op = opcode i := by
  constructor
  · intro h
    refine BitVec.eq_of_toNat_eq ?_
    unfold commandOf at h
    split at h <;> cases h <;> assumption
  · rintro rfl
    cases i <;> rfl

theorem rsvdOf_append_opcodeOf (w : Word) : rsvdOf w ++ opcodeOf w = w :=
  BitVec.extractLsb'_append_extractLsb'_eq_extractLsb' rfl |>.trans BitVec.extractLsb'_eq_self

@[simp] theorem decode_encode (i : Instr) : decode (encode i) = .ok i := by cases i <;> rfl

/-- The decoder answers a command at exactly one word (30_encoding.md R81). -/
theorem decode_eq_ok_iff (w : Word) (i : Instr) : decode w = .ok i ↔ w = encode i := by
  constructor
  · intro h
    unfold decode at h
    split at h
    · cases h
    · rename_i hr
      split at h <;> cases h
      rename_i hc
      rw [← rsvdOf_append_opcodeOf w, (commandOf_eq_some_iff _ _).1 hc, Decidable.not_not.1 hr]
      rfl
  · rintro rfl
    exact decode_encode i

@[simp] theorem encode_inj {i j : Instr} : encode i = encode j ↔ i = j := by
  rw [← decode_eq_ok_iff, decode_encode, Except.ok.injEq]

/-- A word names one command or none. -/
theorem word_cases (w : Word) : (∃ i, w = encode i) ∨ ((∀ i, w ≠ encode i) ∧ ∃ e, decode w = .error e) := by
  cases h : decode w with
  | ok i => exact .inl ⟨i, (decode_eq_ok_iff w i).1 h⟩
  | error e =>
    refine .inr ⟨?_, e, rfl⟩
    rintro i rfl
    rw [decode_encode] at h
    cases h

end Sys2Proof

namespace Sys2Proof.Machine

/-! ## What an accepted word does -/

/-- The effect of an accepted command (47_control_commands.md R291 to R293, 10_state.md R51). -/
def State.accepted (s : State) : Instr → State
  | .nop => (s.acceptWord (opcode .nop)).setDone
  | .encode => s.issue .encode (opcode .encode)
  | .decode => s.issue .decode (opcode .decode)
  | .clear => (s.clearRecord.acceptWord (opcode .clear)).setDone
  | .softReset => s.resetRegs

/-- The effect of an accepted word: its command's, or the report of an illegal word (47_control_commands.md R294, R295). -/
def State.acceptedWord (s : State) (w : Word) : State :=
  match decode w with
  | .ok i => s.accepted i
  | .error _ => (s.clearRecord.acceptWord (opcodeOf w)).report ⟨.illegalCommand, 0, 0, w.toNat⟩

@[simp] theorem State.acceptedWord_encode (s : State) (i : Instr) : s.acceptedWord (encode i) = s.accepted i := by
  simp [State.acceptedWord]

theorem State.acceptedWord_illegal (s : State) {w : Word} {e : DecodeReject} (h : decode w = .error e) :
    s.acceptedWord w = (s.clearRecord.acceptWord (opcodeOf w)).report ⟨.illegalCommand, 0, 0, w.toNat⟩ := by
  simp [State.acceptedWord, h]

theorem exec_eq_dispatch_accepted (i : Instr) (s : State) : exec i s = dispatch (fun s => s.accepted i) s := by
  cases i <;> rfl

theorem exec_idle {s : State} (h : s.engine = .idle) (i : Instr) : exec i s = .next (s.accepted i) :=
  (exec_eq_dispatch_accepted i s).trans (dispatch_idle h _)

theorem cmdWrite_idle {s : State} (h : s.engine = .idle) (w : Word) : cmdWrite w s = .next (s.acceptedWord w) := by
  cases hd : decode w with
  | ok i => simp only [cmdWrite, State.acceptedWord, hd, exec_idle h]
  | error e => simp only [cmdWrite, State.acceptedWord, hd, illegalWord, dispatch_idle h]

theorem State.acceptedWord_busy (s : State) (w : Word) (h : s.engine = .idle) :
    (s.acceptedWord w).busy = true ↔ w = encode .encode ∨ w = encode .decode := by
  obtain ⟨i, rfl⟩ | ⟨hw, e, he⟩ := word_cases w
  · cases i <;> simp [State.accepted, State.busy, h]
  · simp [s.acceptedWord_illegal he, State.busy, hw]

theorem State.acceptedWord_done (s : State) (w : Word) :
    (s.acceptedWord w).done = true ↔ w ∉ [encode .encode, encode .decode, encode .softReset] := by
  obtain ⟨i, rfl⟩ | ⟨hw, e, he⟩ := word_cases w
  · cases i <;> simp [State.accepted]
  · simp [s.acceptedWord_illegal he, hw]

theorem State.acceptedWord_ovr (s : State) (w : Word) :
    (s.acceptedWord w).ovr = true ↔ s.ovr = true ∧ w ≠ encode .softReset := by
  obtain ⟨i, rfl⟩ | ⟨hw, e, he⟩ := word_cases w
  · cases i <;> simp [State.accepted]
  · simp [s.acceptedWord_illegal he, hw]

@[simp] theorem opcodeOf_encode (i : Instr) : opcodeOf (encode i) = opcode i := by cases i <;> rfl

theorem State.acceptedWord_lastCmd (s : State) (w : Word) :
    (s.acceptedWord w).lastCmd = if w = encode .softReset then 0 else opcodeOf w := by
  obtain ⟨i, rfl⟩ | ⟨hw, e, he⟩ := word_cases w
  · cases i <;> simp [State.accepted]
  · simp [s.acceptedWord_illegal he, hw]

/-! ## The completion step -/

/-- A running command that completes leaves the engine IDLE and DONE set, within the frame of a completion. -/
theorem engineStep_busy_next {s t : State} (hb : s.busy = true) (h : engineStep s = .next t) :
    t.engine = .idle ∧ t.done = true ∧ SameForCompletion s t := by
  obtain ⟨hi, -⟩ | ⟨cmd, x, -, ⟨out, -, rfl⟩ | ⟨e, -, rfl⟩⟩ := engineStep_eq_next h
  · rw [s.busy_eq_false_iff.2 hi] at hb
    cases hb
  · exact ⟨rfl, rfl, .succeed s x out⟩
  · exact ⟨rfl, rfl, .report s e⟩

/-- The completion step reads and writes neither IE, nor the argument CSRs, nor OVR (10_state.md R51,
47_control_commands.md R297, R299). -/
theorem engineStep_hostFields {s u : State} (h : engineStep s = .next u) (ie ovr : Bool) (a : Args) :
    engineStep { s with ie := ie, ovr := ovr, args := a } = .next { u with ie := ie, ovr := ovr, args := a } := by
  obtain ⟨hi, rfl⟩ | ⟨cmd, x, hb, hr⟩ := engineStep_eq_next h
  · exact engineStep_idle hi
  · have hs : engineStep { s with ie := ie, ovr := ovr, args := a } =
        finish x (s.commandResult cmd x) { s with ie := ie, ovr := ovr, args := a } := engineStep_busy hb
    obtain ⟨out, hr, rfl⟩ | ⟨e, hr, rfl⟩ := hr <;> rw [hs, hr] <;> rfl

/-! ## The next event -/

/-- The next event is a write to one CSR, of one word. -/
theorem State.nextWrites.iff {s : State} {n m : CsrName} {v w : Word} (h : s.nextWrites n w) :
    s.nextWrites m v ↔ n = m ∧ v = w := by
  obtain ⟨off, rest, hin, hn⟩ := h
  rw [State.nextWrites_iff hin, hn, Option.some.injEq]

theorem State.nextWrites.not_nextResets {s : State} {n : CsrName} {w : Word} (h : s.nextWrites n w) :
    ¬ s.nextResets := by
  obtain ⟨off, rest, hin, -⟩ := h
  simp [State.nextResets, hin]

theorem State.nextWrites.not_nextCompletes {s : State} {n : CsrName} {w : Word} (h : s.nextWrites n w) :
    ¬ s.nextCompletes := by
  obtain ⟨off, rest, hin, -⟩ := h
  simp [State.nextCompletes, hin]

theorem State.nextCompletes.not_nextResets {s : State} (h : s.nextCompletes) : ¬ s.nextResets := by
  obtain hin | ⟨rest, hin⟩ := h <;> simp [State.nextResets, hin]

theorem State.nextCompletes.not_nextWrites {s : State} (h : s.nextCompletes) (n : CsrName) (w : Word) :
    ¬ s.nextWrites n w := fun hw => hw.not_nextCompletes h

theorem State.nextResets.not_nextCompletes {s : State} (h : s.nextResets) : ¬ s.nextCompletes :=
  fun hc => hc.not_nextResets h

theorem State.nextResets.not_nextWrites {s : State} (h : s.nextResets) (n : CsrName) (w : Word) :
    ¬ s.nextWrites n w := fun hw => hw.not_nextResets h

/-- The next event is none that moves the engine, STATUS or the record: it is neither the engine's turn, nor a hardware
reset, nor a write to CMD or STATUS. -/
structure State.NextIsPlain (s : State) : Prop where
  notCompletes : ¬ s.nextCompletes
  notResets : ¬ s.nextResets
  notCmd : ∀ w, ¬ s.nextWrites .cmd w
  notStatus : ∀ w, ¬ s.nextWrites .status w

/-- Two states that agree on the engine and on what STATUS and the record hold. -/
structure SameControl (s t : State) : Prop where
  engine : t.engine = s.engine
  done : t.done = s.done
  ovr : t.ovr = s.ovr
  lastCmd : t.lastCmd = s.lastCmd
  record : t.record = s.record

theorem SameControl.busy {s t : State} (h : SameControl s t) : t.busy = s.busy := by
  unfold State.busy; rw [h.engine]

theorem State.NextIsPlain.of_event {s : State} {e : Event} {rest : List Event} (hin : s.inputs = e :: rest)
    (hr : e ≠ .hwReset) (hc : e ≠ .engineSlot) (hw : ∀ off w, e ≠ .csrWrite off w) : s.NextIsPlain where
  notCompletes := by simp [State.nextCompletes, hin, hc]
  notResets := by simp [State.nextResets, hin, hr]
  notCmd := s.not_nextWrites (by simp [hin, hw]) .cmd
  notStatus := s.not_nextWrites (by simp [hin, hw]) .status

theorem State.NextIsPlain.of_csrWrite {s : State} {off : BitVec 12} {w : Word} {rest : List Event}
    (hin : s.inputs = .csrWrite off w :: rest) (hc : csrAt off ≠ some .cmd) (hs : csrAt off ≠ some .status) :
    s.NextIsPlain where
  notCompletes := by simp [State.nextCompletes, hin]
  notResets := by simp [State.nextResets, hin]
  notCmd v := by simp [State.nextWrites_iff hin, hc]
  notStatus v := by simp [State.nextWrites_iff hin, hs]

/-- What a step can do to the engine, STATUS and the record. -/
inductive ControlStep (s t : State) : Prop where
  /-- The engine's turn while BUSY: the running command completes (20_memory.md R70). -/
  | completes (hn : s.nextCompletes) (hb : s.busy = true) (ht : engineStep s.popped = .next t)
  /-- The engine's turn while IDLE: nothing happens (60_exceptions.md R335). -/
  | idles (hn : s.nextCompletes) (hb : s.busy = false) (ht : SameControl s t)
  /-- A word is written to CMD while BUSY and dropped (47_control_commands.md R297). -/
  | overruns (w : Word) (hn : s.nextWrites .cmd w) (hb : s.busy = true) (ht : t = s.popped.overrun)
  /-- A word is written to CMD while IDLE and accepted (47_control_commands.md R295). -/
  | accepts (w : Word) (hn : s.nextWrites .cmd w) (hb : s.busy = false) (ht : t = s.popped.acceptedWord w)
  /-- A word is written to STATUS (10_state.md R31). -/
  | acknowledges (w : Word) (hn : s.nextWrites .status w) (ht : t = s.popped.acknowledge w)
  /-- Hardware reset (70_reset_and_hazards.md R340). -/
  | resets (hn : s.nextResets) (ht : t = s.popped.hardReset)
  /-- Any other event. -/
  | plain (hn : s.NextIsPlain) (ht : SameControl s t)

/-- A write to CMD or STATUS issues, drops or acknowledges; a write to any other CSR moves none of these fields. -/
theorem controlStep_of_csrWrite {s t : State} {off : BitVec 12} {w : Word} {rest : List Event} {n : CsrName}
    (hin : s.inputs = .csrWrite off w :: rest) (hoff : csrAt off = some n) (h : csrWriteTo n w s.popped = .next t) :
    ControlStep s t := by
  obtain ⟨hcmd, hstatus, ht⟩ | ⟨rfl, rfl⟩ | ⟨rfl, hcw⟩ := csrWriteTo_eq_next h
  · refine .plain (.of_csrWrite hin (by simpa [hoff] using hcmd) (by simpa [hoff] using hstatus)) ?_
    obtain rfl | ⟨-, rfl⟩ | ⟨-, -, -, ht⟩ := ht
    · exact ⟨rfl, rfl, rfl, rfl, rfl⟩
    · exact ⟨rfl, rfl, rfl, rfl, rfl⟩
    · rw [ht]; exact ⟨rfl, rfl, rfl, rfl, rfl⟩
  · exact .acknowledges w ⟨off, rest, hin, hoff⟩ rfl
  · have hn : s.nextWrites .cmd w := ⟨off, rest, hin, hoff⟩
    cases hb : s.busy with
    | true =>
      rw [cmdWrite_busy (s := s.popped) hb, Host.Outcome.next.injEq] at hcw
      exact .overruns w hn hb hcw.symm
    | false =>
      rw [cmdWrite_idle (s := s.popped) (s.busy_eq_false_iff.1 hb), Host.Outcome.next.injEq] at hcw
      exact .accepts w hn hb hcw.symm

/-- Every step that answers a next state is one of these (20_memory.md R70, R71). -/
theorem step_control {s t : State} (h : step s = .next t) : ControlStep s t := by
  obtain ⟨hn, he⟩ | ⟨off, rest, hin, rfl⟩ | ⟨off, w, rest, hin, hoff, rfl⟩ | ⟨off, w, rest, n, hin, hoff, hw⟩ |
    ⟨a, rest, hin, b, rfl⟩ | ⟨a, v, rest, hin, ht⟩ | ⟨rest, hin, rfl⟩ := step_eq_next h
  · cases hb : s.busy with
    | true => exact .completes hn hb he
    | false =>
      rw [engineStep_idle (s := s.popped) (s.busy_eq_false_iff.1 hb)] at he
      cases he
      exact .idles hn hb ⟨rfl, rfl, rfl, rfl, rfl⟩
  · exact .plain (.of_event hin nofun nofun nofun) ⟨rfl, rfl, rfl, rfl, rfl⟩
  · exact .plain (.of_csrWrite hin (by simp [hoff]) (by simp [hoff])) ⟨rfl, rfl, rfl, rfl, rfl⟩
  · exact controlStep_of_csrWrite hin hoff hw
  · exact .plain (.of_event hin nofun nofun nofun) ⟨rfl, rfl, rfl, rfl, rfl⟩
  · refine .plain (.of_event hin nofun nofun nofun) ?_
    obtain ⟨-, rfl⟩ | ⟨-, rfl⟩ := ht <;> exact ⟨rfl, rfl, rfl, rfl, rfl⟩
  · exact .resets ⟨rest, hin⟩ rfl

/-! ## The step rules of OVR, DONE, BUSY and LASTCMD -/

/-- Settles O19: OVR case by case over what a step can do to the control state. -/
theorem ovrIsSetByOverrunAndClearedOnlyAsNamed : Obligations.OvrIsSetByOverrunAndClearedOnlyAsNamed := by
  intro s t h
  cases step_control h with
  | completes hn hb ht =>
    obtain ⟨-, -, hf⟩ := engineStep_busy_next (s := s.popped) hb ht
    simp [hf.ovr, hb, hn.not_nextWrites, hn.not_nextResets]
  | idles hn hb ht => simp [ht.ovr, hb, hn.not_nextWrites, hn.not_nextResets]
  | overruns w hn hb ht => simp [ht, hb, hn.iff]
  | accepts w hn hb ht => simp [ht, hb, State.acceptedWord_ovr, hn.iff, hn.not_nextResets, eq_comm (a := w)]
  | acknowledges w hn ht => simp [ht, hn.iff, hn.not_nextResets]
  | resets hn ht => simp [ht, hn, hn.not_nextWrites]
  | plain hn ht => simp [ht.ovr, hn.notCmd, hn.notStatus, hn.notResets]

/-- Settles O20: DONE case by case over what a step can do to the control state. -/
theorem doneIsSetByCompletionAndClearedOnlyAsNamed : Obligations.DoneIsSetByCompletionAndClearedOnlyAsNamed := by
  intro s t h
  cases step_control h with
  | completes hn hb ht =>
    obtain ⟨-, hd, -⟩ := engineStep_busy_next (s := s.popped) hb ht
    simp [hd, hb, hn]
  | idles hn hb ht => simp [ht.done, hb, hn.not_nextWrites, hn.not_nextResets]
  | overruns w hn hb ht => simp [ht, hb, hn.iff, hn.not_nextResets, hn.not_nextCompletes]
  | accepts w hn hb ht =>
    rw [ht, State.acceptedWord_done]
    simp [hb, hn.iff, hn.not_nextResets]
  | acknowledges w hn ht => simp [ht, hn.iff, hn.not_nextResets, hn.not_nextCompletes]
  | resets hn ht => simp [ht, hn, hn.not_nextCompletes, hn.not_nextWrites]
  | plain hn ht => simp [ht.done, hn.notCmd, hn.notStatus, hn.notResets, hn.notCompletes]

/-- The low byte of the STATUS word, bit by bit (10_state.md R30). -/
theorem State.status_getLsbD (s : State) {i : Nat} (h : i < 8) : s.status.getLsbD i =
    [s.busy, s.done, s.err, s.record.empty, s.ovr, false, false, false].getD i false := by
  change BitVec.getLsbD (w := 8 + 8 + 8 + 3 + 1 + 1 + 1 + 1 + 1) _ i = _
  unfold State.status
  simp only [BitVec.getLsbD_append]
  obtain rfl | rfl | rfl | rfl | rfl | rfl | rfl | rfl :
    i = 0 ∨ i = 1 ∨ i = 2 ∨ i = 3 ∨ i = 4 ∨ i = 5 ∨ i = 6 ∨ i = 7 := by omega
  all_goals simp

theorem State.status_busy (s : State) : s.status.getLsbD 0 = s.busy := s.status_getLsbD (by decide)

/-- Settles O21: BUSY and the latched arguments case by case over what a step can do to the control state. -/
theorem busyFromIssueToCompletion : Obligations.BusyFromIssueToCompletion := by
  refine ⟨fun s => ?_, fun s t h => ?_⟩
  · rw [State.status_busy, ← Bool.not_eq_false, ne_eq, State.busy_eq_false_iff]
  · cases step_control h with
    | completes hn hb ht =>
      obtain ⟨he, -, -⟩ := engineStep_busy_next (s := s.popped) hb ht
      simp [t.busy_eq_false_iff.2 he, hb, hn]
    | idles hn hb ht => simp [ht.busy, hb, hn.not_nextWrites]
    | overruns w hn hb ht =>
      have he : t.engine = s.engine := by rw [ht]; rfl
      have hbt : t.busy = true := by rw [ht]; exact hb
      simp [he, hb, hbt, hn.not_nextResets, hn.not_nextCompletes]
    | accepts w hn hb ht =>
      have hi : s.popped.engine = .idle := s.busy_eq_false_iff.1 hb
      refine ⟨?_, by simp [hb], ?_, ?_⟩
      · rw [ht, State.acceptedWord_busy _ _ hi]
        simp [hb, hn.iff, eq_comm (a := w)]
      all_goals
        rintro - hw
        obtain ⟨-, rfl⟩ := hn.iff.1 hw
        rw [ht, State.acceptedWord_encode]
        rfl
    | acknowledges w hn ht =>
      have he : t.engine = s.engine := by rw [ht]; rfl
      have hbt : t.busy = s.busy := by rw [ht]; rfl
      simp [he, hbt, hn.iff, hn.not_nextResets, hn.not_nextCompletes]
    | resets hn ht =>
      have hbt : t.busy = false := by rw [State.busy_eq_false_iff, ht, State.hardReset_engine]
      simp [hbt, hn, hn.not_nextWrites]
    | plain hn ht => simp [ht.busy, ht.engine, hn.notCmd, hn.notResets, hn.notCompletes]

/-- Settles O22: LASTCMD case by case over what a step can do to the control state. -/
theorem lastCmdNamesTheLastAcceptedWord : Obligations.LastCmdNamesTheLastAcceptedWord := by
  intro s t h
  cases step_control h with
  | completes hn hb ht =>
    obtain ⟨-, -, hf⟩ := engineStep_busy_next (s := s.popped) hb ht
    simp [hf.lastCmd, hn.not_nextWrites, hn.not_nextResets]
  | idles hn hb ht => simp [ht.lastCmd, hn.not_nextWrites, hn.not_nextResets]
  | overruns w hn hb ht => simp [ht, hb, hn.not_nextResets]
  | accepts w hn hb ht =>
    refine ⟨?_, fun hr => absurd hr hn.not_nextResets, fun _ hw => ?_⟩
    · rintro v - hv
      obtain ⟨-, rfl⟩ := hn.iff.1 hv
      rw [ht, State.acceptedWord_lastCmd]
      rfl
    · rw [hw w hn] at hb
      cases hb
  | acknowledges w hn ht => simp [ht, hn.iff, hn.not_nextResets]
  | resets hn ht => simp [ht, hn, hn.not_nextWrites]
  | plain hn ht => simp [ht.lastCmd, hn.notCmd, hn.notResets]

/-! ## The CSR port -/

theorem csrOffset_le (n : CsrName) : (csrOffset n).toNat ≤ 0x050 := by cases n <;> decide

/-- The map lists every multiple of 4 up to 0x050 (10_state.md R23). -/
theorem exists_csrOffset_eq : ∀ k < 21, ∃ n ∈ allCsrs, (csrOffset n).toNat = k * 4 := by decide

theorem csrAt_eq_some_iff (off : BitVec 12) (n : CsrName) :
    csrAt off = some n ↔ (csrOffset n).toNat = off.toNat / 4 * 4 := ⟨offset_of_csrAt, csrAt_of_offset⟩

theorem csrAt_eq_none_iff (off : BitVec 12) : csrAt off = none ↔ 0x054 ≤ off.toNat := by
  constructor
  · intro h
    refine Nat.le_of_not_lt fun hlt => ?_
    obtain ⟨n, -, hn⟩ := exists_csrOffset_eq (off.toNat / 4) (by omega)
    rw [csrAt_of_offset hn] at h
    cases h
  · intro h
    cases hc : csrAt off with
    | none => rfl
    | some n =>
      have := offset_of_csrAt hc
      have := csrOffset_le n
      omega

theorem csrAt_rounded {off off' : BitVec 12} (h : off'.toNat = off.toNat / 4 * 4) : csrAt off' = csrAt off := by
  have hr : off'.toNat / 4 * 4 = off.toNat / 4 * 4 := by omega
  simp only [csrAt, hr]

theorem State.csrReadAt_listed {off : BitVec 12} {n : CsrName} (h : csrAt off = some n) (s : State) :
    s.csrReadAt off = s.csrValue n := by simp [State.csrReadAt, h]

theorem State.csrReadAt_unlisted {off : BitVec 12} (h : csrAt off = none) (s : State) : s.csrReadAt off = 0 := by
  simp [State.csrReadAt, h]

theorem runEvent_csrWrite_listed {off : BitVec 12} {n : CsrName} (h : csrAt off = some n) (w : Word) (s : State) :
    runEvent (.csrWrite off w) s = csrWriteTo n w s := by simp [runEvent, csrWriteAt, h]

theorem runEvent_csrWrite_unlisted {off : BitVec 12} (h : csrAt off = none) (w : Word) (s : State) :
    runEvent (.csrWrite off w) s = .next s := by simp [runEvent, csrWriteAt, h]

theorem runEvent_csr_rounded {off off' : BitVec 12} (h : off'.toNat = off.toNat / 4 * 4) (s : State) (w : Word) :
    runEvent (.csrRead off) s = runEvent (.csrRead off') s ∧
      runEvent (.csrWrite off w) s = runEvent (.csrWrite off' w) s := by
  simp [runEvent, csrWriteAt, State.csrReadAt, csrAt_rounded h]

theorem csrWriteTo_readOnly {n : CsrName}
    (h : n ∉ [CsrName.ctrl, .status, .cmd, .alphabetSize, .srcAddr, .srcLen, .dstAddr, .dstCap]) (w : Word) (s : State) :
    csrWriteTo n w s = .next s := by
  cases n
  case ctrl | status | cmd | alphabetSize | srcAddr | srcLen | dstAddr | dstCap => exact absurd (by decide) h
  all_goals rfl

theorem State.ctrl_reserved (s : State) {i : Nat} (h : 1 ≤ i) : (s.csrValue .ctrl).getLsbD i = false := by
  have : i ≠ 0 := by omega
  simp [State.csrValue, BitVec.getLsbD_setWidth, BitVec.getLsbD_ofBool, this]

theorem State.status_reserved (s : State) {i : Nat} (h5 : 5 ≤ i) (h7 : i ≤ 7) : s.status.getLsbD i = false := by
  rw [s.status_getLsbD (by omega)]
  obtain rfl | rfl | rfl : i = 5 ∨ i = 6 ∨ i = 7 := by omega
  all_goals rfl

theorem acknowledge_congr (s : State) {w w' : Word} (h1 : w.getLsbD 1 = w'.getLsbD 1) (h4 : w.getLsbD 4 = w'.getLsbD 4) :
    s.acknowledge w = s.acknowledge w' := by
  simp only [State.acknowledge, h1, h4]

/-- Settles O4, from what each kind of access does at a listed and at an unlisted offset. -/
theorem csrPortRoundsReadsAndIgnores : Obligations.CsrPortRoundsReadsAndIgnores := by
  refine ⟨csrAt_eq_some_iff, csrAt_eq_none_iff, ?read, fun s off off' w h => runEvent_csr_rounded h s w,
    fun s off w n h => runEvent_csrWrite_listed h w s, ?ctrl, ?alphabetSize, ?srcAddr, ?srcLen, ?dstAddr, ?dstCap,
    fun s off w h => runEvent_csrWrite_unlisted h w s, ?readOnly,
    fun s => ⟨fun i => s.ctrl_reserved, fun i => s.status_reserved⟩, ?ctrlBit, ?statusBits⟩
  case read =>
    exact fun s off => ⟨s.csrReadAt off, rfl, fun h => s.csrReadAt_unlisted h, fun n h => s.csrReadAt_listed h⟩
  case ctrl | alphabetSize | srcAddr | srcLen | dstAddr | dstCap => exact fun s off w h => runEvent_csrWrite_listed h w s
  case readOnly => exact fun s off w n h hn => (runEvent_csrWrite_listed h w s).trans (csrWriteTo_readOnly hn w s)
  case ctrlBit => exact fun s w w' h => by simp only [csrWriteTo, h]
  case statusBits => exact fun s w w' h1 h4 => congrArg Host.Outcome.next (acknowledge_congr s h1 h4)

/-- Settles O5, from the CSR each of the four offsets reaches. -/
theorem identityAndParameterCsrsReadConstants : Obligations.IdentityAndParameterCsrsReadConstants := by
  refine fun s => ⟨s.csrReadAt_listed (csrAt_csrOffset .id), s.csrReadAt_listed (csrAt_csrOffset .version), ?_, fun h => ?_⟩
  · exact congrArg BitVec.toNat (s.csrReadAt_listed (csrAt_csrOffset .maxAlphabet))
  · refine (congrArg BitVec.toNat (s.csrReadAt_listed (csrAt_csrOffset .memBytes))).trans ?_
    exact BitVec.toNat_ofNat s.memBytes 32 |>.trans (Nat.mod_eq_of_lt (by omega))

/-- Settles O8: the write reaches STATUS, which acknowledges. -/
theorem statusWriteClearsDoneAndOvrByOnes : Obligations.StatusWriteClearsDoneAndOvrByOnes :=
  fun s w => runEvent_csrWrite_listed (csrAt_csrOffset .status) w s

/-! ## The issue of a long command -/

theorem csrWriteTo_argument {n : CsrName} (h : n ∈ [CsrName.alphabetSize, .srcAddr, .srcLen, .dstAddr, .dstCap]) (w : Word)
    (s : State) : ∃ a, csrWriteTo n w s = .next { s with args := a } ∧ ({ s with args := a } : State).csrValue n = w := by
  cases n
  case alphabetSize | srcAddr | srcLen | dstAddr | dstCap => exact ⟨_, rfl, rfl⟩
  all_goals exact absurd h (by decide)

/-- Settles O14, from the effect of an accepted word and the frame of a completion. -/
theorem issueLatchesArgumentsAndClearsTheRecord : Obligations.IssueLatchesArgumentsAndClearsTheRecord := by
  refine ⟨fun s hs => ⟨exec_idle hs .encode, exec_idle hs .decode⟩, fun s n w hn => ?_, fun s a u hb hu => ?_⟩
  · obtain ⟨a, ht, hv⟩ := csrWriteTo_argument hn w s
    exact ⟨_, ht, rfl, hv⟩
  · obtain ⟨-, -, hf⟩ := engineStep_busy_next hb hu
    simpa only [hf.ie, hf.ovr] using engineStep_hostFields hu s.ie s.ovr a

end Sys2Proof.Machine
end

section
/-! PROOFS of the encoding family (30_encoding.md): the legal command words. -/

namespace Sys2Proof

/-! ## The legal command words -/

@[simp] theorem rsvdOf_encode (i : Instr) : rsvdOf (encode i) = 0 := by cases i <;> rfl

theorem opcode_toNat_le (i : Instr) : (opcode i).toNat ≤ 4 := by cases i <;> decide

/-- The opcode table lists every opcode up to 0x04 (30_encoding.md R81). -/
theorem exists_eq_opcode {op : BitVec 8} (h : op.toNat ≤ 4) : ∃ i, op = opcode i := by
  obtain h | h | h | h | h : op.toNat = 0 ∨ op.toNat = 1 ∨ op.toNat = 2 ∨ op.toNat = 3 ∨ op.toNat = 4 := by omega
  · exact ⟨.nop, BitVec.eq_of_toNat_eq h⟩
  · exact ⟨.encode, BitVec.eq_of_toNat_eq h⟩
  · exact ⟨.decode, BitVec.eq_of_toNat_eq h⟩
  · exact ⟨.clear, BitVec.eq_of_toNat_eq h⟩
  · exact ⟨.softReset, BitVec.eq_of_toNat_eq h⟩

/-- A word is a command's exactly when RSVD is zero and OPCODE is the command's (30_encoding.md R80). -/
theorem eq_encode_iff (w : Word) (i : Instr) : w = encode i ↔ rsvdOf w = 0 ∧ opcodeOf w = opcode i := by
  constructor
  · rintro rfl
    exact ⟨rsvdOf_encode i, Machine.opcodeOf_encode i⟩
  · rintro ⟨hr, ho⟩
    rw [← rsvdOf_append_opcodeOf w, hr, ho]
    rfl

/-- The legal words, by their two fields (30_encoding.md R81). -/
theorem exists_decode_eq_ok_iff (w : Word) :
    (∃ i, decode w = .ok i) ↔ rsvdOf w = 0 ∧ (opcodeOf w).toNat ≤ 4 := by
  simp only [decode_eq_ok_iff, eq_encode_iff]
  constructor
  · rintro ⟨i, hr, ho⟩
    exact ⟨hr, ho ▸ opcode_toNat_le i⟩
  · rintro ⟨hr, hle⟩
    obtain ⟨i, ho⟩ := exists_eq_opcode hle
    exact ⟨i, hr, ho⟩

end Sys2Proof

namespace Sys2Proof.Machine

/-- Accepted while IDLE, the long commands and no others make the engine BUSY (30_encoding.md R81). -/
theorem State.accepted_busy {s : State} (h : s.engine = .idle) (i : Instr) :
    (s.accepted i).busy = true ↔ i = .encode ∨ i = .decode := by
  simpa using s.acceptedWord_busy (encode i) h

/-- Settles O1: the decoder's words by their fields, and the effect of an accepted word. -/
theorem legalCommandWordsAreTheFiveOfTheTable : Obligations.LegalCommandWordsAreTheFiveOfTheTable := by
  refine ⟨⟨rfl, rfl, rfl, rfl, rfl⟩, decode_eq_ok_iff, fun i s hs => ?kinds, exists_decode_eq_ok_iff,
    fun w e s he hs => ?illegal⟩
  case kinds => exact ⟨_, exec_idle hs i, State.accepted_busy hs i⟩
  case illegal =>
    refine ⟨_, cmdWrite_idle hs w, ?_⟩
    rw [s.acceptedWord_illegal he]
    exact ⟨rfl, rfl, rfl⟩

end Sys2Proof.Machine
end

section
/-! PROOFS of the frequency table family (40_frequency_table.md): clearing and counting. -/

namespace Sys2Proof.Machine

@[simp] theorem freqOf_ftClear (f : Freq) (s : Nat) : freqOf (ftClear f) s = 0 := rfl

/-- FT_COUNT changes the counter of its own symbol only (40_frequency_table.md R121). -/
theorem freqOf_ftCount (f : Freq) (s r : Nat) : freqOf (ftCount f s) r = freqOf f r + if r = s then 1 else 0 := by
  by_cases h : r = s
  · subst h
    simp [freqOf, ftCount]
  · simp [freqOf, ftCount, mapGet_mapPut, h, Ne.symm h]

/-- Settles O44, from the counts of a cleared table and of a table after one FT_COUNT. -/
theorem countingChangesOneCounter : Obligations.CountingChangesOneCounter := ⟨freqOf_ftClear, freqOf_ftCount⟩

end Sys2Proof.Machine
end

section
/-! PROOFS of the priority queue family (41_priority_queue.md): the order of keys and PQ_EXTRACT_MIN. -/

namespace Sys2Proof.Machine

/-! ## The order of keys -/

/-- The key of d is at or above the key of e (41_priority_queue.md R131). -/
theorem keyLt_eq_false_iff {d e : QEntry} :
    keyLt d e = false ↔ e.weight < d.weight ∨ (e.weight = d.weight ∧ e.seq ≤ d.seq) := by
  simp only [keyLt, Bool.or_eq_false_iff, Bool.and_eq_false_iff, decide_eq_false_iff_not, beq_eq_false_iff_ne]
  omega

theorem keyLt_irrefl (e : QEntry) : keyLt e e = false := keyLt_eq_false_iff.2 (.inr ⟨rfl, Nat.le_refl _⟩)

theorem keyLt_asymm {d e : QEntry} (h : keyLt d e = true) : keyLt e d = false := by
  rw [← Bool.not_eq_false, keyLt_eq_false_iff] at h
  rw [keyLt_eq_false_iff]
  omega

/-- The keys are totally ordered, so being at or above is transitive. -/
theorem keyLt_eq_false_trans {c d e : QEntry} (hcd : keyLt c d = false) (hde : keyLt d e = false) :
    keyLt c e = false := by
  rw [keyLt_eq_false_iff] at *
  omega

/-! ## The least entry -/

/-- No entry's key is below the least entry's (41_priority_queue.md R131). -/
theorem keyLt_pqLeast {es : List QEntry} {e : QEntry} (h : pqLeast es = some e) : ∀ d ∈ es, keyLt d e = false := by
  induction es generalizing e with
  | nil => cases h
  | cons c es ih =>
    simp only [pqLeast] at h
    split at h
    next hnone =>
      cases h
      rw [pqLeast_eq_none.1 hnone]
      simpa using keyLt_irrefl c
    next m hm =>
      split at h
      next hlt =>
        cases h
        exact List.forall_mem_cons.2 ⟨keyLt_asymm hlt, ih hm⟩
      next hge =>
        cases h
        exact List.forall_mem_cons.2
          ⟨keyLt_irrefl c, fun d hd => keyLt_eq_false_trans (ih hm d hd) ((Bool.not_eq_true _).mp hge)⟩

theorem exists_pqLeast_eq_some {es : List QEntry} (h : es ≠ []) : ∃ e, pqLeast es = some e :=
  Option.ne_none_iff_exists'.1 (mt pqLeast_eq_none.1 h)

/-! ## PQ_EXTRACT_MIN -/

theorem pqExtractMin_empty {q : PQ} (h : q.entries = []) : pqExtractMin q = unreachableAt .pqExtractMinEmpty := by
  simp only [pqExtractMin, pqLeast_eq_none.2 h]

theorem pqExtractMin_of_pqLeast {q : PQ} {e : QEntry} (h : pqLeast q.entries = some e) :
    pqExtractMin q = .ok (e, { q with entries := q.entries.erase e }) := by
  simp only [pqExtractMin, h]

/-- Settles O46: the entry that leaves is the least one, and erasing it leaves the others. -/
theorem extractMinRemovesTheLeastEntry : Obligations.ExtractMinRemovesTheLeastEntry := by
  refine fun q => ⟨pqExtractMin_empty, fun hne => ?_⟩
  obtain ⟨e, he⟩ := exists_pqLeast_eq_some hne
  have hmem : e ∈ q.entries := pqLeast_mem he
  exact ⟨e, _, pqExtractMin_of_pqLeast he, hmem, rfl, List.perm_cons_erase hmem,
    fun d hd => keyLt_eq_false_iff.1 (keyLt_pqLeast he d hd)⟩

end Sys2Proof.Machine
end

section
/-! PROOFS of the bit stream family (44_bitstream.md): the writer's bytes and where its bits lie. -/

namespace Sys2Proof.Machine

/-! ## Reading a list that grows at its end -/

theorem getD_of_length_le {α : Type} {l : List α} {i : Nat} (h : l.length ≤ i) (d : α) : l.getD i d = d := by
  rw [List.getD_eq_getElem?_getD, List.getElem?_eq_none h, Option.getD_none]

theorem getD_concat {α : Type} (l : List α) (a d : α) (i : Nat) :
    (l ++ [a]).getD i d = if i = l.length then a else l.getD i d := by
  obtain h | rfl | h := Nat.lt_trichotomy i l.length
  · rw [if_neg (Nat.ne_of_lt h), List.getD_eq_getElem?_getD, List.getElem?_append_left h, List.getD_eq_getElem?_getD]
  · rw [if_pos rfl, List.getD_eq_getElem?_getD, List.getElem?_concat_length, Option.getD_some]
  · have hend : (l ++ [a]).length ≤ i := by rw [List.length_append]; exact h
    rw [if_neg (Nat.ne_of_gt h), getD_of_length_le hend, getD_of_length_le (Nat.le_of_lt h)]

/-! ## The bits of a byte list -/

/-- Bit i of a byte list read MSB first, 0 past its end (44_bitstream.md R200). -/
def bitOfBytes (l : List Byte) (i : Nat) : Bool := packedBit (l.getD · 0#8) 0 i

theorem bitOfBytes_eq (l : List Byte) (i : Nat) : bitOfBytes l i = (l.getD (i / 8) 0#8).getLsbD (7 - i % 8) := by
  rw [bitOfBytes, packedBit, Nat.zero_add]

@[simp] theorem bitOfBytes_nil (i : Nat) : bitOfBytes [] i = false := by simp [bitOfBytes_eq]

/-- A zero byte opened at the end changes no bit. -/
@[simp] theorem bitOfBytes_append_zero (l : List Byte) (i : Nat) : bitOfBytes (l ++ [0#8]) i = bitOfBytes l i := by
  rw [bitOfBytes_eq, bitOfBytes_eq, getD_concat]
  split
  next hend => rw [hend, getD_of_length_le (Nat.le_refl _)]
  next => rfl

/-- `1 << (7 − p mod 8)` is the byte whose only bit is bit p of the sequence. -/
theorem getLsbD_one_shiftLeft_of_byte_eq {i p : Nat} (hbyte : i / 8 = p / 8) :
    (1#8 <<< (7 - p % 8)).getLsbD (7 - i % 8) = decide (i = p) := by
  have hp : 7 - p % 8 < 8 := by omega
  rw [← BitVec.twoPow_eq, BitVec.getLsbD_twoPow, decide_eq_true hp, Bool.true_and, decide_eq_decide]
  omega

/-- OR with `1 << (7 − p mod 8)` into byte p div 8 sets bit p and no other. -/
theorem bitOfBytes_set {l : List Byte} {p : Nat} (hp : p / 8 < l.length) (i : Nat) :
    bitOfBytes (l.set (p / 8) (l.getD (p / 8) 0#8 ||| 1#8 <<< (7 - p % 8))) i =
      (bitOfBytes l i || decide (i = p)) := by
  by_cases hbyte : i / 8 = p / 8
  · simp [bitOfBytes_eq, hbyte, hp, getLsbD_one_shiftLeft_of_byte_eq hbyte]
  · have hne : i ≠ p := fun h => hbyte (h ▸ rfl)
    simp [bitOfBytes_eq, hne, List.getElem?_set_ne (Ne.symm hbyte)]

/-! ## The writer -/

theorem bwPut_bytes_length (w : BitWriter) (b : Bool) :
    (bwPut w b).bytes.length = w.bytes.length + if w.pos % 8 = 0 then 1 else 0 := by
  unfold bwPut
  split <;> split <;> simp

/-- BW_PUT(b) ORs b into bit pos and leaves the others (44_bitstream.md R203). -/
theorem bitOfBytes_bwPut {w : BitWriter} (hlen : w.bytes.length = ceil8 w.pos) (b : Bool) (i : Nat) :
    bitOfBytes (bwPut w b).bytes i = (bitOfBytes w.bytes i || (b && decide (i = w.pos))) := by
  unfold ceil8 at hlen
  cases b with
  | false => by_cases h8 : w.pos % 8 = 0 <;> simp [bwPut, h8]
  | true =>
    by_cases h8 : w.pos % 8 = 0
    · have hopen : w.pos / 8 < (w.bytes ++ [0#8]).length := by
        rw [List.length_append, List.length_singleton]; omega
      simpa [bwPut, h8] using bitOfBytes_set hopen i
    · have hopen : w.pos / 8 < w.bytes.length := by omega
      simpa [bwPut, h8] using bitOfBytes_set hopen i

/-- The writer holds exactly the bits of c: the invariant of 44_bitstream.md R201, with the bits named. -/
structure BitWriter.Holds (w : BitWriter) (c : Bits) : Prop where
  pos : w.pos = c.length
  length : w.bytes.length = ceil8 c.length
  bit : ∀ i, bitOfBytes w.bytes i = c.getD i false

theorem bwInit_holds (w : BitWriter) : (bwInit w).Holds [] := ⟨rfl, rfl, bitOfBytes_nil⟩

theorem bwPut_holds {w : BitWriter} {c : Bits} (h : w.Holds c) (b : Bool) : (bwPut w b).Holds (c ++ [b]) := by
  obtain ⟨hpos, hlen, hbit⟩ := h
  refine ⟨by simp [hpos], ?_, fun i => ?_⟩
  · rw [bwPut_bytes_length, hlen, hpos, List.length_append, List.length_singleton]
    unfold ceil8
    split <;> omega
  · rw [bitOfBytes_bwPut (hpos ▸ hlen), hbit, hpos, getD_concat]
    split
    next hend => rw [hend, getD_of_length_le (Nat.le_refl _), decide_eq_true rfl, Bool.and_true, Bool.false_or]
    next hne => rw [decide_eq_false hne, Bool.and_false, Bool.or_false]

@[simp] theorem bwPutSeq_nil (w : BitWriter) : bwPutSeq w [] = w := rfl

@[simp] theorem bwPutSeq_cons (w : BitWriter) (b : Bool) (d : Bits) :
    bwPutSeq w (b :: d) = bwPutSeq (bwPut w b) d := rfl

theorem bwPutSeq_holds {w : BitWriter} {c : Bits} (h : w.Holds c) (d : Bits) : (bwPutSeq w d).Holds (c ++ d) := by
  induction d generalizing w c with
  | nil => simpa using h
  | cons b d ih => simpa using ih (bwPut_holds h b)

/-- Settles O51: the writer that packed c holds c, and every bit of its bytes is a bit of c or the zero padding. -/
theorem packedBitsAreMsbFirstAndZeroPadded : Obligations.PackedBitsAreMsbFirstAndZeroPadded := by
  intro c
  have h : (bwPutSeq (bwInit ⟨[], 0⟩) c).Holds c := bwPutSeq_holds (bwInit_holds _) c
  exact ⟨h.length, fun i _ => (bitOfBytes_eq _ i).symm.trans (h.bit i)⟩

end Sys2Proof.Machine
end

section
/-! PROOFS of the encoder family (45_encoder.md): ENCODE's checks in the order of R222, up to its symbol check. -/

namespace Sys2Proof.Machine

/-! ## REGION_CHECK -/

/-- The overlap test of 60_exceptions.md R318 finds a byte that lies in both regions. -/
theorem exists_inRegion_both_iff (sa sl da dc : Nat) :
    (∃ a, inRegion sa sl a = true ∧ inRegion da dc a = true) ↔ 0 < sl ∧ 0 < dc ∧ sa < da + dc ∧ da < sa + sl := by
  simp only [inRegion, Bool.and_eq_true, decide_eq_true_eq]
  constructor
  · rintro ⟨a, hs, hd⟩
    omega
  · intro h
    exact ⟨max sa da, by omega⟩

theorem regionCheck_source {m sa sl : Nat} (h : m < sa + sl) (da dc : Nat) :
    regionCheck m sa sl da dc = raise .bounds 0 sa sl := by
  simp [regionCheck, raiseIf_pos h]

theorem regionCheck_destination {m sa sl da dc : Nat} (hs : sa + sl ≤ m) (h : m < da + dc) :
    regionCheck m sa sl da dc = raise .bounds 1 da dc := by
  simp [regionCheck, raiseIf_neg (Nat.not_lt.2 hs), raiseIf_pos h]

theorem regionCheck_overlap {m sa sl da dc : Nat} (hs : sa + sl ≤ m) (hd : da + dc ≤ m)
    (h : ∃ a, inRegion sa sl a = true ∧ inRegion da dc a = true) :
    regionCheck m sa sl da dc = raise .bounds 2 da sa := by
  simp [regionCheck, raiseIf_neg (Nat.not_lt.2 hs), raiseIf_neg (Nat.not_lt.2 hd),
    raiseIf_pos ((exists_inRegion_both_iff sa sl da dc).1 h)]

/-! ## The symbol check -/

@[simp] theorem readSymbols_length (rd : Nat → Byte) (sa n : Nat) : (readSymbols rd sa n).length = n := by
  simp [readSymbols]

theorem readSymbols_add (rd : Nat → Byte) (sa i k : Nat) :
    readSymbols rd sa (i + k) = readSymbols rd sa i ++ readSymbols rd (sa + 4 * i) k := by
  simp [readSymbols, List.range_add, Nat.mul_add, Nat.add_assoc]

theorem readSymbols_succ (rd : Nat → Byte) (sa k : Nat) :
    readSymbols rd sa (k + 1) = memRead rd sa 4 :: readSymbols rd (sa + 4) k := by
  rw [Nat.add_comm, readSymbols_add]
  rfl

theorem mem_readSymbols {rd : Nat → Byte} {sa n q : Nat} :
    q ∈ readSymbols rd sa n ↔ ∃ i < n, memRead rd (sa + 4 * i) 4 = q := by
  simp [readSymbols]

/-- The counting pass stops at the first symbol at or above A (45_encoder.md R225). -/
theorem countPass_firstBad {A v : Nat} (hv : A ≤ v) {good : List Nat} (hgood : ∀ q ∈ good, q < A) (rest : List Nat)
    (i : Nat) (f : Freq) :
    countPass A (good ++ v :: rest) i f = raise .unknownSymbol 0 (i + good.length) v := by
  induction good generalizing i f with
  | nil => simp [countPass, hv]
  | cons q good ih =>
    obtain ⟨hq, hgood⟩ := List.forall_mem_cons.1 hgood
    simp [countPass, Nat.not_le.2 hq, ih hgood, Nat.add_comm, Nat.add_left_comm]

theorem encodeSymbols_firstBad {A i n : Nat} {rd : Nat → Byte} {sa : Nat} (hi : i < n)
    (hbad : A ≤ memRead rd (sa + 4 * i) 4) (hgood : ∀ j < i, memRead rd (sa + 4 * j) 4 < A) (dc : Nat) (w : Work) :
    encodeSymbols A dc (readSymbols rd sa n) w = raise .unknownSymbol 0 i (memRead rd (sa + 4 * i) 4) := by
  obtain ⟨k, rfl⟩ : ∃ k, n = i + (k + 1) := Nat.exists_eq_add_of_lt hi
  have hbefore : ∀ q ∈ readSymbols rd sa i, q < A := by
    intro q hq
    obtain ⟨j, hj, rfl⟩ := mem_readSymbols.1 hq
    exact hgood j hj
  simp only [encodeSymbols, readSymbols_add, readSymbols_succ, countPass_firstBad hbad hbefore,
    readSymbols_length, Nat.zero_add, raise_bind]

/-! ## ENCODE's computation, check by check -/

section
variable {m : Nat} {rd : Nat → Byte} {x : Args} {w : Work}

theorem encodeRun_alphabet (h : x.A = 0 ∨ x.A > Config.maxAlphabet) :
    encodeRun m rd x w = raise .config 0 0 x.A := by
  simp [encodeRun, raiseIf_pos h]

variable (hA : ¬ (x.A = 0 ∨ x.A > Config.maxAlphabet))
include hA

theorem encodeRun_length (h : x.sl % 4 ≠ 0) : encodeRun m rd x w = raise .config 1 0 x.sl := by
  simp [encodeRun, raiseIf_neg hA, raiseIf_pos h]

variable (hsl : x.sl % 4 = 0)
include hsl

theorem encodeRun_regions {e : Stop} (h : regionCheck m x.sa x.sl x.da x.dc = .error e) :
    encodeRun m rd x w = .error e := by
  simp [encodeRun, raiseIf_neg hA, raiseIf_neg (not_not_intro hsl), h]

theorem encodeRun_symbols (h : RegionsOk m x) :
    encodeRun m rd x w = encodeSymbols x.A x.dc (readSymbols rd x.sa x.n) (beginWork w) := by
  simp [encodeRun, raiseIf_neg hA, raiseIf_neg (not_not_intro hsl), regionCheck_of_regionsOk h]

end

/-- Settles O39: each check that fails where the earlier ones pass is what ENCODE's computation raises, and so what the
command reports. -/
theorem encodeReportsTheFirstFailingCheck : Obligations.EncodeReportsTheFirstFailingCheck := by
  intro s x hb
  have reports {e : Raised} (h : encodeRun s.memBytes s.mem.readByte x s.work = .error (.raised e)) : s.reports e :=
    State.reports_of_raise hb h
  refine ⟨fun hbad => reports (encodeRun_alphabet hbad), fun hA1 hA2 => ?_⟩
  have hA : ¬ (x.A = 0 ∨ x.A > Config.maxAlphabet) := by
    have : Config.maxAlphabet = 2 ^ 24 := rfl
    omega
  refine ⟨fun hlen => reports (encodeRun_length hA hlen), fun hlen => ⟨fun hs => ?_, fun hs hd => ?_,
    fun hs hd ho => ?_, fun hr i hi hbad hgood => ?_⟩⟩
  · exact reports (encodeRun_regions hA hlen (regionCheck_source hs x.da x.dc))
  · exact reports (encodeRun_regions hA hlen (regionCheck_destination hs hd))
  · exact reports (encodeRun_regions hA hlen (regionCheck_overlap hs hd ho))
  · exact reports ((encodeRun_symbols hA hlen hr).trans (encodeSymbols_firstBad hi hbad hgood x.dc _))

end Sys2Proof.Machine
end

section
/-! PROOFS of the decode trie (43_code_table.md R179 to R182), which the decoder family needs: the trie of a table of
codes, said once as a function of the table, and CT_TRIE_INSERT as the step from one such trie to the next. -/

namespace Sys2Proof.Machine

/-! ## Lists of distinct paths -/

theorem ne_of_mem_of_notMem {P : List Bits} {p q : Bits} (hp : p ∈ P) (hq : q ∉ P) : p ≠ q := fun h => hq (h ▸ hp)

theorem nodup_concat {P : List Bits} (hP : P.Nodup) {q : Bits} (hq : q ∉ P) : (P ++ [q]).Nodup := by
  refine List.nodup_append.2 ⟨hP, List.pairwise_singleton _ _, fun p hp r hr => ?_⟩
  rw [List.mem_singleton.1 hr]
  exact ne_of_mem_of_notMem hp hq

theorem idxOf_concat {P : List Bits} {q : Bits} (hq : q ∉ P) : (P ++ [q]).idxOf q = P.length := by
  rw [List.idxOf_append, if_neg hq, List.idxOf_cons_self, Nat.zero_add]

/-! ## The trie of a set of paths

An arena of the decode trie is told by the list of its nodes' paths, node i at position i, and by the table that says
which of these paths are codes. -/

/-- The symbol whose code is p. -/
def codeSymbol (recs : List (Nat × Bits)) (p : Bits) : Option Nat := (recs.find? fun e => e.2 = p).map (·.1)

/-- The index of the node with path p, NIL where there is none. -/
def pathLink (P : List Bits) (p : Bits) : Option Nat := if p ∈ P then some (P.idxOf p) else none

/-- The node with path p: a leaf where p is a code, else an interior node with its children. -/
def trieNode (P : List Bits) (recs : List (Nat × Bits)) (p : Bits) : Node :=
  match codeSymbol recs p with
  | some s => .leaf s 0
  | none => .internal (pathLink P (p ++ [false])) (pathLink P (p ++ [true])) 0

/-- The arena whose nodes have the paths P. -/
def trieArena (P : List Bits) (recs : List (Nat × Bits)) : List Node := P.map (trieNode P recs)

/-- The path p leads to an interior node. -/
structure InnerPath (P : List Bits) (recs : List (Nat × Bits)) (p : Bits) : Prop where
  mem : p ∈ P
  noCode : codeSymbol recs p = none

/-- The paths P are those of a tree with the codes among them: the root first, every edge from an interior node. -/
structure TriePaths (P : List Bits) (recs : List (Nat × Bits)) : Prop where
  nodup : P.Nodup
  rootFirst : P.idxOf [] = 0
  root : InnerPath P recs []
  parent : ∀ p b, p ++ [b] ∈ P → InnerPath P recs p
  codes : ∀ e ∈ recs, e.2 ∈ P

theorem codeSymbol_eq_none {recs : List (Nat × Bits)} {p : Bits} :
    codeSymbol recs p = none ↔ ∀ e ∈ recs, e.2 ≠ p := by
  simp [codeSymbol]

theorem codeSymbol_concat (recs : List (Nat × Bits)) (s : Nat) (c p : Bits) :
    codeSymbol (recs ++ [(s, c)]) p = (codeSymbol recs p).or (if c = p then some s else none) := by
  rw [codeSymbol, List.find?_append, Option.map_or, List.find?_singleton, codeSymbol]
  by_cases h : c = p <;> simp [h]

/-- In a PrefixTable no code extends another: of the codes only e's own begins e's code. -/
theorem PrefixTable.eq_of_prefix {A : Nat} {recs : List (Nat × Bits)} (hT : PrefixTable A recs) {e f : Nat × Bits}
    (he : e ∈ recs) (hf : f ∈ recs) (h : f.2 <+: e.2) : f = e := by
  have hpair := hT.noPrefix
  clear hT
  induction recs with
  | nil => cases he
  | cons g recs ih =>
    obtain ⟨hg, hpair⟩ := List.pairwise_cons.1 hpair
    rcases List.mem_cons.1 he with heg | he'
    · rcases List.mem_cons.1 hf with hfg | hf'
      · rw [heg, hfg]
      · exact absurd (heg ▸ h) (hg f hf').2
    · rcases List.mem_cons.1 hf with hfg | hf'
      · exact absurd (hfg ▸ h) (hg e he').1
      · exact ih he' hf' hpair

/-- The codes of a PrefixTable are distinct, so each stands for its own symbol. -/
theorem PrefixTable.codeSymbol_of_mem {A : Nat} {recs : List (Nat × Bits)} (hT : PrefixTable A recs) {e : Nat × Bits}
    (he : e ∈ recs) : codeSymbol recs e.2 = some e.1 := by
  obtain ⟨f, hf⟩ : ∃ f, recs.find? (fun f => f.2 = e.2) = some f :=
    Option.ne_none_iff_exists'.1 fun h => by simpa using List.find?_eq_none.1 h e he
  have hcode : f.2 = e.2 := by simpa using List.find?_some hf
  have hfe : f = e := hT.eq_of_prefix he (List.mem_of_find?_eq_some hf) (hcode ▸ List.prefix_rfl)
  simp [codeSymbol, hf, hfe]

/-- What a code strictly extends is no code. -/
theorem PrefixTable.codeSymbol_of_prefix {A : Nat} {recs : List (Nat × Bits)} (hT : PrefixTable A recs)
    {e : Nat × Bits} (he : e ∈ recs) {p : Bits} (hpe : p <+: e.2) (hne : p ≠ e.2) : codeSymbol recs p = none := by
  refine codeSymbol_eq_none.2 fun f hf hfp => hne ?_
  rw [← hfp, hT.eq_of_prefix he hf (hfp ▸ hpe)]

theorem pathLink_of_mem {P : List Bits} {p : Bits} (h : p ∈ P) : pathLink P p = some (P.idxOf p) := if_pos h

theorem pathLink_of_notMem {P : List Bits} {p : Bits} (h : p ∉ P) : pathLink P p = none := if_neg h

/-- One more path adds one link, to the end of the arena. -/
theorem pathLink_concat (P : List Bits) {q : Bits} (hq : q ∉ P) (r : Bits) :
    pathLink (P ++ [q]) r = if r = q then some P.length else pathLink P r := by
  by_cases hr : r = q
  · subst hr
    rw [if_pos rfl, pathLink_of_mem List.mem_concat_self, idxOf_concat hq]
  · by_cases hP : r ∈ P
    · rw [if_neg hr, pathLink_of_mem hP, pathLink_of_mem (List.mem_append_left _ hP), List.idxOf_append,
      if_pos hP]
    · rw [if_neg hr, pathLink_of_notMem hP, pathLink_of_notMem (by simp [hP, hr])]

@[simp] theorem trieArena_length (P : List Bits) (recs : List (Nat × Bits)) : (trieArena P recs).length = P.length :=
  List.length_map _

theorem trieNode_inner {recs : List (Nat × Bits)} {p : Bits} (h : codeSymbol recs p = none) (P : List Bits) :
    trieNode P recs p = .internal (pathLink P (p ++ [false])) (pathLink P (p ++ [true])) 0 := by
  simp only [trieNode, h]

theorem trieNode_code {recs : List (Nat × Bits)} {p : Bits} {s : Nat} (h : codeSymbol recs p = some s) (P : List Bits) :
    trieNode P recs p = .leaf s 0 := by
  simp only [trieNode, h]

/-- The node at the index of a path. -/
theorem trieArena_getElem? {P : List Bits} {p : Bits} (h : p ∈ P) (recs : List (Nat × Bits)) :
    (trieArena P recs)[P.idxOf p]? = some (trieNode P recs p) := by
  rw [trieArena, List.getElem?_map, List.getElem?_eq_getElem (List.idxOf_lt_length_of_mem h), List.getElem_idxOf,
    Option.map_some]

/-- The child of an interior node is the node one bit further (43_code_table.md R181). -/
theorem child_trieArena {P : List Bits} {recs : List (Nat × Bits)} {p : Bits} (h : InnerPath P recs p) (b : Bool) :
    child (trieArena P recs) (P.idxOf p) b = .ok (pathLink P (p ++ [b])) := by
  simp only [child, trieArena_getElem? h.mem, trieNode_inner h.noCode]
  cases b <;> rfl

/-! ## Hanging a node -/

/-- Setting the value at one key of a list of distinct keys. -/
theorem map_set_idxOf {α : Type} {P : List Bits} (hnd : P.Nodup) {p : Bits} {f g : Bits → α}
    (h : ∀ r ∈ P, r ≠ p → f r = g r) : (P.map f).set (P.idxOf p) (g p) = P.map g := by
  refine List.ext_getElem (by simp) fun i hi hi' => ?_
  have hiP : i < P.length := by simpa using hi'
  rw [List.getElem_set, List.getElem_map, List.getElem_map]
  split
  next heq => subst heq; rw [List.getElem_idxOf]
  next hne => exact h _ (List.getElem_mem hiP) fun heq => hne (by rw [← heq, hnd.idxOf_getElem i hiP])

/-- A node hung below an interior node, as its child b: the arena has one path more. The new node is a leaf where the
table recs' that goes with the new arena has the path as a code. -/
theorem setChild_trieArena {P : List Bits} {recs recs' : List (Nat × Bits)} {p : Bits} {b : Bool}
    (hP : TriePaths P recs) (hp : InnerPath P recs p) (hq : p ++ [b] ∉ P)
    (hsame : ∀ r ∈ P, codeSymbol recs' r = codeSymbol recs r) {n : Node}
    (hn : n = trieNode (P ++ [p ++ [b]]) recs' (p ++ [b])) :
    setChild (trieArena P recs ++ [n]) (P.idxOf p) b P.length = trieArena (P ++ [p ++ [b]]) recs' := by
  have hidx : P.idxOf p < (trieArena P recs).length := by simpa using List.idxOf_lt_length_of_mem hp.mem
  have hset (v : Node) (hv : v = trieNode (P ++ [p ++ [b]]) recs' p) :
      (trieArena P recs ++ [n]).set (P.idxOf p) v = trieArena (P ++ [p ++ [b]]) recs' := by
    rw [List.set_append_left _ _ hidx, hn, hv, trieArena, trieArena, List.map_append, map_set_idxOf hP.nodup]
    · rfl
    · intro r hr hne
      simp [trieNode, hsame r hr, pathLink_concat P hq, hne]
  have hnode : trieNode (P ++ [p ++ [b]]) recs' p =
      .internal (pathLink (P ++ [p ++ [b]]) (p ++ [false])) (pathLink (P ++ [p ++ [b]]) (p ++ [true])) 0 :=
    trieNode_inner ((hsame p hp.mem).trans hp.noCode) _
  rw [setChild, List.getElem?_append_left hidx, trieArena_getElem? hp.mem, trieNode_inner hp.noCode]
  refine hset _ (Eq.trans ?_ hnode.symm)
  cases b <;> simp [pathLink_concat P hq]

/-! ## The paths of a table -/

/-- One path more, where it is new. -/
def addPath (P : List Bits) (q : Bits) : List Bits := if q ∈ P then P else P ++ [q]

/-- The paths on the way from p along c, without p itself. -/
def pathsFrom (p c : Bits) : List Bits := (List.range c.length).map fun i => p ++ c.take (i + 1)

/-- The paths of a table's trie, in the order in which the insertion of its records makes their nodes (43_code_table.md
R181). -/
def triePaths (recs : List (Nat × Bits)) : List Bits := (recs.flatMap fun e => pathsFrom [] e.2).foldl addPath [[]]

/-- The trie of a table, after the insertion of its records. -/
def trieOf (recs : List (Nat × Bits)) : Trie := ⟨trieArena (triePaths recs) recs, (recs.map (·.1)).reverse⟩

@[simp] theorem pathsFrom_nil (p : Bits) : pathsFrom p [] = [] := rfl

@[simp] theorem pathsFrom_cons (p : Bits) (b : Bool) (c : Bits) :
    pathsFrom p (b :: c) = (p ++ [b]) :: pathsFrom (p ++ [b]) c := by
  simp [pathsFrom, List.range_succ_eq_map, Function.comp_def]

theorem mem_pathsFrom_root {p c : Bits} : p ∈ pathsFrom [] c ↔ p ≠ [] ∧ p <+: c := by
  simp only [pathsFrom, List.nil_append, List.mem_map, List.mem_range]
  constructor
  · rintro ⟨i, hi, rfl⟩
    refine ⟨fun h => ?_, List.take_prefix _ _⟩
    simp only [List.take_eq_nil_iff] at h
    rcases h with h | rfl
    · omega
    · simp at hi
  · rintro ⟨hne, hpre⟩
    have hpos := List.length_pos_iff.2 hne
    have hle := hpre.length_le
    refine ⟨p.length - 1, by omega, ?_⟩
    rw [Nat.sub_add_cancel hpos, ← List.prefix_iff_eq_take.1 hpre]

theorem mem_foldl_addPath {qs P : List Bits} {p : Bits} : p ∈ qs.foldl addPath P ↔ p ∈ P ∨ p ∈ qs := by
  induction qs generalizing P with
  | nil => simp
  | cons q qs ih =>
    rw [List.foldl_cons, ih, addPath]
    split
    next hq =>
      simp only [List.mem_cons]
      constructor
      · exact fun h => h.imp_right .inr
      · rintro (h | rfl | h)
        · exact .inl h
        · exact .inl hq
        · exact .inr h
    next => simp [or_assoc]

theorem nodup_foldl_addPath {qs P : List Bits} (h : P.Nodup) : (qs.foldl addPath P).Nodup := by
  induction qs generalizing P with
  | nil => exact h
  | cons q qs ih =>
    refine ih ?_
    unfold addPath
    split
    next => exact h
    next hq => exact nodup_concat h hq

/-- Adding paths one by one keeps the old ones in front, then has each new one once. -/
theorem foldl_addPath_eq (qs P : List Bits) : qs.foldl addPath P = P ++ (qs.removeAll P).eraseDups := by
  induction qs generalizing P with
  | nil => simp
  | cons q qs ih =>
    rw [List.foldl_cons, ih, addPath, List.cons_removeAll]
    split
    next hq => simp [hq]
    next hq =>
      have hnew : qs.removeAll (P ++ [q]) = (qs.removeAll P).filter fun r => !r == q := by
        rw [List.removeAll, List.removeAll, List.filter_filter]
        exact List.filter_congr fun r _ => Bool.eq_iff_iff.2 (by simp [and_comm])
      simp [hq, hnew, List.eraseDups_cons]

theorem length_le_foldl_addPath (qs P : List Bits) : P.length ≤ (qs.foldl addPath P).length := by
  rw [foldl_addPath_eq, List.length_append]
  exact Nat.le_add_right _ _

theorem triePaths_append (recs more : List (Nat × Bits)) :
    triePaths (recs ++ more) = (more.flatMap fun e => pathsFrom [] e.2).foldl addPath (triePaths recs) := by
  simp [triePaths]

theorem mem_triePaths {recs : List (Nat × Bits)} {p : Bits} :
    p ∈ triePaths recs ↔ p = [] ∨ ∃ e ∈ recs, p <+: e.2 := by
  simp only [triePaths, mem_foldl_addPath, List.mem_singleton, List.mem_flatMap, mem_pathsFrom_root]
  by_cases h : p = [] <;> simp [h]

/-- The arena of a table's trie has the size of 43_code_table.md R182. -/
theorem triePaths_length (recs : List (Nat × Bits)) : (triePaths recs).length = trieNodes recs := by
  have hroot : (recs.flatMap fun e => pathsFrom [] e.2).removeAll [[]] = recs.flatMap fun e => pathsFrom [] e.2 := by
    refine List.filter_eq_self.2 fun p hp => ?_
    obtain ⟨e, -, he⟩ := List.mem_flatMap.1 hp
    simpa using (mem_pathsFrom_root.1 he).1
  rw [triePaths, foldl_addPath_eq, hroot, List.length_append, List.length_singleton]
  rfl

theorem trieNodes_le_append (recs more : List (Nat × Bits)) : trieNodes recs ≤ trieNodes (recs ++ more) := by
  rw [← triePaths_length, ← triePaths_length, triePaths_append]
  exact length_le_foldl_addPath _ _

/-! ## CT_TRIE_INSERT along a path -/

/-- One more interior node below an interior node. -/
theorem TriePaths.concat {P : List Bits} {recs : List (Nat × Bits)} (hP : TriePaths P recs) {p : Bits} {b : Bool}
    (hp : InnerPath P recs p) (hq : p ++ [b] ∉ P) : TriePaths (P ++ [p ++ [b]]) recs where
  nodup := nodup_concat hP.nodup hq
  rootFirst := by rw [List.idxOf_append, if_pos hP.root.mem, hP.rootFirst]
  root := ⟨List.mem_append_left _ hP.root.mem, hP.root.noCode⟩
  parent := by
    intro r x hr
    have hinner : InnerPath P recs r := by
      rcases List.mem_append.1 hr with hr | hr
      · exact hP.parent r x hr
      · rw [List.mem_singleton] at hr
        rwa [(List.append_inj' hr rfl).1]
    exact ⟨List.mem_append_left _ hinner.mem, hinner.noCode⟩
  codes := fun e he => List.mem_append_left _ (hP.codes e he)

theorem TriePaths.codeSymbol_of_notMem {P : List Bits} {recs : List (Nat × Bits)} (hP : TriePaths P recs) {q : Bits}
    (hq : q ∉ P) : codeSymbol recs q = none :=
  codeSymbol_eq_none.2 fun e he heq => hq (heq ▸ hP.codes e he)

/-- Every path of the trie has its prefixes among the paths. -/
theorem TriePaths.mem_of_prefix {P : List Bits} {recs : List (Nat × Bits)} (hP : TriePaths P recs) {p q : Bits}
    (hpq : p <+: q) (hq : q ∈ P) : p ∈ P := by
  obtain ⟨c, rfl⟩ := hpq
  induction c generalizing p with
  | nil => rwa [List.append_nil] at hq
  | cons b c ih =>
    rw [List.append_cons] at hq
    exact (hP.parent p b (ih hq)).mem

/-- The nodes on the way to an interior node are interior. -/
theorem TriePaths.inner_of_prefix {P : List Bits} {recs : List (Nat × Bits)} (hP : TriePaths P recs) {p q : Bits}
    (hpq : p <+: q) (hq : InnerPath P recs q) : InnerPath P recs p := by
  obtain ⟨_ | ⟨b, c⟩, rfl⟩ := hpq
  · simpa using hq
  · exact hP.parent p b (hP.mem_of_prefix ⟨c, by simp⟩ hq.mem)

/-- The path q extends no code: neither q nor a node on the way to it is a leaf. -/
def avoidsCodes (recs : List (Nat × Bits)) (q : Bits) : Prop := ∀ e ∈ recs, ¬ e.2 <+: q

theorem avoidsCodes.codeSymbol_eq_none {recs : List (Nat × Bits)} {p q : Bits} (h : avoidsCodes recs q)
    (hpq : p <+: q) : codeSymbol recs p = none :=
  Machine.codeSymbol_eq_none.2 fun e he heq => h e he (heq ▸ hpq)

theorem TriePaths.avoidsCodes_of_inner {P : List Bits} {recs : List (Nat × Bits)} (hP : TriePaths P recs) {p : Bits}
    (hp : InnerPath P recs p) : avoidsCodes recs p := by
  intro e he hep
  exact codeSymbol_eq_none.1 (hP.inner_of_prefix hep hp).noCode e he rfl

@[simp] theorem raise_map {α β : Type} (k : ErrorKind) (s i v : Nat) (f : α → β) :
    (f <$> (raise k s i v : Except Stop α)) = raise k s i v := rfl

@[simp] theorem ok_map {α β : Type} (a : α) (f : α → β) : (f <$> (Except.ok a : Except Stop α)) = .ok (f a) := rfl

section
variable {cap j sym : Nat} {P : List Bits} {recs : List (Nat × Bits)} {p : Bits} {b : Bool} {c : Bits}

/-- The last edge finds a node: a conflict. -/
theorem trieInsertPath_last_taken (hp : InnerPath P recs p) (hq : p ++ [b] ∈ P) :
    trieInsertPath cap j sym [b] (P.idxOf p) (trieArena P recs) = raise .corruptTree 5 j sym := by
  simp [trieInsertPath, child_trieArena hp, pathLink_of_mem hq, raiseIf_pos]

/-- The last edge finds no node and there is none left. -/
theorem trieInsertPath_last_full (hp : InnerPath P recs p) (hq : p ++ [b] ∉ P) (hcap : P.length = cap) :
    trieInsertPath cap j sym [b] (P.idxOf p) (trieArena P recs) = raise .corruptTree 6 j sym := by
  simp [trieInsertPath, child_trieArena hp, pathLink_of_notMem hq, raiseIf_neg, raiseIf_pos hcap]

/-- The last edge hangs the leaf. -/
theorem trieInsertPath_last (hP : TriePaths P recs) (hp : InnerPath P recs p) (hq : p ++ [b] ∉ P)
    (hcap : P.length ≠ cap) :
    trieInsertPath cap j sym [b] (P.idxOf p) (trieArena P recs) =
      .ok (trieArena (P ++ [p ++ [b]]) (recs ++ [(sym, p ++ [b])])) := by
  have hleaf : codeSymbol (recs ++ [(sym, p ++ [b])]) (p ++ [b]) = some sym := by
    simp [codeSymbol_concat, hP.codeSymbol_of_notMem hq]
  have hsame : ∀ r ∈ P, codeSymbol (recs ++ [(sym, p ++ [b])]) r = codeSymbol recs r := by
    intro r hr
    simp [codeSymbol_concat, (ne_of_mem_of_notMem hr hq).symm]
  have hset := setChild_trieArena hP hp hq hsame (trieNode_code hleaf (P ++ [p ++ [b]])).symm
  simp [trieInsertPath, child_trieArena hp, pathLink_of_notMem hq, raiseIf_neg, hcap, hset]

/-- An earlier edge finds a leaf: a conflict. -/
theorem trieInsertPath_edge_code (hc : c ≠ []) (hp : InnerPath P recs p) (hq : p ++ [b] ∈ P) {s : Nat}
    (hs : codeSymbol recs (p ++ [b]) = some s) :
    trieInsertPath cap j sym (b :: c) (P.idxOf p) (trieArena P recs) = raise .corruptTree 5 j sym := by
  simp [trieInsertPath, child_trieArena hp, pathLink_of_mem hq, trieArena_getElem? hq, trieNode_code hs]

/-- An earlier edge leads to an interior node. -/
theorem trieInsertPath_edge_inner (hc : c ≠ []) (hp : InnerPath P recs p) (hq : InnerPath P recs (p ++ [b])) :
    trieInsertPath cap j sym (b :: c) (P.idxOf p) (trieArena P recs) =
      trieInsertPath cap j sym c (P.idxOf (p ++ [b])) (trieArena P recs) := by
  simp [trieInsertPath, child_trieArena hp, pathLink_of_mem hq.mem, trieArena_getElem? hq.mem, trieNode_inner hq.noCode]

/-- An earlier edge finds no node and there is none left. -/
theorem trieInsertPath_edge_full (hc : c ≠ []) (hp : InnerPath P recs p) (hq : p ++ [b] ∉ P) (hcap : P.length = cap) :
    trieInsertPath cap j sym (b :: c) (P.idxOf p) (trieArena P recs) = raise .corruptTree 6 j sym := by
  simp [trieInsertPath, child_trieArena hp, pathLink_of_notMem hq, raiseIf_pos hcap]

/-- An earlier edge makes an interior node and goes on there. -/
theorem trieInsertPath_edge_new (hc : c ≠ []) (hP : TriePaths P recs) (hp : InnerPath P recs p) (hq : p ++ [b] ∉ P)
    (hcap : P.length ≠ cap) :
    trieInsertPath cap j sym (b :: c) (P.idxOf p) (trieArena P recs) =
      trieInsertPath cap j sym c ((P ++ [p ++ [b]]).idxOf (p ++ [b])) (trieArena (P ++ [p ++ [b]]) recs) := by
  have hbelow (x : Bool) : p ++ [b] ++ [x] ∉ P ++ [p ++ [b]] := by
    intro h
    rcases List.mem_append.1 h with h | h
    · exact hq (hP.parent _ x h).mem
    · simp at h
  have hnew : Node.internal none none 0 = trieNode (P ++ [p ++ [b]]) recs (p ++ [b]) := by
    rw [trieNode_inner (hP.codeSymbol_of_notMem hq), pathLink_of_notMem (hbelow _), pathLink_of_notMem (hbelow _)]
  have hset := setChild_trieArena hP hp hq (fun _ _ => rfl) hnew
  have hidx : (P ++ [p ++ [b]]).idxOf (p ++ [b]) = P.length := idxOf_concat hq
  simp [trieInsertPath, child_trieArena hp, pathLink_of_notMem hq, raiseIf_neg hcap, hset, hidx]

/-- A code in conflict with the trie is found before any node is made (43_code_table.md R181). -/
theorem trieInsertPath_conflict (hP : TriePaths P recs) (hc : c ≠ []) (hp : InnerPath P recs p)
    (h : p ++ c ∈ P ∨ ∃ e ∈ recs, e.2 <+: p ++ c) :
    trieInsertPath cap j sym c (P.idxOf p) (trieArena P recs) = raise .corruptTree 5 j sym := by
  induction c generalizing p with
  | nil => exact absurd rfl hc
  | cons b c ih =>
    rw [List.append_cons] at h
    have hq : p ++ [b] ∈ P := by
      rcases h with h | ⟨e, he, hec⟩
      · exact hP.mem_of_prefix (List.prefix_append _ _) h
      · rcases List.prefix_or_prefix_of_prefix hec (List.prefix_append (p ++ [b]) c) with hep | hpe
        · rcases List.prefix_concat_iff.1 hep with heq | hep
          · exact heq ▸ hP.codes e he
          · exact absurd hep (hP.avoidsCodes_of_inner hp e he)
        · exact hP.mem_of_prefix hpe (hP.codes e he)
    by_cases hnil : c = []
    · subst hnil
      exact trieInsertPath_last_taken hp hq
    cases hs : codeSymbol recs (p ++ [b]) with
    | some s => exact trieInsertPath_edge_code hnil hp hq hs
    | none => exact (trieInsertPath_edge_inner hnil hp ⟨hq, hs⟩).trans (ih hnil ⟨hq, hs⟩ h)

/-- A code in no conflict: the nodes it lacks are made, in the order of the path, where there are so many left
(43_code_table.md R181). -/
theorem trieInsertPath_new (hP : TriePaths P recs) (hc : c ≠ []) (hp : InnerPath P recs p) (hnew : p ++ c ∉ P)
    (havoid : avoidsCodes recs (p ++ c)) (hcap : P.length ≤ cap) :
    trieInsertPath cap j sym c (P.idxOf p) (trieArena P recs) =
      if ((pathsFrom p c).foldl addPath P).length ≤ cap then
        .ok (trieArena ((pathsFrom p c).foldl addPath P) (recs ++ [(sym, p ++ c)]))
      else raise .corruptTree 6 j sym := by
  induction c generalizing p P with
  | nil => exact absurd rfl hc
  | cons b c ih =>
    rw [pathsFrom_cons, List.foldl_cons]
    by_cases hnil : c = []
    · subst hnil
      simp only [pathsFrom_nil, List.foldl_nil, addPath, if_neg hnew, List.length_append, List.length_singleton]
      by_cases hfull : P.length = cap
      · rw [trieInsertPath_last_full hp hnew hfull, if_neg (by omega)]
      · rw [trieInsertPath_last hP hp hnew hfull, if_pos (by omega)]
    rw [List.append_cons p b c] at hnew havoid ⊢
    have hnone := havoid.codeSymbol_eq_none (List.prefix_append (p ++ [b]) c)
    by_cases hq : p ++ [b] ∈ P
    · rw [trieInsertPath_edge_inner hnil hp ⟨hq, hnone⟩, addPath, if_pos hq]
      exact ih hP hnil ⟨hq, hnone⟩ hnew havoid hcap
    have hadd : addPath P (p ++ [b]) = P ++ [p ++ [b]] := if_neg hq
    by_cases hfull : P.length = cap
    · have hlen := length_le_foldl_addPath (pathsFrom (p ++ [b]) c) (addPath P (p ++ [b]))
      rw [hadd, List.length_append, List.length_singleton] at hlen
      rw [trieInsertPath_edge_full hnil hp hq hfull, if_neg (by rw [hadd]; omega)]
    · rw [trieInsertPath_edge_new hnil hP hp hq hfull, hadd]
      refine ih (hP.concat hp hq) hnil ⟨by simp, hnone⟩ ?_ havoid ?_
      · simpa [hnil] using hnew
      · rw [List.length_append, List.length_singleton]; omega

end

/-! ## The trie of a PrefixTable -/

theorem PrefixTable.sublist {A : Nat} {recs recs' : List (Nat × Bits)} (hT : PrefixTable A recs)
    (h : recs'.Sublist recs) :
    PrefixTable A recs' where
  inRange := fun e he => hT.inRange e (h.subset he)
  nonEmpty := fun e he => hT.nonEmpty e (h.subset he)
  distinct := hT.distinct.sublist h
  noPrefix := hT.noPrefix.sublist h

/-- The last record of a PrefixTable repeats no symbol and is in no conflict. -/
theorem PrefixTable.last {A : Nat} {recs : List (Nat × Bits)} {e : Nat × Bits} (hT : PrefixTable A (recs ++ [e])) :
    e.2 ≠ [] ∧ e.1 ∉ recs.map (·.1) ∧ ¬ conflicts recs e.2 := by
  have hdistinct := (List.pairwise_append.1 hT.distinct).2.2
  have hprefix := (List.pairwise_append.1 hT.noPrefix).2.2
  refine ⟨hT.nonEmpty e (by simp), ?_, ?_⟩
  · rintro hmem
    obtain ⟨f, hf, hfe⟩ := List.mem_map.1 hmem
    exact hdistinct f hf e (by simp) hfe
  · rintro ⟨f, hf, hfe⟩
    exact hfe.elim (hprefix f hf e (by simp)).1 (hprefix f hf e (by simp)).2

/-- A place inside the trie is an interior node of it. -/
theorem PrefixTable.innerPath {A : Nat} {recs : List (Nat × Bits)} (hT : PrefixTable A recs) {p : Bits}
    (hp : insideTrie recs p) : InnerPath (triePaths recs) recs p := by
  rcases hp with rfl | ⟨e, he, hpe, hne⟩
  · exact ⟨mem_triePaths.2 (.inl rfl), codeSymbol_eq_none.2 hT.nonEmpty⟩
  · exact ⟨mem_triePaths.2 (.inr ⟨e, he, hpe⟩), hT.codeSymbol_of_prefix he hpe hne⟩

theorem PrefixTable.triePaths {A : Nat} {recs : List (Nat × Bits)} (hT : PrefixTable A recs) :
    TriePaths (triePaths recs) recs where
  nodup := nodup_foldl_addPath (List.pairwise_singleton _ _)
  rootFirst := by rw [Machine.triePaths, foldl_addPath_eq, List.singleton_append, List.idxOf_cons_self]
  root := hT.innerPath (.inl rfl)
  parent := by
    intro p b hpb
    refine hT.innerPath ?_
    rcases mem_triePaths.1 hpb with h | ⟨e, he, hpe⟩
    · simp at h
    · refine .inr ⟨e, he, (List.prefix_append p [b]).trans hpe, fun heq => ?_⟩
      have hlen := hpe.length_le
      rw [← heq, List.length_append, List.length_singleton] at hlen
      exact Nat.not_succ_le_self _ hlen
  codes := fun e he => mem_triePaths.2 (.inr ⟨e, he, List.prefix_rfl⟩)

theorem trieOf_nil : trieOf [] = ctTrieInit := rfl

@[simp] theorem mem_trieOf_seen {recs : List (Nat × Bits)} {sym : Nat} :
    sym ∈ (trieOf recs).seen ↔ sym ∈ recs.map (·.1) := List.mem_reverse

section
variable {A cap j sym : Nat} {recs : List (Nat × Bits)} {c : Bits}

theorem ctTrieInsert_repeated (h : sym ∈ recs.map (·.1)) :
    ctTrieInsert cap j sym c (trieOf recs) = raise .corruptTree 4 j sym := by
  simp only [ctTrieInsert, raiseIf_pos (mem_trieOf_seen.2 h), raise_bind]

theorem ctTrieInsert_eq (h : sym ∉ recs.map (·.1)) :
    ctTrieInsert cap j sym c (trieOf recs) =
      (trieInsertPath cap j sym c 0 (trieArena (triePaths recs) recs) >>= fun arena =>
        .ok ⟨arena, sym :: (recs.map (·.1)).reverse⟩) := by
  simp only [ctTrieInsert, raiseIf_neg (mt mem_trieOf_seen.1 h), ok_bind]
  rfl

variable (hT : PrefixTable A recs) (hc : c ≠ [])
include hT hc

theorem ctTrieInsert_conflict (h : sym ∉ recs.map (·.1)) (hcon : conflicts recs c) :
    ctTrieInsert cap j sym c (trieOf recs) = raise .corruptTree 5 j sym := by
  have hP := hT.triePaths
  have hmet : c ∈ triePaths recs ∨ ∃ e ∈ recs, e.2 <+: c := by
    obtain ⟨e, he, hec | hce⟩ := hcon
    · exact .inr ⟨e, he, hec⟩
    · exact .inl (mem_triePaths.2 (.inr ⟨e, he, hce⟩))
  have hpath := trieInsertPath_conflict (cap := cap) (j := j) (sym := sym) hP hc hP.root hmet
  rw [hP.rootFirst] at hpath
  rw [ctTrieInsert_eq h, hpath, raise_bind]

/-- A code in no conflict is inserted where the arena has room for its new nodes (43_code_table.md R181, R182). -/
theorem ctTrieInsert_new (h : sym ∉ recs.map (·.1)) (hcon : ¬ conflicts recs c) (hcap : trieNodes recs ≤ cap) :
    ctTrieInsert cap j sym c (trieOf recs) =
      if trieNodes (recs ++ [(sym, c)]) ≤ cap then .ok (trieOf (recs ++ [(sym, c)]))
      else raise .corruptTree 6 j sym := by
  have hP := hT.triePaths
  have havoid : avoidsCodes recs c := fun e he hec => hcon ⟨e, he, .inl hec⟩
  have hnew : c ∉ triePaths recs := by
    rw [mem_triePaths]
    rintro (h | ⟨e, he, hce⟩)
    · exact hc h
    · exact hcon ⟨e, he, .inr hce⟩
  have hpaths : triePaths (recs ++ [(sym, c)]) = (pathsFrom [] c).foldl addPath (triePaths recs) := by
    rw [triePaths_append, List.flatMap_singleton]
  have hpath := trieInsertPath_new (cap := cap) (j := j) (sym := sym) hP hc hP.root hnew havoid
    (triePaths_length recs ▸ hcap)
  rw [hP.rootFirst, ← hpaths, triePaths_length] at hpath
  rw [ctTrieInsert_eq h, hpath]
  split
  · simp [trieOf]
  · rfl

end

/-- The records of a PrefixTable that fits the arena are all accepted (43_code_table.md R181). -/
theorem insertRecords_trieOf {A cap : Nat} {recs rest : List (Nat × Bits)} (hT : PrefixTable A (recs ++ rest))
    (hcap : trieNodes (recs ++ rest) ≤ cap) (j : Nat) :
    insertRecords cap j rest (trieOf recs) = .ok (trieOf (recs ++ rest)) := by
  induction rest generalizing recs j with
  | nil => rw [List.append_nil]; rfl
  | cons e rest ih =>
    obtain ⟨s, c⟩ := e
    rw [List.append_cons] at hT hcap ⊢
    have hTe := hT.sublist (List.sublist_append_left (recs ++ [(s, c)]) rest)
    obtain ⟨hne, hsym, hcon⟩ := hTe.last
    have hfits := Nat.le_trans (trieNodes_le_append _ rest) hcap
    have hstep : ctTrieInsert cap j s c (trieOf recs) = .ok (trieOf (recs ++ [(s, c)])) := by
      rw [ctTrieInsert_new (hTe.sublist (List.sublist_append_left _ _)) hne hsym hcon
        (Nat.le_trans (trieNodes_le_append _ _) hfits), if_pos hfits]
    rw [insertRecords, hstep]
    exact ih hT hcap (j + 1)

end Sys2Proof.Machine
end

section
/-! PROOFS of the decoder family (46_decoder.md): DECODE's checks in the order of R252, its records (R257) and the two
errors of its walk (R268). -/

namespace Sys2Proof.Machine

/-! ## The records -/

section
variable {rd : Nat → Byte} {sa sl A cap more j off : Nat} {t : Trie}

theorem decodeRecords_shortHead (h : sl < off + 5) :
    decodeRecords rd sa sl A cap (more + 1) j off t = raise .truncatedStream 1 (off + 5) j := by
  simp [decodeRecords, raiseIf_pos h]

variable (hhead : off + 5 ≤ sl)
include hhead

theorem decodeRecords_symbol (h : A ≤ memRead rd (sa + off) 4) :
    decodeRecords rd sa sl A cap (more + 1) j off t = raise .corruptTree 2 j (memRead rd (sa + off) 4) := by
  simp [decodeRecords, raiseIf_neg (Nat.not_lt.2 hhead), raiseIf_pos h]

variable (hsym : memRead rd (sa + off) 4 < A)
include hsym

theorem decodeRecords_emptyCode (h : memRead rd (sa + off + 4) 1 = 0) :
    decodeRecords rd sa sl A cap (more + 1) j off t = raise .corruptTree 3 j (memRead rd (sa + off) 4) := by
  simp [decodeRecords, raiseIf_neg (Nat.not_lt.2 hhead), raiseIf_neg (Nat.not_le.2 hsym), raiseIf_pos h]

variable (hlen : memRead rd (sa + off + 4) 1 ≠ 0)
include hlen

theorem decodeRecords_shortCode (h : sl < off + 5 + ceil8 (memRead rd (sa + off + 4) 1)) :
    decodeRecords rd sa sl A cap (more + 1) j off t =
      raise .truncatedStream 1 (off + 5 + ceil8 (memRead rd (sa + off + 4) 1)) j := by
  simp [decodeRecords, raiseIf_neg (Nat.not_lt.2 hhead), raiseIf_neg (Nat.not_le.2 hsym), raiseIf_neg hlen,
    raiseIf_pos h]

variable (hcode : off + 5 + ceil8 (memRead rd (sa + off + 4) 1) ≤ sl)
include hcode

/-- A record that fits, of a symbol of the alphabet and with a code, goes to CT_TRIE_INSERT (46_decoder.md R262). -/
theorem decodeRecords_insert :
    decodeRecords rd sa sl A cap (more + 1) j off t =
      (ctTrieInsert cap j (memRead rd (sa + off) 4) (unpackBits rd (sa + off + 5) (memRead rd (sa + off + 4) 1)) t >>=
        decodeRecords rd sa sl A cap more (j + 1) (off + 5 + ceil8 (memRead rd (sa + off + 4) 1))) := by
  simp [decodeRecords, raiseIf_neg (Nat.not_lt.2 hhead), raiseIf_neg (Nat.not_le.2 hsym), raiseIf_neg hlen,
    raiseIf_neg (Nat.not_lt.2 hcode)]

end

@[simp] theorem recordsSize_cons (e : Nat × Bits) (recs : List (Nat × Bits)) :
    recordsSize (e :: recs) = 5 + ceil8 e.2.length + recordsSize recs := rfl

/-- Records in memory whose own checks pass are what CT_TRIE_INSERT is given, one after another (46_decoder.md R257). -/
theorem decodeRecords_insertRecords {rd : Nat → Byte} {sa sl A cap more j off : Nat} {recs : List (Nat × Bits)}
    {t : Trie}
    (hrange : ∀ e ∈ recs, e.1 < A) (hne : ∀ e ∈ recs, e.2 ≠ []) (hat : recordsAt rd (sa + off) recs)
    (hfit : off + recordsSize recs ≤ sl) :
    decodeRecords rd sa sl A cap (recs.length + more) j off t =
      (insertRecords cap j recs t >>=
        decodeRecords rd sa sl A cap more (j + recs.length) (off + recordsSize recs)) := by
  induction recs generalizing j off t with
  | nil => simp [insertRecords, recordsSize]
  | cons e recs ih =>
    obtain ⟨s, c⟩ := e
    obtain ⟨hs, hL, hc, hrest⟩ := hat
    obtain ⟨hrange1, hrange⟩ := List.forall_mem_cons.1 hrange
    obtain ⟨hne1, hne⟩ := List.forall_mem_cons.1 hne
    have hsize : recordsSize ((s, c) :: recs) = 5 + ceil8 c.length + recordsSize recs := recordsSize_cons _ _
    rw [hsize] at hfit
    have hlen : c.length ≠ 0 := mt List.length_eq_zero_iff.1 hne1
    have hstep := decodeRecords_insert (rd := rd) (sa := sa) (sl := sl) (A := A) (cap := cap)
      (more := recs.length + more) (j := j) (off := off) (t := t) (by omega) (hs ▸ hrange1) (hL ▸ hlen)
      (by rw [hL]; omega)
    rw [hs, hL, hc] at hstep
    rw [List.length_cons, Nat.add_right_comm, hstep, insertRecords, hsize]
    cases ctTrieInsert cap j s c t with
    | error e => rfl
    | ok t' =>
      have h := ih (j := j + 1) (off := off + 5 + ceil8 c.length) (t := t') hrange hne
        (by simpa only [Nat.add_assoc] using hrest) (by omega)
      simpa [Except.bind, Nat.add_assoc, Nat.add_comm 1] using h

/-- The records of a PrefixTable that fits the source and the arena are accepted, and leave its trie. -/
theorem decodeRecords_accepted {rd : Nat → Byte} {sa sl A cap : Nat} {recs : List (Nat × Bits)}
    (hT : PrefixTable A recs) (hat : recordsAt rd (sa + 24) recs) (hfit : 24 + recordsSize recs ≤ sl)
    (hcap : trieNodes recs ≤ cap) (more : Nat) :
    decodeRecords rd sa sl A cap (recs.length + more) 0 24 ctTrieInit =
      decodeRecords rd sa sl A cap more recs.length (24 + recordsSize recs) (trieOf recs) := by
  rw [decodeRecords_insertRecords hT.inRange hT.nonEmpty hat hfit, ← trieOf_nil,
    insertRecords_trieOf (recs := []) hT hcap, ok_bind, Nat.zero_add, List.nil_append]

/-- What the parsing of records raises at the record after a PrefixTable is the next record's first failing check
(46_decoder.md R257). -/
theorem nextRecordErrs_of_decodeRecords {rd : Nat → Byte} {sa sl A cap more : Nat} {recs : List (Nat × Bits)}
    (hT : PrefixTable A recs) (hat : recordsAt rd (sa + 24) recs) (hfit : 24 + recordsSize recs ≤ sl)
    (hcap : trieNodes recs ≤ cap) {errs : Raised → Prop}
    (herrs : ∀ r,
      decodeRecords rd sa sl A cap (recs.length + (more + 1)) 0 24 ctTrieInit = .error (.raised r) → errs r) :
    NextRecordErrs rd sa sl A cap recs errs := by
  rw [decodeRecords_accepted hT hat hfit hcap] at herrs
  rintro off rfl sym rfl L rfl c rfl j rfl
  refine ⟨fun h => herrs _ (decodeRecords_shortHead h), fun hhead => ⟨fun h => herrs _ (decodeRecords_symbol hhead h),
    fun hsym => ⟨fun h => herrs _ (decodeRecords_emptyCode hhead hsym h), fun hL => ?_⟩⟩⟩
  have hlen : memRead rd (sa + (24 + recordsSize recs) + 4) 1 ≠ 0 := Nat.one_le_iff_ne_zero.1 hL
  refine ⟨fun h => herrs _ (decodeRecords_shortCode hhead hsym hlen h), fun hcode => ?_⟩
  rw [decodeRecords_insert hhead hsym hlen hcode] at herrs
  have hc : unpackBits rd (sa + (24 + recordsSize recs) + 5)
      (memRead rd (sa + (24 + recordsSize recs) + 4) 1) ≠ [] := by
    simpa [unpackBits] using hlen
  refine ⟨fun hseen => herrs _ ?_, fun hseen => ⟨fun hcon => herrs _ ?_, fun hcon hfull => herrs _ ?_⟩⟩
  · rw [ctTrieInsert_repeated hseen]; rfl
  · rw [ctTrieInsert_conflict hT hc hseen hcon]; rfl
  · rw [ctTrieInsert_new hT hc hseen hcon hcap, if_neg (Nat.not_le.2 hfull)]; rfl

/-! ## The header and the checks of the sizes -/

/-- A header that is accepted (46_decoder.md R253 to R256): its symbol count n, its alphabet size A, its entry count
k and its payload bit count B. -/
structure HeaderOk (rd : Nat → Byte) (sa sl n A k B : Nat) : Prop where
  fits : 24 ≤ sl
  symbolCount : memRead rd sa 8 = n
  alphabetSize : memRead rd (sa + 8) 4 = A
  alphabet : ¬ (A = 0 ∨ A > Config.maxAlphabet)
  entryCount : memRead rd (sa + 12) 4 = k
  entries : k ≤ A
  payloadBitCount : memRead rd (sa + 16) 8 = B

/-- MAX_ALPHABET is 2^24 (00_scope.md R10). -/
theorem not_alphabetOutside {A : Nat} (h1 : 1 ≤ A) (h2 : A ≤ 2 ^ 24) : ¬ (A = 0 ∨ A > Config.maxAlphabet) := by
  have : Config.maxAlphabet = 2 ^ 24 := rfl
  omega

theorem countBytes_eq : Config.countBytes = 8 := rfl

section
variable {rd : Nat → Byte} {sa sl dc : Nat} {w : Work}

theorem decodeContainer_short (h : sl < 24) : decodeContainer rd sa sl dc w = raise .truncatedStream 0 24 0 := by
  simp only [decodeContainer, raiseIf_pos h, raise_bind]

theorem decodeContainer_alphabet (hfit : 24 ≤ sl)
    (h : memRead rd (sa + 8) 4 = 0 ∨ memRead rd (sa + 8) 4 > Config.maxAlphabet) :
    decodeContainer rd sa sl dc w = raise .corruptTree 0 0 (memRead rd (sa + 8) 4) := by
  simp only [decodeContainer, raiseIf_neg (Nat.not_lt.2 hfit), raiseIf_pos h, ok_bind, raise_bind]

theorem decodeContainer_entries (hfit : 24 ≤ sl)
    (hA : ¬ (memRead rd (sa + 8) 4 = 0 ∨ memRead rd (sa + 8) 4 > Config.maxAlphabet))
    (h : memRead rd (sa + 8) 4 < memRead rd (sa + 12) 4) :
    decodeContainer rd sa sl dc w = raise .corruptTree 1 0 (memRead rd (sa + 12) 4) := by
  simp only [decodeContainer, raiseIf_neg (Nat.not_lt.2 hfit), raiseIf_neg hA, raiseIf_pos h, ok_bind, raise_bind]

variable {n A k B : Nat} (hH : HeaderOk rd sa sl n A k B)
include hH

theorem decodeContainer_records {e : Stop}
    (h : decodeRecords rd sa sl A Config.decNodeCap k 0 24 ctTrieInit = .error e) :
    decodeContainer rd sa sl dc w = .error e := by
  obtain ⟨hfit, hn, hAeq, hA, hkeq, hk, hB⟩ := hH
  simp only [decodeContainer, raiseIf_neg (Nat.not_lt.2 hfit), hAeq, hkeq, raiseIf_neg hA,
    raiseIf_neg (Nat.not_lt.2 hk), h, ok_bind, error_bind]

variable {off : Nat} {t : Trie} (hrec : decodeRecords rd sa sl A Config.decNodeCap k 0 24 ctTrieInit = .ok (off, t))
include hrec

theorem decodeContainer_shortPayload (h : sl < off + ceil8 B) :
    decodeContainer rd sa sl dc w = raise .truncatedStream 2 (off + ceil8 B) 0 := by
  obtain ⟨hfit, hn, hAeq, hA, hkeq, hk, hB⟩ := hH
  simp only [decodeContainer, countBytes_eq, hn, hAeq, hkeq, hB, raiseIf_neg (Nat.not_lt.2 hfit), raiseIf_neg hA,
    raiseIf_neg (Nat.not_lt.2 hk), hrec, raiseIf_pos h, ok_bind, raise_bind]

variable (hpay : off + ceil8 B ≤ sl)
include hpay

theorem decodeContainer_smallDestination (h : dc < 4 * n) :
    decodeContainer rd sa sl dc w = raise .bounds 3 (min (4 * n) (2 ^ 64 - 1)) 0 := by
  obtain ⟨hfit, hn, hAeq, hA, hkeq, hk, hB⟩ := hH
  simp only [decodeContainer, countBytes_eq, hn, hAeq, hkeq, hB, raiseIf_neg (Nat.not_lt.2 hfit), raiseIf_neg hA,
    raiseIf_neg (Nat.not_lt.2 hk), hrec, raiseIf_neg (Nat.not_lt.2 hpay), raiseIf_pos h, ok_bind, raise_bind]

/-- Where every check passes, the walk decides (46_decoder.md R267 to R272). -/
theorem decodeContainer_walk (hcap : 4 * n ≤ dc) :
    decodeContainer rd sa sl dc w =
      (walkLoop rd t.arena n (B + 1) ⟨⟨sa + off, B, 0⟩, 0, 0, []⟩ >>= fun v =>
        .ok { bytes := v.out.flatMap (leBytes 4), resultLen := 4 * n, resultCount := n, payloadBits := v.br.pos,
              tableEntries := k }) := by
  obtain ⟨hfit, hn, hAeq, hA, hkeq, hk, hB⟩ := hH
  simp only [decodeContainer, countBytes_eq, hn, hAeq, hkeq, hB, raiseIf_neg (Nat.not_lt.2 hfit), raiseIf_neg hA,
    raiseIf_neg (Nat.not_lt.2 hk), hrec, raiseIf_neg (Nat.not_lt.2 hpay), raiseIf_neg (Nat.not_lt.2 hcap), brInit,
    ok_bind]
  rfl

end

theorem decodeRun_regions {m : Nat} {rd : Nat → Byte} {x : Args} {w : Work} {e : Stop}
    (h : regionCheck m x.sa x.sl x.da x.dc = .error e) : decodeRun m rd x w = .error e := by
  rw [decodeRun, h, error_bind]

theorem decodeRun_container {m : Nat} {rd : Nat → Byte} {x : Args} {w : Work} (h : RegionsOk m x) :
    decodeRun m rd x w = decodeContainer rd x.sa x.sl x.dc (beginWork w) := by
  rw [decodeRun, regionCheck_of_regionsOk h, ok_bind]

theorem State.reports_of_decodeRun {s : State} {x : Args} {e : Raised} (hb : s.engine = .busy .decode x)
    (h : decodeRun s.memBytes s.mem.readByte x s.work = .error (.raised e)) : s.reports e := State.reports_of_raise hb h

theorem State.reports_of_decodeContainer {s : State} {x : Args} {e : Raised} (hb : s.engine = .busy .decode x)
    (hr : RegionsOk s.memBytes x)
    (h : decodeContainer s.mem.readByte x.sa x.sl x.dc (beginWork s.work) = .error (.raised e)) : s.reports e :=
  State.reports_of_decodeRun hb ((decodeRun_container hr).trans h)

/-- Settles O40: REGION_CHECK's three errors, then the header's, each where the checks before it pass. -/
theorem decodeReportsTheFirstFailingHeaderCheck : Obligations.DecodeReportsTheFirstFailingHeaderCheck := by
  intro s x hb
  refine ⟨fun hs => ?_, fun hs hd => ?_, fun hs hd ho => ?_, fun hr => ⟨fun hfit => ?_, ?_⟩⟩
  · exact State.reports_of_decodeRun hb (decodeRun_regions (regionCheck_source hs x.da x.dc))
  · exact State.reports_of_decodeRun hb (decodeRun_regions (regionCheck_destination hs hd))
  · exact State.reports_of_decodeRun hb (decodeRun_regions (regionCheck_overlap hs hd ho))
  · exact State.reports_of_decodeContainer hb hr (decodeContainer_short hfit)
  · rintro hfit alphabet rfl entries rfl
    refine ⟨fun hA => ?_, fun hA1 hA2 hk => ?_⟩
    · exact State.reports_of_decodeContainer hb hr (decodeContainer_alphabet hfit hA)
    · exact State.reports_of_decodeContainer hb hr (decodeContainer_entries hfit (not_alphabetOutside hA1 hA2) hk)

/-- Settles O41: what the parsing of records raises at the next record, which is what a running DECODE reports. -/
theorem decodeReportsTheFirstBadRecord : Obligations.DecodeReportsTheFirstBadRecord := by
  refine ⟨?_, fun rd sa sl A cap recs more hT hat hfit hcap => ?_⟩
  · rintro s x A recs hb hr rfl hA1 hA2 hk hmore hT hat hfit hcap
    obtain ⟨more, hcount⟩ := Nat.exists_eq_add_of_lt hmore
    have hH : HeaderOk s.mem.readByte x.sa x.sl _ (memRead s.mem.readByte (x.sa + 8) 4) (recs.length + (more + 1)) _ :=
      ⟨by omega, rfl, rfl, not_alphabetOutside hA1 hA2, hcount, hcount ▸ hk, rfl⟩
    exact nextRecordErrs_of_decodeRecords hT hat hfit hcap fun r h =>
      State.reports_of_decodeContainer hb hr (decodeContainer_records hH h)
  · exact nextRecordErrs_of_decodeRecords hT hat hfit hcap fun _ => id

/-- The records of an accepted table, as they are parsed with DEC_NODE_CAP = 2^25 nodes. -/
theorem decodeRecords_table {rd : Nat → Byte} {sa sl A : Nat} {recs : List (Nat × Bits)} (hT : PrefixTable A recs)
    (hat : recordsAt rd (sa + 24) recs) (hfit : 24 + recordsSize recs ≤ sl) (hcap : trieNodes recs ≤ 2 ^ 25) :
    decodeRecords rd sa sl A Config.decNodeCap recs.length 0 24 ctTrieInit =
      .ok (24 + recordsSize recs, trieOf recs) :=
  decodeRecords_accepted hT hat hfit hcap 0

/-- Settles O42: after the table, the payload's size and then the destination's. -/
theorem decodeReportsShortPayloadAndSmallDestination : Obligations.DecodeReportsShortPayloadAndSmallDestination := by
  intro s x count A recs bits hb hr hfit hn hA hk hB hA1 hA2 hkA hat hT hcap
  have hH : HeaderOk s.mem.readByte x.sa x.sl count A recs.length bits :=
    ⟨by omega, hn.symm, hA.symm, not_alphabetOutside hA1 hA2, hk.symm, hkA, hB.symm⟩
  have hrec := decodeRecords_table hT hat hfit hcap
  refine ⟨fun hpay => ?_, fun hpay hdst => ?_⟩
  · exact State.reports_of_decodeContainer hb hr (decodeContainer_shortPayload hH hrec hpay)
  · exact State.reports_of_decodeContainer hb hr (decodeContainer_smallDestination hH hrec hpay hdst)

/-! ## The walk -/

theorem bitsOf_cons (recs : List (Nat × Bits)) (q : Nat) (S : List Nat) :
    bitsOf recs (q :: S) = codeOf recs q ++ bitsOf recs S := rfl

/-- A symbol of the table has its code there. -/
theorem mem_codeOf {recs : List (Nat × Bits)} {q : Nat} (h : q ∈ recs.map (·.1)) : (q, codeOf recs q) ∈ recs := by
  have hlisted : mapGet recs q ≠ none := by
    induction recs with
    | nil => simp at h
    | cons e recs ih =>
      obtain ⟨s, c⟩ := e
      by_cases hs : s = q
      · simp [mapGet, hs]
      · simpa [mapGet, hs] using ih (by simpa [Ne.symm hs] using h)
  obtain ⟨c, hc⟩ := Option.ne_none_iff_exists'.1 hlisted
  simpa [codeOf, hc] using mem_of_mapGet hc

theorem brAvailable_payload {payload pre rest : Bits} {b : Bool} (h : payload = pre ++ b :: rest) (base : Nat) :
    brAvailable ⟨base, payload.length, pre.length⟩ ≠ 0 := by
  simp [brAvailable, h]

section
variable {rd : Nat → Byte} {base : Nat} {payload : Bits} (hbits : unpackBits rd base payload.length = payload)
include hbits

/-- BR_GET gives the payload's next bit (44_bitstream.md R210). -/
theorem brGet_payload {pre rest : Bits} {b : Bool} (h : payload = pre ++ b :: rest) :
    brGet rd ⟨base, payload.length, pre.length⟩ = .ok (b, ⟨base, payload.length, pre.length + 1⟩) := by
  have hlt : pre.length < payload.length := by simp [h]
  have hbit : packedBit rd base pre.length = b := by
    have hget := congrArg (·[pre.length]?) hbits
    simpa [unpackBits, hlt, h] using hget
  simp [brGet, Nat.ne_of_lt hlt, hbit]

variable {P : List Bits} {recs : List (Nat × Bits)} {p pre rest : Bits} {b : Bool} {k : Nat} {out : List Nat}
variable (hp : InnerPath P recs p) (hpay : payload = pre ++ b :: rest)
include hp hpay

/-- A bit with no child (46_decoder.md R268). -/
theorem walkStep_null (hq : p ++ [b] ∉ P) :
    walkStep rd (trieArena P recs) ⟨⟨base, payload.length, pre.length⟩, P.idxOf p, k, out⟩ =
      raise .corruptTree 7 pre.length k := by
  simp [walkStep, raiseIf_neg (brAvailable_payload hpay base), brGet_payload hbits hpay, child_trieArena hp,
    pathLink_of_notMem hq]

/-- A bit that leads to an interior node. -/
theorem walkStep_inner (hq : InnerPath P recs (p ++ [b])) :
    walkStep rd (trieArena P recs) ⟨⟨base, payload.length, pre.length⟩, P.idxOf p, k, out⟩ =
      .ok ⟨⟨base, payload.length, pre.length + 1⟩, P.idxOf (p ++ [b]), k, out⟩ := by
  simp [walkStep, raiseIf_neg (brAvailable_payload hpay base), brGet_payload hbits hpay, child_trieArena hp,
    pathLink_of_mem hq.mem, trieArena_getElem? hq.mem, trieNode_inner hq.noCode]

/-- A bit that completes a code emits its symbol and goes back to the root (46_decoder.md R269). -/
theorem walkStep_code (hq : p ++ [b] ∈ P) {q : Nat} (hs : codeSymbol recs (p ++ [b]) = some q) :
    walkStep rd (trieArena P recs) ⟨⟨base, payload.length, pre.length⟩, P.idxOf p, k, out⟩ =
      .ok ⟨⟨base, payload.length, pre.length + 1⟩, 0, k + 1, out ++ [q]⟩ := by
  simp [walkStep, raiseIf_neg (brAvailable_payload hpay base), brGet_payload hbits hpay, child_trieArena hp,
    pathLink_of_mem hq, trieArena_getElem? hq, trieNode_code hs]

end

/-- No bit is left (46_decoder.md R268). -/
theorem walkStep_exhausted (rd : Nat → Byte) (arena : List Node) (base n cur k : Nat) (out : List Nat) :
    walkStep rd arena ⟨⟨base, n, n⟩, cur, k, out⟩ = raise .truncatedStream 3 k 0 := by
  simp [walkStep, brAvailable, raiseIf_pos]

theorem walkLoop_succ {rd : Nat → Byte} {arena : List Node} {sc n : Nat} {v : Walk} (h : v.emitted < sc) :
    walkLoop rd arena sc (n + 1) v = (walkStep rd arena v).bind (walkLoop rd arena sc n) := if_pos h

section
variable {rd : Nat → Byte} {base : Nat} {payload : Bits} (hbits : unpackBits rd base payload.length = payload)
variable {recs : List (Nat × Bits)}
include hbits

/-- The walk follows bits that stay inside the trie, one round for each. -/
theorem walkLoop_inside {P : List Bits} (hP : TriePaths P recs) {p c pre rest : Bits} {sc k : Nat} {out : List Nat}
    (hp : InnerPath P recs (p ++ c)) (hpay : payload = pre ++ c ++ rest) (hk : k < sc) :
    walkLoop rd (trieArena P recs) sc ((c ++ rest).length + 1) ⟨⟨base, payload.length, pre.length⟩, P.idxOf p, k, out⟩ =
      walkLoop rd (trieArena P recs) sc (rest.length + 1)
        ⟨⟨base, payload.length, (pre ++ c).length⟩, P.idxOf (p ++ c), k, out⟩ := by
  induction c generalizing p pre with
  | nil => simp
  | cons b c ih =>
    have hpay' : payload = pre ++ b :: (c ++ rest) := by simpa using hpay
    have hstep := walkStep_inner hbits (k := k) (out := out) (hP.inner_of_prefix (List.prefix_append _ _) hp) hpay'
      (hP.inner_of_prefix (by simp) hp)
    rw [List.cons_append, List.length_cons, walkLoop_succ hk, hstep]
    simpa [Except.bind] using ih (p := p ++ [b]) (pre := pre ++ [b]) (by simpa using hp) (by simpa using hpay)

variable {A : Nat} (hT : PrefixTable A recs)
include hT

/-- The walk reads the code of a symbol, emits the symbol and is back at the root (46_decoder.md R269). -/
theorem walkLoop_code {e : Nat × Bits} (he : e ∈ recs) {pre rest : Bits} {sc k : Nat} {out : List Nat}
    (hpay : payload = pre ++ e.2 ++ rest) (hk : k < sc) :
    walkLoop rd (trieOf recs).arena sc ((e.2 ++ rest).length + 1) ⟨⟨base, payload.length, pre.length⟩, 0, k, out⟩ =
      walkLoop rd (trieOf recs).arena sc (rest.length + 1)
        ⟨⟨base, payload.length, (pre ++ e.2).length⟩, 0, k + 1, out ++ [e.1]⟩ := by
  have hP := hT.triePaths
  have hmem := hP.codes e he
  have hs := hT.codeSymbol_of_mem he
  obtain ⟨c, b, hcb⟩ : ∃ c b, e.2 = c ++ [b] := ⟨_, _, (List.dropLast_concat_getLast (hT.nonEmpty e he)).symm⟩
  rw [hcb] at hpay hmem hs ⊢
  have hinner := hP.parent c b hmem
  have hinside := walkLoop_inside hbits hP (p := []) (c := c) (pre := pre) (rest := b :: rest) (out := out) hinner
    (by simpa using hpay) hk
  rw [hP.rootFirst, List.nil_append] at hinside
  have hstep := walkStep_code hbits (k := k) (out := out) hinner
    (by simpa using hpay : payload = pre ++ c ++ b :: rest) hmem hs
  rw [List.append_assoc, List.singleton_append]
  refine hinside.trans ?_
  rw [List.length_cons, walkLoop_succ hk, hstep, ← List.append_assoc, List.length_append (bs := [b])]
  rfl

/-- The walk reads the codes of a symbol sequence and emits it. -/
theorem walkLoop_codes {S : List Nat} (hS : ∀ q ∈ S, q ∈ recs.map (·.1)) {pre rest : Bits} {sc k : Nat} {out : List Nat}
    (hpay : payload = pre ++ bitsOf recs S ++ rest) (hk : k + S.length ≤ sc) :
    walkLoop rd (trieOf recs).arena sc ((bitsOf recs S ++ rest).length + 1)
        ⟨⟨base, payload.length, pre.length⟩, 0, k, out⟩ =
      walkLoop rd (trieOf recs).arena sc (rest.length + 1)
        ⟨⟨base, payload.length, (pre ++ bitsOf recs S).length⟩, 0, k + S.length, out ++ S⟩ := by
  induction S generalizing pre k out with
  | nil => simp [bitsOf]
  | cons q S ih =>
    obtain ⟨hq, hS⟩ := List.forall_mem_cons.1 hS
    rw [bitsOf_cons] at hpay ⊢
    rw [List.length_cons] at hk
    rw [List.append_assoc, walkLoop_code hbits hT (mem_codeOf hq) (by simpa using hpay) (by omega),
      ih hS (by simpa using hpay) (by omega)]
    simp [Nat.add_assoc, Nat.add_comm 1]

/-- The walk after the codes of a sequence and further bits that end inside the trie. -/
theorem walkLoop_codes_inside {S : List Nat} (hS : ∀ q ∈ S, q ∈ recs.map (·.1)) {p rest : Bits} (hp : insideTrie recs p)
    {sc : Nat} (hpay : payload = bitsOf recs S ++ p ++ rest) (hsc : S.length < sc) :
    walkLoop rd (trieOf recs).arena sc (payload.length + 1) ⟨⟨base, payload.length, 0⟩, 0, 0, []⟩ =
      walkLoop rd (trieOf recs).arena sc (rest.length + 1)
        ⟨⟨base, payload.length, (bitsOf recs S ++ p).length⟩, (triePaths recs).idxOf p, S.length, S⟩ := by
  have hP := hT.triePaths
  have hcodes := walkLoop_codes hbits hT hS (pre := []) (rest := p ++ rest) (sc := sc) (k := 0) (out := [])
    (by simpa using hpay) (by omega)
  have hinside := walkLoop_inside hbits hP (p := []) (c := p) (pre := bitsOf recs S) (rest := rest) (out := S)
    (hT.innerPath hp) hpay hsc
  rw [hP.rootFirst, List.nil_append] at hinside
  rw [List.nil_append, Nat.zero_add, List.nil_append, ← List.append_assoc, ← hpay] at hcodes
  exact hcodes.trans hinside

/-- The payload ends there: bits exhausted (46_decoder.md R268). -/
theorem walkLoop_exhausted {S : List Nat} (hS : ∀ q ∈ S, q ∈ recs.map (·.1)) {p : Bits} (hp : insideTrie recs p)
    {sc : Nat} (hpay : payload = bitsOf recs S ++ p) (hsc : S.length < sc) :
    walkLoop rd (trieOf recs).arena sc (payload.length + 1) ⟨⟨base, payload.length, 0⟩, 0, 0, []⟩ =
      raise .truncatedStream 3 S.length 0 := by
  rw [walkLoop_codes_inside hbits hT hS hp (rest := []) (by rw [List.append_nil, hpay]) hsc, walkLoop_succ hsc, ← hpay,
    walkStep_exhausted]
  rfl

/-- One more bit leads to no code: no child (46_decoder.md R268). -/
theorem walkLoop_nullChild {S : List Nat} (hS : ∀ q ∈ S, q ∈ recs.map (·.1)) {p rest : Bits} {b : Bool}
    (hp : insideTrie recs p) {sc : Nat} (hpay : payload = bitsOf recs S ++ p ++ b :: rest)
    (hnone : ∀ e ∈ recs, ¬ (p ++ [b]) <+: e.2) (hsc : S.length < sc) :
    walkLoop rd (trieOf recs).arena sc (payload.length + 1) ⟨⟨base, payload.length, 0⟩, 0, 0, []⟩ =
      raise .corruptTree 7 ((bitsOf recs S).length + p.length) S.length := by
  have hnull : p ++ [b] ∉ triePaths recs := by
    rw [mem_triePaths]
    rintro (h | ⟨e, he, hpe⟩)
    · simp at h
    · exact hnone e he hpe
  rw [walkLoop_codes_inside hbits hT hS hp hpay hsc, walkLoop_succ hsc,
    show (trieOf recs).arena = trieArena (triePaths recs) recs from rfl,
    walkStep_null hbits (hT.innerPath hp) hpay hnull, List.length_append]
  rfl

end

/-- Settles O43: the walk decodes the codes of S, by induction over S, follows p into the trie, and there finds no
bit or a bit with no child. -/
theorem decodeReportsExhaustionAndNullChild : Obligations.DecodeReportsExhaustionAndNullChild := by
  intro s x count A recs payload S p hb hr hC hsize hA1 hA2 hkA hT hcap hdst hS hmem hp
  obtain ⟨hn, hA, hk, hB, hat, hbits⟩ := hC
  unfold containerSize at hsize
  have hH : HeaderOk s.mem.readByte x.sa x.sl count A recs.length payload.length :=
    ⟨by omega, hn, hA, not_alphabetOutside hA1 hA2, hk, hkA, hB⟩
  have hrec := decodeRecords_table hT hat (Nat.le_trans (Nat.le_add_right _ _) hsize) hcap
  have hwalk {e : Raised} (h : walkLoop s.mem.readByte (trieOf recs).arena count (payload.length + 1)
      ⟨⟨x.sa + (24 + recordsSize recs), payload.length, 0⟩, 0, 0, []⟩ = .error (.raised e)) : s.reports e :=
    State.reports_of_decodeContainer hb hr ((decodeContainer_walk hH hrec hsize hdst).trans (by rw [h]; rfl))
  rw [Nat.add_assoc] at hbits
  exact ⟨fun h => hwalk (walkLoop_exhausted hbits hT hmem hp h hS),
    fun b rest h hnone => hwalk (walkLoop_nullChild hbits hT hmem hp h hnone hS)⟩

end Sys2Proof.Machine
end

section
/-! PROOFS of the control command family (47_control_commands.md): what a word written to CMD does, and that no other
transaction of the host moves the engine. -/

namespace Sys2Proof

/-! ## Illegal words -/

/-- The illegal words, by their two fields (30_encoding.md R82). -/
theorem exists_decode_eq_error {w : Word} (h : rsvdOf w ≠ 0 ∨ 5 ≤ (opcodeOf w).toNat) : ∃ e, decode w = .error e := by
  cases hd : decode w with
  | error e => exact ⟨e, rfl⟩
  | ok i =>
    obtain ⟨hr, ho⟩ := (exists_decode_eq_ok_iff w).1 ⟨i, hd⟩
    obtain h | h := h
    · exact absurd hr h
    · omega

end Sys2Proof

namespace Sys2Proof.Machine

/-! ## A word written to CMD -/

@[simp] theorem cmdWrite_encode (i : Instr) (s : State) : cmdWrite (encode i) s = exec i s := by simp [cmdWrite]

theorem cmdWrite_illegal {w : Word} {e : DecodeReject} (h : decode w = .error e) (s : State) :
    cmdWrite w s = illegalWord w s := by simp [cmdWrite, h]

/-- The five command words as they are written in the opcode table (30_encoding.md R81). -/
theorem encode_mem_commandWords (i : Instr) :
    encode i ∈ [0x00000000#32, 0x00000001#32, 0x00000002#32, 0x00000003#32, 0x00000004#32] := by cases i <;> decide

theorem cmdWrite_of_notMem {w : Word}
    (h : w ∉ [0x00000000#32, 0x00000001#32, 0x00000002#32, 0x00000003#32, 0x00000004#32]) (s : State) :
    cmdWrite w s = illegalWord w s := by
  obtain ⟨i, rfl⟩ | ⟨-, e, he⟩ := word_cases w
  · exact absurd (encode_mem_commandWords i) h
  · exact cmdWrite_illegal he s

/-- The report of an illegal word, field by field: the word itself is its value (47_control_commands.md R294). -/
theorem State.acceptedWord_illegal_fields (s : State) {w : Word} {e : DecodeReject} (h : decode w = .error e)
    (hs : s.engine = .idle) : s.acceptedWord w = { s with
      record := { Record.cleared with errCode := .illegalCommand, errValue := w }
      lastCmd := opcodeOf w
      done := true } := by
  have hw : BitVec.ofNat Config.csrW w.toNat = w := by simp
  rw [s.acceptedWord_illegal h, State.report, State.complete, ← hs, hw]
  rfl

/-! ## The other transactions of the host -/

theorem csrWriteTo_engine {n : CsrName} (hn : n ≠ .cmd) {w : Word} {s t : State} (h : csrWriteTo n w s = .next t) :
    t.engine = s.engine := by
  obtain ⟨-, -, rfl | ⟨-, rfl⟩ | ⟨-, -, -, ht⟩⟩ | ⟨-, rfl⟩ | ⟨hcmd, -⟩ := csrWriteTo_eq_next h
  · rfl
  · rfl
  · rw [ht]
  · rfl
  · exact absurd hcmd hn

theorem hostMemRead_engine {a : Addr} {s t : State} (h : hostMemRead a s = .next t) : t.engine = s.engine := by
  unfold hostMemRead at h
  split at h
  · cases h; rfl
  · split at h <;> cases h; rfl

theorem hostMemWrite_engine {a : Addr} {v : Byte} {s t : State} (h : hostMemWrite a v s = .next t) :
    t.engine = s.engine := by
  unfold hostMemWrite at h
  split at h
  · cases h; rfl
  · split at h <;> cases h; rfl

/-- While BUSY a CSR write to any CSR keeps the engine: a word written to CMD is dropped (47_control_commands.md R297). -/
theorem csrWriteTo_engine_busy {n : CsrName} {w : Word} {s t : State} (hb : s.busy = true)
    (h : csrWriteTo n w s = .next t) : t.engine = s.engine := by
  by_cases hn : n = .cmd
  · subst hn
    cases (cmdWrite_busy hb w).symm.trans h
    rfl
  · exact csrWriteTo_engine hn h

/-- While BUSY no transaction of the host moves the engine (47_control_commands.md R297). -/
theorem runEvent_engine_busy {e : Event} {s t : State} (hb : s.busy = true) (hr : e ≠ .hwReset) (hc : e ≠ .engineSlot)
    (h : runEvent e s = .next t) : t.engine = s.engine := by
  cases e with
  | csrRead off => cases h; rfl
  | csrWrite off w =>
    cases hoff : csrAt off with
    | none => rw [runEvent_csrWrite_unlisted hoff] at h; cases h; rfl
    | some n => rw [runEvent_csrWrite_listed hoff] at h; exact csrWriteTo_engine_busy hb h
  | memRead a => exact hostMemRead_engine h
  | memWrite a v => exact hostMemWrite_engine h
  | hwReset => exact absurd rfl hr
  | engineSlot => exact absurd rfl hc

/-! ## What an argument write leaves alone -/

theorem State.csrValue_args {k : CsrName} (hk : k ∉ [CsrName.alphabetSize, .srcAddr, .srcLen, .dstAddr, .dstCap])
    (s : State) (a : Args) : ({ s with args := a } : State).csrValue k = s.csrValue k := by
  cases k
  case alphabetSize | srcAddr | srcLen | dstAddr | dstCap => exact absurd (by decide) hk
  all_goals rfl

/-- Every CSR but the one written reads as before. -/
theorem csrValue_of_argument_write {n k : CsrName} (hn : n ∈ [CsrName.alphabetSize, .srcAddr, .srcLen, .dstAddr, .dstCap])
    (hk : k ≠ n) {w : Word} {s t : State} (h : csrWriteTo n w s = .next t) : t.csrValue k = s.csrValue k := by
  obtain ⟨-, -, rfl | ⟨rfl, -⟩ | ⟨-, -, hargs, ht⟩⟩ | ⟨rfl, -⟩ | ⟨rfl, -⟩ := csrWriteTo_eq_next h
  · rfl
  · exact absurd hn (by decide)
  · by_cases hka : k ∈ [CsrName.alphabetSize, .srcAddr, .srcLen, .dstAddr, .dstCap]
    · exact hargs k hka hk
    · rw [ht]; exact s.csrValue_args hka t.args
  · exact absurd hn (by decide)
  · exact absurd hn (by decide)

/-! ## The completion after a host write -/

/-- The engine's step, BUSY or not, keeps to the frame of a completion. -/
theorem engineStep_sameForCompletion {s u : State} (h : engineStep s = .next u) : SameForCompletion s u := by
  obtain ⟨-, rfl⟩ | ⟨cmd, x, -, ⟨out, -, rfl⟩ | ⟨e, -, rfl⟩⟩ := engineStep_eq_next h
  · constructor <;> rfl
  · exact .succeed s x out
  · exact .report s e

/-- Other arguments and another IE give the same completion (10_state.md R51, 47_control_commands.md R299). -/
theorem engineStep_argsAndIe {s u : State} (h : engineStep s = .next u) (a : Args) (ie : Bool) :
    engineStep { s with args := a, ie := ie } = .next { u with args := a, ie := ie } := by
  simpa only [(engineStep_sameForCompletion h).ovr] using engineStep_hostFields h ie s.ovr a

/-- With OVR set the completion is the same, with OVR set (47_control_commands.md R297). -/
theorem engineStep_ovr {s u : State} (h : engineStep s = .next u) :
    engineStep { s with ovr := true } = .next { u with ovr := true } := by
  have hf := engineStep_sameForCompletion h
  simpa only [hf.ie, hf.args] using engineStep_hostFields h s.ie true s.args

/-! ## The statements -/

/-- Settles O9: an argument write changes the argument CSRs alone and a CTRL write IE alone, and the completion reads
neither. -/
theorem argumentWritesWhileBusyAffectOnlyLaterCommands : Obligations.ArgumentWritesWhileBusyAffectOnlyLaterCommands := by
  intro s n w hn
  obtain hn | rfl : n ∈ [CsrName.alphabetSize, .srcAddr, .srcLen, .dstAddr, .dstCap] ∨ n = .ctrl := by
    simpa [or_assoc] using hn
  · obtain ⟨a, ht, hv⟩ := csrWriteTo_argument hn w s
    exact ⟨_, ht, rfl, rfl, rfl, rfl, rfl, rfl, fun _ => ⟨hv, rfl, fun k hk => csrValue_of_argument_write hn hk ht⟩,
      fun hc => absurd (hc ▸ hn) (by decide), fun _ u hu => engineStep_argsAndIe hu a s.ie⟩
  · exact ⟨_, rfl, rfl, rfl, rfl, rfl, rfl, rfl, fun hc => absurd rfl hc, fun _ => ⟨rfl, rfl, rfl⟩,
      fun _ u hu => engineStep_argsAndIe hu s.args _⟩

/-- Settles O16, from the dispatch of a word by the command it encodes and the frames of the host's other writes. -/
theorem cmdWriteDispatchesByWord : Obligations.CmdWriteDispatchesByWord := by
  refine ⟨fun s w => rfl, fun s w hb => cmdWrite_busy hb w, fun s hb => ?idle, fun s n w t hn => csrWriteTo_engine hn,
    fun s a v t => hostMemWrite_engine⟩
  case idle =>
    have hi := s.busy_eq_false_iff.1 hb
    exact ⟨(cmdWrite_encode .encode s).trans (exec_idle hi .encode), (cmdWrite_encode .decode s).trans (exec_idle hi .decode),
      cmdWrite_encode .nop s, cmdWrite_encode .clear s, cmdWrite_encode .softReset s, fun w hw => cmdWrite_of_notMem hw s⟩

/-- Settles O17: the word is an overrun, which the completion does not read. -/
theorem wordWrittenWhileBusyIsDropped : Obligations.WordWrittenWhileBusyIsDropped :=
  ⟨fun _ w hb => cmdWrite_busy hb w, fun _ _ h => engineStep_ovr h,
    fun _ _ _ hb hr hc h => runEvent_engine_busy hb hr hc h⟩

/-- Settles O11: the effect of an accepted NOP. -/
theorem nopSetsDoneAndLastCmdOnly : Obligations.NopSetsDoneAndLastCmdOnly :=
  ⟨decode_encode .nop, fun _ hs => exec_idle hs .nop⟩

/-- Settles O12: the effect of an accepted CLEAR. -/
theorem clearZeroesTheRecordAndKeepsOvr : Obligations.ClearZeroesTheRecordAndKeepsOvr :=
  ⟨decode_encode .clear, fun _ hs => exec_idle hs .clear⟩

/-- Settles O15: the word decodes to no command, and an accepted illegal word reports itself. -/
theorem illegalWordReportsIllegalCommandError : Obligations.IllegalWordReportsIllegalCommandError := by
  intro s w hs hw
  obtain ⟨e, he⟩ := exists_decode_eq_error hw
  exact (cmdWrite_idle hs w).trans (congrArg Host.Outcome.next (s.acceptedWord_illegal_fields he hs))

end Sys2Proof.Machine
end

section
/-! PROOFS of the errors family (60_exceptions.md): REGION_CHECK, and the record and the end of a command that raises. -/

namespace Sys2Proof.Machine

/-- Two regions inside MEM without a shared byte pass (60_exceptions.md R318). -/
theorem regionCheck_disjoint {m sa sl da dc : Nat} (hs : sa + sl ≤ m) (hd : da + dc ≤ m)
    (h : ∀ a, ¬ (inRegion sa sl a = true ∧ inRegion da dc a = true)) : regionCheck m sa sl da dc = .ok () :=
  regionCheck_eq_ok.2 ⟨hs, hd, mt (exists_inRegion_both_iff sa sl da dc).2 (not_exists.2 h)⟩

/-- Settles O36: the overlap test is the shared byte, and each of the three checks raises where those before it pass. -/
theorem regionCheckRefusesOutsideAndOverlap : Obligations.RegionCheckRefusesOutsideAndOverlap :=
  fun _ sa sl da dc => ⟨(exists_inRegion_both_iff sa sl da dc).symm, fun hs => regionCheck_source hs da dc,
    regionCheck_destination, fun hs hd => ⟨regionCheck_overlap hs hd, regionCheck_disjoint hs hd⟩⟩

/-- The shared completion of a computation that raises takes the error (60_exceptions.md R313). -/
theorem finish_raised (x : Args) (r : Raised) (s : State) :
    finish x (.error (.raised r)) s = .next (s.report r).dropWork := rfl

/-- Settles O37: a raise in a running command is its report, the shared completion is that report for every state, and
an accepted illegal word reports itself. -/
theorem raisedErrorIsRecordedAndEndsTheCommand : Obligations.RaisedErrorIsRecordedAndEndsTheCommand := by
  refine ⟨fun s x r hb h => State.reports_of_raise hb h, fun s x r hb h => State.reports_of_raise hb h,
    fun s x r => ⟨_, finish_raised x r s, rfl, rfl, rfl, rfl, .report s r⟩, fun s w hs hw => ?illegal⟩
  case illegal =>
    obtain ⟨i, hi⟩ | ⟨-, e, he⟩ := word_cases w
    · exact absurd hi (hw i)
    · refine ⟨_, cmdWrite_idle hs w, ?_⟩
      rw [s.acceptedWord_illegal_fields he hs]
      exact ⟨hs, rfl, rfl, rfl⟩

end Sys2Proof.Machine
end

section
/-! PROOFS of the tree builder (42_tree_builder.md): the arena of joined nodes and the queue of its waiting nodes, kept by
every TB_MERGE, and the tree that TB_BUILD returns. -/

namespace Sys2Proof.Machine

/-! ## Weights of arena indices -/

/-- The weight of the node at an index, 0 where there is none. -/
def weightAt (arena : List Node) (i : Nat) : Nat := arena[i]?.elim 0 Node.weight

theorem weightAt_of_getElem? {arena : List Node} {i : Nat} {n : Node} (h : arena[i]? = some n) :
    weightAt arena i = n.weight := by simp [weightAt, h]

theorem exists_getElem?_weightAt {arena : List Node} {i : Nat} (h : i < arena.length) :
    ∃ n, arena[i]? = some n ∧ n.weight = weightAt arena i :=
  ⟨arena[i], List.getElem?_eq_getElem h, (weightAt_of_getElem? (List.getElem?_eq_getElem h)).symm⟩

theorem weightAt_concat {arena : List Node} {i : Nat} (h : i < arena.length) (n : Node) :
    weightAt (arena ++ [n]) i = weightAt arena i := by simp only [weightAt, List.getElem?_append_left h]

theorem weightAt_concat_last (arena : List Node) (n : Node) : weightAt (arena ++ [n]) arena.length = n.weight :=
  weightAt_of_getElem? List.getElem?_concat_length

/-- The order in which nodes leave the queue, by weight and then by index (41_priority_queue.md R131). -/
theorem leavesBefore_iff {arena : List Node} {j k : Nat} : leavesBefore arena j k ↔
    j < arena.length ∧ k < arena.length ∧
      (weightAt arena j < weightAt arena k ∨ (weightAt arena j = weightAt arena k ∧ j < k)) := by
  constructor
  · rintro ⟨nj, nk, hj, hk, h⟩
    rw [weightAt_of_getElem? hj, weightAt_of_getElem? hk]
    exact ⟨(List.getElem?_eq_some_iff.1 hj).1, (List.getElem?_eq_some_iff.1 hk).1, h⟩
  · rintro ⟨hj, hk, h⟩
    obtain ⟨nj, hnj, hwj⟩ := exists_getElem?_weightAt hj
    obtain ⟨nk, hnk, hwk⟩ := exists_getElem?_weightAt hk
    exact ⟨nj, nk, hnj, hnk, by rwa [hwj, hwk]⟩

theorem leavesBefore_concat {arena : List Node} {j k : Nat} (h : leavesBefore arena j k) (n : Node) :
    leavesBefore (arena ++ [n]) j k := by
  obtain ⟨hj, hk, h⟩ := leavesBefore_iff.1 h
  rw [leavesBefore_iff, weightAt_concat hj, weightAt_concat hk, List.length_append]
  exact ⟨Nat.lt_add_right _ hj, Nat.lt_add_right _ hk, h⟩

/-! ## Parents in an arena that grows -/

theorem isChild_concat {arena : List Node} {p : Nat} (hp : p < arena.length) (n : Node) (j : Nat) :
    isChild (arena ++ [n]) p j ↔ isChild arena p j := by simp only [isChild, List.getElem?_append_left hp]

theorem isChild_iff_of_internal {arena : List Node} {p l r w : Nat}
    (h : arena[p]? = some (.internal (some l) (some r) w)) (j : Nat) : isChild arena p j ↔ j = l ∨ j = r := by
  constructor
  · rintro ⟨_, _, _, hp, hj⟩
    cases h.symm.trans hp
    exact hj.imp (fun hl => (Option.some.inj hl).symm) fun hr => (Option.some.inj hr).symm
  · exact fun hj => ⟨_, _, w, h, hj.imp (fun hl => congrArg some hl.symm) fun hr => congrArg some hr.symm⟩

theorem isChild_concat_internal (arena : List Node) (l r w j : Nat) :
    isChild (arena ++ [.internal (some l) (some r) w]) arena.length j ↔ j = l ∨ j = r :=
  isChild_iff_of_internal List.getElem?_concat_length j

theorem not_isChild_concat_leaf (arena : List Node) (s w j : Nat) :
    ¬ isChild (arena ++ [.leaf s w]) arena.length j := by
  simp [isChild]

theorem isChild.lt_length {arena : List Node} {p i : Nat} (h : isChild arena p i) : p < arena.length := by
  obtain ⟨l, r, w, hp, -⟩ := h
  exact (List.getElem?_eq_some_iff.1 hp).1

theorem waiting_concat {arena : List Node} {i : Nat} (hi : i ≤ arena.length) (n : Node) (j : Nat) :
    waiting (arena ++ [n]) i j ↔ waiting arena i j :=
  and_congr_right fun _ => forall₂_congr fun _ hp => not_congr (isChild_concat (Nat.lt_of_lt_of_le hp hi) n j)

/-- When a node is made, those wait that it does not take, and it waits itself. -/
theorem waiting_concat_succ {arena : List Node} (hchild : ∀ p i, isChild arena p i → i < p) {n : Node}
    (hself : ¬ isChild (arena ++ [n]) arena.length arena.length) (j : Nat) :
    waiting (arena ++ [n]) (arena.length + 1) j ↔
      j = arena.length ∨ (waiting arena arena.length j ∧ ¬ isChild (arena ++ [n]) arena.length j) := by
  rw [← waiting_concat (Nat.le_refl _) n]
  constructor
  · rintro ⟨hj, h⟩
    rcases Nat.lt_succ_iff_lt_or_eq.1 hj with hlt | heq
    · exact .inr ⟨⟨hlt, fun p hp => h p (Nat.lt_succ_of_lt hp)⟩, h _ (Nat.lt_succ_self _)⟩
    · exact .inl heq
  · rintro (rfl | ⟨⟨hj, h⟩, hlast⟩)
    · refine ⟨Nat.lt_succ_self _, fun p hp => ?_⟩
      rcases Nat.lt_succ_iff_lt_or_eq.1 hp with hlt | rfl
      · rw [isChild_concat hlt]
        exact fun hc => Nat.lt_asymm hlt (hchild _ _ hc)
      · exact hself
    · refine ⟨Nat.lt_succ_of_lt hj, fun p hp => ?_⟩
      rcases Nat.lt_succ_iff_lt_or_eq.1 hp with hlt | rfl
      · exact h p hlt
      · exact hlast

/-! ## The arena -/

/-- Node i joins nodes l and r, the two that leave the queue first when it is made (42_tree_builder.md R153, R155). -/
structure JoinsLeast (arena : List Node) (i l r : Nat) : Prop where
  node : arena[i]? = some (Node.internal (some l) (some r) (weightAt arena l + weightAt arena r))
  leftWaits : waiting arena i l
  rightWaits : waiting arena i r
  leftFirst : leavesBefore arena l r
  othersAfter : ∀ j, waiting arena i j → j ≠ l → j ≠ r → leavesBefore arena r j

/-- An arena of leaves for the active symbols and of joins above them (42_tree_builder.md R152, R153). -/
structure HuffArena (f : Freq) (active : List Nat) (arena : List Node) : Prop where
  enough : active.length ≤ arena.length
  leaves : ∀ i s : Nat, active[i]? = some s → arena[i]? = some (Node.leaf s (freqOf f s))
  joins : ∀ i, active.length ≤ i → i < arena.length → ∃ l r, JoinsLeast arena i l r

theorem JoinsLeast.concat {arena : List Node} {i l r : Nat} (h : JoinsLeast arena i l r) (n : Node) :
    JoinsLeast (arena ++ [n]) i l r := by
  obtain ⟨hnode, hl, hr, hlr, hothers⟩ := h
  have hi := (List.getElem?_eq_some_iff.1 hnode).1
  have hwait (j : Nat) := waiting_concat (Nat.le_of_lt hi) n j
  refine ⟨?_, (hwait l).2 hl, (hwait r).2 hr, leavesBefore_concat hlr n, ?_⟩
  · rw [List.getElem?_append_left hi, weightAt_concat (Nat.lt_trans hl.1 hi), weightAt_concat (Nat.lt_trans hr.1 hi), hnode]
  · exact fun j hj hjl hjr => leavesBefore_concat (hothers j ((hwait j).1 hj) hjl hjr) n

theorem JoinsLeast.isChild_iff {arena : List Node} {i l r : Nat} (h : JoinsLeast arena i l r) (j : Nat) :
    isChild arena i j ↔ j = l ∨ j = r := isChild_iff_of_internal h.node j

theorem JoinsLeast.weightAt_eq {arena : List Node} {i l r : Nat} (h : JoinsLeast arena i l r) :
    weightAt arena i = weightAt arena l + weightAt arena r := weightAt_of_getElem? h.node

section
variable {f : Freq} {active : List Nat} {arena : List Node} (H : HuffArena f active arena)
include H

theorem HuffArena.leaf_of_lt {i : Nat} (hi : i < active.length) :
    arena[i]? = some (Node.leaf active[i] (freqOf f active[i])) :=
  H.leaves i _ (List.getElem?_eq_getElem hi)

/-- Only a join has children. -/
theorem HuffArena.joins_of_isChild {p i : Nat} (h : isChild arena p i) : ∃ l r, JoinsLeast arena p l r := by
  refine H.joins p (Nat.le_of_not_lt fun hlt => ?_) h.lt_length
  obtain ⟨l, r, w, hp, -⟩ := h
  rw [H.leaf_of_lt hlt] at hp
  cases hp

/-- A child waits when its parent is made. -/
theorem HuffArena.waiting_of_isChild {p i : Nat} (h : isChild arena p i) : waiting arena p i := by
  obtain ⟨l, r, hj⟩ := H.joins_of_isChild h
  rcases (hj.isChild_iff i).1 h with rfl | rfl
  · exact hj.leftWaits
  · exact hj.rightWaits

theorem HuffArena.child_lt (p i : Nat) (h : isChild arena p i) : i < p := (H.waiting_of_isChild h).1

/-- No node is taken twice. -/
theorem HuffArena.parent_unique {p q i : Nat} (hp : isChild arena p i) (hq : isChild arena q i) : p = q := by
  have hpw := H.waiting_of_isChild hp
  have hqw := H.waiting_of_isChild hq
  rcases Nat.lt_trichotomy p q with h | h | h
  · exact absurd hp (hqw.2 p h)
  · exact h
  · exact absurd hq (hpw.2 q h)

theorem HuffArena.concat {n : Node} (hn : ∃ l r, JoinsLeast (arena ++ [n]) arena.length l r) :
    HuffArena f active (arena ++ [n]) where
  enough := by rw [List.length_append]; exact Nat.le_add_right_of_le H.enough
  leaves i s hs := by
    have hi := (List.getElem?_eq_some_iff.1 hs).1
    rw [List.getElem?_append_left (Nat.lt_of_lt_of_le hi H.enough), H.leaves i s hs]
  joins i hk hi := by
    rw [List.length_append] at hi
    rcases Nat.lt_succ_iff_lt_or_eq.1 hi with hlt | rfl
    · obtain ⟨l, r, hj⟩ := H.joins i hk hlt
      exact ⟨l, r, hj.concat n⟩
    · exact hn

end

/-! ## The queue -/

/-- The queue entry of a node: its sequence number is its arena index (42_tree_builder.md R152, R153). -/
def entryOf (arena : List Node) (j : Nat) : QEntry := ⟨weightAt arena j, j, j⟩

/-- The queue holds exactly the waiting nodes of an arena (42_tree_builder.md R153). -/
structure QueueOf (arena : List Node) (q : PQ) : Prop where
  nextSeq : q.nextSeq = arena.length
  nodup : q.entries.Nodup
  mem : ∀ e, e ∈ q.entries ↔ ∃ j, waiting arena arena.length j ∧ e = entryOf arena j

theorem entryOf_concat {arena : List Node} {j : Nat} (h : j < arena.length) (n : Node) :
    entryOf (arena ++ [n]) j = entryOf arena j := by simp only [entryOf, weightAt_concat h]

/-- A new node that has taken its children out of the queue is inserted. -/
theorem QueueOf.push {arena : List Node} {n : Node} {q : PQ} (hchild : ∀ p i, isChild arena p i → i < p)
    (hself : ¬ isChild (arena ++ [n]) arena.length arena.length) (hseq : q.nextSeq = arena.length)
    (hnodup : q.entries.Nodup)
    (hmem : ∀ e, e ∈ q.entries ↔
      ∃ j, (waiting arena arena.length j ∧ ¬ isChild (arena ++ [n]) arena.length j) ∧ e = entryOf arena j) :
    QueueOf (arena ++ [n]) (pqInsert q arena.length n.weight) := by
  have hnew : (⟨n.weight, q.nextSeq, arena.length⟩ : QEntry) = entryOf (arena ++ [n]) arena.length := by
    rw [entryOf, weightAt_concat_last, hseq]
  refine ⟨by simp [pqInsert, hseq], ?_, fun e => ?_⟩
  · refine List.nodup_append.2 ⟨hnodup, List.pairwise_singleton _ _, fun d hd e he heq => ?_⟩
    obtain ⟨j, ⟨hj, -⟩, rfl⟩ := (hmem d).1 hd
    rw [List.mem_singleton.1 he] at heq
    exact Nat.ne_of_lt hj.1 (congrArg QEntry.node heq)
  · simp only [pqInsert, hnew, List.mem_append, hmem, List.mem_singleton, List.length_append, List.length_singleton,
      waiting_concat_succ hchild hself]
    constructor
    · rintro (⟨j, hj, rfl⟩ | rfl)
      · exact ⟨j, .inr hj, (entryOf_concat hj.1.1 n).symm⟩
      · exact ⟨_, .inl rfl, rfl⟩
    · rintro ⟨j, rfl | hj, rfl⟩
      · exact .inr rfl
      · exact .inl ⟨j, hj, entryOf_concat hj.1.1 n⟩

/-! ## The builder -/

/-- What TB_INIT establishes and TB_MERGE keeps: the arena, its queue, and that the queue's weights sum to the counts'. -/
structure BuilderInv (f : Freq) (active : List Nat) (b : Builder) : Prop where
  arena : HuffArena f active b.arena
  queue : QueueOf b.arena b.pq
  size : b.arena.length + pqSize b.pq = 2 * active.length
  sum : (b.pq.entries.map (·.weight)).sum = (active.map (freqOf f)).sum
  weights : ∀ i, weightAt b.arena i ≤ (active.map (freqOf f)).sum

theorem builderInv_init (f : Freq) (q : PQ) : BuilderInv f [] ⟨[], pqInit q⟩ where
  arena := ⟨Nat.le_refl _, by simp, by simp⟩
  queue := ⟨rfl, List.nodup_nil, by simp [pqInit, waiting]⟩
  size := rfl
  sum := rfl
  weights i := by simp [weightAt]

theorem weightAt_concat_le {arena : List Node} {n : Node} {W : Nat} (h : ∀ i, weightAt arena i ≤ W) (hn : n.weight ≤ W)
    (i : Nat) : weightAt (arena ++ [n]) i ≤ W := by
  rcases Nat.lt_trichotomy i arena.length with hi | rfl | hi
  · rw [weightAt_concat hi]; exact h i
  · rwa [weightAt_concat_last]
  · rw [weightAt, List.getElem?_eq_none (by rw [List.length_append]; exact hi)]; exact Nat.zero_le _

/-- One leaf more (42_tree_builder.md R152). -/
theorem BuilderInv.leaf {f : Freq} {done : List Nat} {b : Builder} (h : BuilderInv f done b)
    (hlen : b.arena.length = done.length) (s : Nat) :
    BuilderInv f (done ++ [s])
      ⟨b.arena ++ [.leaf s (freqOf f s)], pqInsert b.pq b.arena.length (freqOf f s)⟩ := by
  obtain ⟨harena, hqueue, hsize, hsum, hweights⟩ := h
  have hsum' : ((done ++ [s]).map (freqOf f)).sum = (done.map (freqOf f)).sum + freqOf f s := by simp
  refine ⟨⟨by simp [hlen], fun i q hq => ?_, fun i hi hi' => ?_⟩, ?_, ?_, ?_, ?_⟩
  · rcases Nat.lt_or_ge i done.length with hi | hi
    · rw [List.getElem?_append_left hi] at hq
      rw [List.getElem?_append_left (hlen ▸ hi), harena.leaves i q hq]
    · rw [List.getElem?_append_right hi, List.getElem?_singleton] at hq
      split at hq <;> cases hq
      rename_i h0
      rw [show i = b.arena.length by omega, List.getElem?_concat_length]
  · simp only [List.length_append, List.length_singleton] at hi hi'
    omega
  · refine QueueOf.push harena.child_lt (not_isChild_concat_leaf _ _ _ _) hqueue.nextSeq hqueue.nodup fun e => ?_
    simp only [not_isChild_concat_leaf, not_false_eq_true, and_true, hqueue.mem]
  · simp only [pqSize, pqInsert, List.length_append, List.length_singleton] at hsize ⊢
    omega
  · rw [hsum', ← hsum]
    simp [pqInsert]
  · rw [hsum']
    exact weightAt_concat_le (fun i => Nat.le_add_right_of_le (hweights i)) (Nat.le_add_left _ _)

theorem tbLeaves_builderInv {f : Freq} {done : List Nat} {b : Builder} (h : BuilderInv f done b)
    (hlen : b.arena.length = done.length) (rest : List Nat) :
    BuilderInv f (done ++ rest) (tbLeaves f rest b) ∧ (tbLeaves f rest b).arena.length = (done ++ rest).length := by
  induction rest generalizing done b with
  | nil => rw [List.append_nil]; exact ⟨h, hlen⟩
  | cons s rest ih =>
    rw [List.append_cons]
    exact ih (h.leaf hlen s) (by simp [hlen])

/-- TB_MERGE takes the least entry and then the least of the others (42_tree_builder.md R153). -/
theorem tbMerge_eq {b : Builder} (h : 2 ≤ pqSize b.pq) : ∃ x y es,
    tbMerge b = .ok ⟨b.arena ++ [.internal (some x.node) (some y.node) (x.weight + y.weight)],
      pqInsert ⟨es, b.pq.nextSeq⟩ b.arena.length (x.weight + y.weight)⟩ ∧
    b.pq.entries.Perm (x :: y :: es) ∧ (∀ d ∈ y :: es, keyLt d x = false) ∧ ∀ d ∈ es, keyLt d y = false := by
  obtain ⟨x, q, hx, -, hseq, hperm, hleast⟩ := (extractMinRemovesTheLeastEntry b.pq).2
    (fun h0 => by rw [pqSize, h0] at h; cases h)
  have hq : q.entries ≠ [] := fun h0 => by
    rw [pqSize, hperm.length_eq, h0] at h
    exact Nat.not_succ_le_self _ h
  obtain ⟨y, q', hy, -, hseq', hperm', hleast'⟩ := (extractMinRemovesTheLeastEntry q).2 hq
  have hall := hperm.trans (hperm'.cons x)
  refine ⟨x, y, q'.entries, ?_, hall, fun d hd => ?_, fun d hd => ?_⟩
  · simp only [tbMerge, hx, hy, ok_bind, ← hseq, ← hseq']
    rfl
  · exact keyLt_eq_false_iff.2 (hleast d (hall.mem_iff.2 (List.mem_cons_of_mem _ hd)))
  · exact keyLt_eq_false_iff.2 (hleast' d (hperm'.mem_iff.2 (List.mem_cons_of_mem _ hd)))

/-- Of two entries of different waiting nodes the one whose key is not above leaves first. -/
theorem leavesBefore_of_keyLt {arena : List Node} {j k : Nat} (hj : j < arena.length) (hk : k < arena.length)
    (hne : j ≠ k) (h : keyLt (entryOf arena k) (entryOf arena j) = false) : leavesBefore arena j k := by
  refine leavesBefore_iff.2 ⟨hj, hk, ?_⟩
  rcases keyLt_eq_false_iff.1 h with h | ⟨hw, hs⟩
  · exact .inl h
  · exact .inr ⟨hw, Nat.lt_of_le_of_ne hs hne⟩

/-- What TB_MERGE joins are the two waiting nodes that leave first. -/
theorem joinsLeast_of_merge {arena : List Node} {q : PQ} (hq : QueueOf arena q) {x y : QEntry} {es : List QEntry}
    (hperm : q.entries.Perm (x :: y :: es)) (hx : ∀ d ∈ y :: es, keyLt d x = false) (hy : ∀ d ∈ es, keyLt d y = false) :
    JoinsLeast (arena ++ [.internal (some x.node) (some y.node) (x.weight + y.weight)]) arena.length x.node y.node := by
  have hmem (e : QEntry) : e ∈ x :: y :: es ↔ ∃ j, waiting arena arena.length j ∧ e = entryOf arena j :=
    (hperm.mem_iff).symm.trans (hq.mem e)
  have hnodup := (hperm.nodup_iff).1 hq.nodup
  obtain ⟨l, hl, rfl⟩ := (hmem x).1 (by simp)
  obtain ⟨r, hr, rfl⟩ := (hmem y).1 (by simp)
  have hne : l ≠ r := by rintro rfl; simp at hnodup
  refine ⟨?_, (waiting_concat (Nat.le_refl _) _ _).2 hl, (waiting_concat (Nat.le_refl _) _ _).2 hr, ?_,
    fun j hj hjl hjr => ?_⟩
  · simp only [List.getElem?_concat_length, entryOf, weightAt_concat hl.1, weightAt_concat hr.1]
  · exact leavesBefore_concat (leavesBefore_of_keyLt hl.1 hr.1 hne (hx _ (by simp))) _
  · rw [waiting_concat (Nat.le_refl _)] at hj
    have hje : entryOf arena j ∈ es := by
      have := (hmem (entryOf arena j)).2 ⟨j, hj, rfl⟩
      simpa [entryOf, show j ≠ l from hjl, show j ≠ r from hjr] using this
    exact leavesBefore_concat (leavesBefore_of_keyLt hr.1 hj.1 (Ne.symm hjr) (hy _ hje)) _

/-- One merge more (42_tree_builder.md R153). -/
theorem BuilderInv.merge {f : Freq} {active : List Nat} {b : Builder} (h : BuilderInv f active b)
    (h2 : 2 ≤ pqSize b.pq) :
    ∃ b', tbMerge b = .ok b' ∧ BuilderInv f active b' ∧ pqSize b'.pq + 1 = pqSize b.pq := by
  obtain ⟨x, y, es, hok, hperm, hx, hy⟩ := tbMerge_eq h2
  have hjoin := joinsLeast_of_merge h.queue hperm hx hy
  have hsize : pqSize b.pq = es.length + 2 := hperm.length_eq
  have hsum := h.sum
  rw [(hperm.map _).sum_nat, List.map_cons, List.map_cons, List.sum_cons, List.sum_cons, ← Nat.add_assoc] at hsum
  have hnodup := (hperm.nodup_iff).1 h.queue.nodup
  have hmem (e : QEntry) : e ∈ b.pq.entries ↔ e = x ∨ e = y ∨ e ∈ es := by simp [hperm.mem_iff]
  have hself : ¬ (b.arena.length = x.node ∨ b.arena.length = y.node) := by
    have := hjoin.leftWaits.1
    have := hjoin.rightWaits.1
    omega
  rw [← isChild_concat_internal b.arena _ _ (x.weight + y.weight)] at hself
  have hentries (e : QEntry) : e ∈ es ↔ ∃ j, (waiting b.arena b.arena.length j ∧
      ¬ isChild (b.arena ++ [.internal (some x.node) (some y.node) (x.weight + y.weight)]) b.arena.length j) ∧
      e = entryOf b.arena j := by
    simp only [isChild_concat_internal]
    obtain ⟨l, -, hl⟩ := (h.queue.mem x).1 ((hmem x).2 (.inl rfl))
    obtain ⟨r, -, hr⟩ := (h.queue.mem y).1 ((hmem y).2 (.inr (.inl rfl)))
    have hxl : x.node = l := by rw [hl]; rfl
    have hyr : y.node = r := by rw [hr]; rfl
    constructor
    · intro he
      obtain ⟨j, hj, rfl⟩ := (h.queue.mem e).1 ((hmem e).2 (.inr (.inr he)))
      refine ⟨j, ⟨hj, ?_⟩, rfl⟩
      rintro (rfl | rfl)
      · rw [hxl, ← hl] at he; simp [he] at hnodup
      · rw [hyr, ← hr] at he; simp [he] at hnodup
    · rintro ⟨j, ⟨hj, hne⟩, rfl⟩
      rcases (hmem _).1 ((h.queue.mem _).2 ⟨j, hj, rfl⟩) with heq | heq | he
      · exact absurd (.inl (congrArg QEntry.node heq)) hne
      · exact absurd (.inr (congrArg QEntry.node heq)) hne
      · exact he
  refine ⟨_, hok, ⟨h.arena.concat ⟨_, _, hjoin⟩, ?_, ?_, ?_, ?_⟩, ?_⟩
  · exact QueueOf.push (q := ⟨es, b.pq.nextSeq⟩) h.arena.child_lt hself h.queue.nextSeq
      (hnodup.sublist (by simp)) hentries
  · have := h.size
    simp only [pqSize, pqInsert, List.length_append, List.length_singleton] at *
    omega
  · simp only [pqInsert, List.map_append, List.map_singleton, List.sum_append, List.sum_singleton]
    omega
  · refine weightAt_concat_le h.weights ?_
    rw [← hsum]
    exact Nat.le_add_right _ _
  · simp [pqSize, pqInsert] at *; omega

/-- The loop ends with one entry (42_tree_builder.md R154). -/
theorem tbLoop_builderInv {f : Freq} {active : List Nat} {n : Nat} {b : Builder} (h : BuilderInv f active b)
    (h1 : 1 ≤ pqSize b.pq) (hn : pqSize b.pq ≤ n + 1) :
    ∃ b', tbLoop n b = .ok b' ∧ BuilderInv f active b' ∧ pqSize b'.pq = 1 := by
  induction n generalizing b with
  | zero => exact ⟨b, rfl, h, by omega⟩
  | succ n ih =>
    by_cases h2 : 2 ≤ pqSize b.pq
    · obtain ⟨b', hok, hinv, hsize⟩ := h.merge h2
      rw [tbLoop, if_pos h2, hok]
      exact ih hinv (by omega) (by omega)
    · rw [tbLoop, if_neg h2]
      exact ⟨b, rfl, h, by omega⟩

/-! ## The tree -/

/-- The tree TB_BUILD returns for at least one active symbol: an arena in which the root alone waits. -/
structure HuffTree (f : Freq) (active : List Nat) (arena : List Node) (root : Nat) : Prop extends
    HuffArena f active arena where
  length : arena.length = 2 * active.length - 1
  waits : ∀ j, waiting arena arena.length j ↔ j = root
  rootWeight : weightAt arena root = (active.map (freqOf f)).sum
  weights : ∀ i, weightAt arena i ≤ (active.map (freqOf f)).sum

theorem tbBuild_nil (f : Freq) (b : Builder) : tbBuild f [] b = .ok .empty := rfl

/-- TB_BUILD returns a Huffman tree, the same whatever an earlier command left (42_tree_builder.md R154). -/
theorem tbBuild_huffTree (f : Freq) {active : List Nat} (hne : active ≠ []) :
    ∃ arena root, (∀ b0, tbBuild f active b0 = .ok (.tree arena root)) ∧ HuffTree f active arena root := by
  have hk := List.length_pos_iff.2 hne
  obtain ⟨hinit, hlen⟩ := tbLeaves_builderInv (builderInv_init f ⟨[], 0⟩) rfl active
  rw [List.nil_append] at hinit hlen
  have hsize := hinit.size
  obtain ⟨b, hloop, hinv, hone⟩ := tbLoop_builderInv (n := active.length) hinit (by omega) (by omega)
  obtain ⟨e, he⟩ := List.length_eq_one_iff.1 hone
  have hmin : pqExtractMin b.pq = .ok (e, { b.pq with entries := b.pq.entries.erase e }) :=
    pqExtractMin_of_pqLeast (by rw [he]; rfl)
  have hbsize := hinv.size
  have hsum := hinv.sum
  obtain ⟨j, hj, rfl⟩ := (hinv.queue.mem e).1 (by simp [he])
  rw [he, List.map_singleton, List.sum_singleton] at hsum
  refine ⟨b.arena, j, fun b0 => ?_, ⟨hinv.arena, by omega, fun i => ⟨fun hi => ?_, ?_⟩, hsum, hinv.weights⟩⟩
  · have : tbInit f active b0 = tbLeaves f active ⟨[], pqInit ⟨[], 0⟩⟩ := rfl
    simp only [tbBuild, if_neg (Nat.ne_of_gt hk), this, hloop, hmin, ok_bind]
    rfl
  · have := (hinv.queue.mem (entryOf b.arena i)).2 ⟨i, hi, rfl⟩
    rw [he, List.mem_singleton] at this
    exact congrArg QEntry.node this
  · rintro rfl; exact hj

/-- Settles O47: the tree's arena keeps the builder's invariant, in which a node that waits at the end is the root. -/
theorem builtTreeHasTheHuffmanShape : Obligations.BuiltTreeHasTheHuffmanShape := by
  refine fun f active b0 => ⟨fun h => by rw [h]; exact tbBuild_nil f b0, fun hne => ?_⟩
  obtain ⟨arena, root, hbuild, H⟩ := tbBuild_huffTree f hne
  have hroot := (H.waits root).2 rfl
  refine ⟨arena, root, hbuild b0, H.length, hroot.1, H.leaves, fun i hk hi => ?_, fun i hi hne => ?_, fun p hp => ?_,
    fun i hk hi => ?_, fun i n hn => ?_, ?_⟩
  · obtain ⟨l, r, hj⟩ := H.joins i hk hi
    obtain ⟨hl, hr, hlr⟩ := leavesBefore_iff.1 hj.leftFirst
    obtain ⟨nl, hnl, hwl⟩ := exists_getElem?_weightAt hl
    obtain ⟨nr, hnr, hwr⟩ := exists_getElem?_weightAt hr
    exact ⟨l, r, nl, nr, by rw [hwl, hwr]; exact hj.node, hnl, hnr, hj.leftWaits.1, hj.rightWaits.1,
      by rintro rfl; omega⟩
  · obtain ⟨p, hp⟩ : ∃ p, isChild arena p i :=
      Classical.byContradiction fun hno => hne ((H.waits i).1 ⟨hi, fun p _ hp => hno ⟨p, hp⟩⟩)
    exact ⟨p, hp, fun q hq => H.parent_unique hq hp⟩
  · exact hroot.2 p hp.lt_length hp
  · obtain ⟨l, r, hj⟩ := H.joins i hk hi
    exact ⟨l, r, _, hj.node, hj.leftWaits, hj.rightWaits, hj.leftFirst, hj.othersAfter⟩
  · have hw := H.weights i
    rw [weightAt_of_getElem? hn] at hw
    exact ⟨hw, Nat.lt_of_le_of_lt hw⟩
  · obtain ⟨n, hn, hw⟩ := exists_getElem?_weightAt hroot.1
    exact ⟨n, hn, hw.trans H.rootWeight⟩

end Sys2Proof.Machine
end

section
/-! PROOFS of the codes (43_code_table.md section 1): the paths of a Huffman tree, CT_GEN as the table of its leaves'
paths, and the lengths of the codes. -/

namespace Sys2Proof.Machine

/-- Induction over a list from its end. -/
theorem list_concat_induction {α : Type} {motive : List α → Prop} (nil : motive [])
    (concat : ∀ l a, motive l → motive (l ++ [a])) (l : List α) : motive l := by
  rw [← l.reverse_reverse]
  induction l.reverse with
  | nil => exact nil
  | cons a l ih => rw [List.reverse_cons]; exact concat _ a ih

/-! ## Paths -/

/-- The child a bit selects: bit 0 the left one, bit 1 the right one (43_code_table.md R171). -/
def childAt (arena : List Node) (i : Nat) (b : Bool) : Option Nat :=
  match arena[i]? with
  | some (.internal (some l) (some r) _) => some (if b then r else l)
  | _ => none

/-- The index a path leads to from index i. -/
def indexAt (arena : List Node) (i : Nat) (p : Bits) : Option Nat := p.foldlM (childAt arena) i

@[simp] theorem indexAt_nil (arena : List Node) (i : Nat) : indexAt arena i [] = some i := rfl

theorem indexAt_cons (arena : List Node) (i : Nat) (b : Bool) (p : Bits) :
    indexAt arena i (b :: p) = (childAt arena i b).bind (indexAt arena · p) := rfl

theorem indexAt_append (arena : List Node) (i : Nat) (p q : Bits) :
    indexAt arena i (p ++ q) = (indexAt arena i p).bind (indexAt arena · q) := List.foldlM_append

theorem indexAt_concat_eq_some {arena : List Node} {i j : Nat} {p : Bits} {b : Bool} :
    indexAt arena i (p ++ [b]) = some j ↔ ∃ m, indexAt arena i p = some m ∧ childAt arena m b = some j := by
  simp [indexAt_append, indexAt_cons, Option.bind_eq_some_iff]

theorem nodeAt_cons (arena : List Node) (i : Nat) (b : Bool) (p : Bits) :
    nodeAt arena i (b :: p) = (childAt arena i b).bind (nodeAt arena · p) := by
  rw [nodeAt, childAt]
  rcases arena[i]? with _ | ⟨s, w⟩ | ⟨_ | l, _ | r, w⟩ <;> rfl

/-- A path leads to the node at its index. -/
theorem nodeAt_eq (arena : List Node) (i : Nat) (p : Bits) :
    nodeAt arena i p = (indexAt arena i p).bind (arena[·]?) := by
  induction p generalizing i with
  | nil => rfl
  | cons b p ih => simp only [nodeAt_cons, indexAt_cons, Option.bind_assoc, ih]

theorem nodeAt_eq_some {arena : List Node} {i : Nat} {p : Bits} {n : Node} :
    nodeAt arena i p = some n ↔ ∃ j, indexAt arena i p = some j ∧ arena[j]? = some n := by
  rw [nodeAt_eq, Option.bind_eq_some_iff]

theorem childAt_leaf {arena : List Node} {i s w : Nat} (h : arena[i]? = some (.leaf s w)) (b : Bool) :
    childAt arena i b = none := by simp [childAt, h]

theorem JoinsLeast.childAt_eq {arena : List Node} {i l r : Nat} (h : JoinsLeast arena i l r) (b : Bool) :
    childAt arena i b = some (if b then r else l) := by simp [childAt, h.node]

theorem JoinsLeast.left_ne_right {arena : List Node} {i l r : Nat} (h : JoinsLeast arena i l r) : l ≠ r := by
  rintro rfl
  have := (leavesBefore_iff.1 h.leftFirst).2.2
  omega

theorem isChild_of_childAt {arena : List Node} {i j : Nat} {b : Bool} (h : childAt arena i b = some j) :
    isChild arena i j := by
  unfold childAt at h
  split at h
  next l r w hi =>
    cases h
    exact ⟨some l, some r, w, hi, by cases b <;> simp⟩
  next => cases h

section
variable {f : Freq} {active : List Nat} {arena : List Node} (H : HuffArena f active arena)
include H

/-- Leaves and joins lie below and above the number of active symbols. -/
theorem HuffArena.leaf_iff {j s w : Nat} :
    arena[j]? = some (.leaf s w) ↔ active[j]? = some s ∧ w = freqOf f s := by
  constructor
  · intro h
    rcases Nat.lt_or_ge j active.length with hj | hj
    · rw [H.leaf_of_lt hj] at h
      cases h
      exact ⟨List.getElem?_eq_getElem hj, rfl⟩
    · obtain ⟨l, r, hjoin⟩ := H.joins j hj (List.getElem?_eq_some_iff.1 h).1
      rw [hjoin.node] at h
      cases h
  · rintro ⟨hs, rfl⟩
    exact H.leaves j s hs

/-- Only the nodes above the leaves have children. -/
theorem HuffArena.le_of_isChild {p i : Nat} (h : isChild arena p i) : active.length ≤ p := by
  refine Nat.le_of_not_lt fun hlt => ?_
  obtain ⟨l, r, hj⟩ := H.joins_of_isChild h
  cases (H.leaf_of_lt hlt).symm.trans hj.node

theorem HuffArena.childAt_of_isChild {p j : Nat} (h : isChild arena p j) : ∃ b, childAt arena p b = some j := by
  obtain ⟨l, r, hj⟩ := H.joins_of_isChild h
  rcases (hj.isChild_iff j).1 h with rfl | rfl
  · exact ⟨false, hj.childAt_eq false⟩
  · exact ⟨true, hj.childAt_eq true⟩

/-- A node is the child of one node, by one bit. -/
theorem HuffArena.childAt_inj {p q j : Nat} {b c : Bool} (hp : childAt arena p b = some j)
    (hq : childAt arena q c = some j) : p = q ∧ b = c := by
  have hpq := H.parent_unique (isChild_of_childAt hp) (isChild_of_childAt hq)
  subst hpq
  obtain ⟨l, r, hj⟩ := H.joins_of_isChild (isChild_of_childAt hp)
  rw [hj.childAt_eq, ← hq, hj.childAt_eq, Option.some.injEq] at hp
  have hlr := hj.left_ne_right
  refine ⟨rfl, ?_⟩
  cases b <;> cases c <;> simp_all

theorem HuffArena.childAt_lt {p j : Nat} {b : Bool} (h : childAt arena p b = some j) : j < p :=
  H.child_lt p j (isChild_of_childAt h)

theorem HuffArena.indexAt_le {i j : Nat} {p : Bits} (h : indexAt arena i p = some j) : j ≤ i := by
  induction p generalizing i with
  | nil => cases h; exact Nat.le_refl _
  | cons b p ih =>
    obtain ⟨m, hm, h⟩ := Option.bind_eq_some_iff.1 h
    exact Nat.le_trans (ih h) (Nat.le_of_lt (H.childAt_lt hm))

/-- WALK puts each leaf below its node under the path to it, and no other symbol (43_code_table.md R171, R172). -/
theorem HuffArena.ctWalk_eq {d i : Nat} (hd : i < d) (hi : i < arena.length) (p : Bits) (c : Codes) :
    ∃ c', ctWalk arena d i p c = .ok c' ∧ ∀ s,
      (∃ q w, nodeAt arena i q = some (.leaf s w) ∧ codeOf c' s = p ++ q) ∨
      ((∀ q w, nodeAt arena i q ≠ some (.leaf s w)) ∧ codeOf c' s = codeOf c s) := by
  induction d generalizing i p c with
  | zero => cases hd
  | succ d ih =>
    rcases Nat.lt_or_ge i active.length with hk | hk
    · have hleaf := H.leaf_of_lt hk
      have hpath (q : Bits) (n : Node) (h : nodeAt arena i q = some n) : q = [] := by
        cases q with
        | nil => rfl
        | cons b q => simp [nodeAt_eq, indexAt_cons, childAt_leaf hleaf] at h
      refine ⟨mapPut c active[i] p, by simp only [ctWalk, hleaf], fun s => ?_⟩
      by_cases hs : active[i] = s
      · exact .inl ⟨[], freqOf f active[i], by rw [← hs]; exact hleaf, by simp [codeOf_mapPut, hs]⟩
      · refine .inr ⟨fun q w h => ?_, by simp [codeOf_mapPut, hs]⟩
        rw [hpath q _ h] at h
        change arena[i]? = _ at h
        rw [hleaf] at h
        cases h
        exact hs rfl
    · obtain ⟨l, r, hj⟩ := H.joins i hk hi
      obtain ⟨hl, hr, -⟩ := leavesBefore_iff.1 hj.leftFirst
      have hli := hj.leftWaits.1
      have hri := hj.rightWaits.1
      obtain ⟨c1, hc1, h1⟩ := ih (i := l) (by omega) hl (p ++ [false]) c
      obtain ⟨c2, hc2, h2⟩ := ih (i := r) (by omega) hr (p ++ [true]) c1
      have hcons (b : Bool) (q : Bits) : nodeAt arena i (b :: q) = nodeAt arena (if b then r else l) q := by
        simp only [nodeAt, hj.node]
      refine ⟨c2, by simp only [ctWalk, hj.node, hc1]; exact hc2, fun s => ?_⟩
      rcases h2 s with ⟨q, w, hq, hs⟩ | ⟨hnr, hs⟩
      · exact .inl ⟨true :: q, w, (hcons true q).trans hq, by simp [hs]⟩
      rcases h1 s with ⟨q, w, hq, hs'⟩ | ⟨hnl, hs'⟩
      · exact .inl ⟨false :: q, w, (hcons false q).trans hq, by simp [hs, hs']⟩
      · refine .inr ⟨fun q w => ?_, hs.trans hs'⟩
        cases q with
        | nil => change arena[i]? ≠ _; simp [hj.node]
        | cons b q =>
          rw [hcons]
          cases b
          · exact hnl q w
          · exact hnr q w

end

section
variable {f : Freq} {active : List Nat} {arena : List Node} {root : Nat} (H : HuffTree f active arena root)
include H

theorem HuffTree.root_lt : root < arena.length := ((H.waits root).2 rfl).1

theorem HuffTree.not_isChild_root (p : Nat) : ¬ isChild arena p root :=
  fun hp => ((H.waits root).2 rfl).2 p hp.lt_length hp

theorem HuffTree.exists_parent {i : Nat} (hi : i < arena.length) (hne : i ≠ root) : ∃ p, isChild arena p i :=
  Classical.byContradiction fun hno => hne ((H.waits i).1 ⟨hi, fun p _ hp => hno ⟨p, hp⟩⟩)

/-- The root was made last. -/
theorem HuffTree.le_root {i : Nat} (hi : i < arena.length) : i ≤ root := by
  have hpos : 0 < arena.length := Nat.lt_of_le_of_lt (Nat.zero_le _) hi
  have hlast : waiting arena arena.length (arena.length - 1) := by
    refine ⟨by omega, fun p hp hc => ?_⟩
    have := H.child_lt p _ hc
    omega
  have := (H.waits _).1 hlast
  omega

/-- No two paths from the root lead to the same node. -/
theorem HuffTree.path_unique {p q : Bits} {j : Nat} (hp : indexAt arena root p = some j)
    (hq : indexAt arena root q = some j) : p = q := by
  induction p using list_concat_induction generalizing q j with
  | nil =>
    cases hp
    rcases List.eq_nil_or_concat q with rfl | ⟨q, c, rfl⟩
    · rfl
    · obtain ⟨m, -, hm⟩ := indexAt_concat_eq_some.1 (List.concat_eq_append ▸ hq)
      exact absurd (isChild_of_childAt hm) (H.not_isChild_root m)
  | concat p b ih =>
    obtain ⟨m, hpm, hm⟩ := indexAt_concat_eq_some.1 hp
    rcases List.eq_nil_or_concat q with rfl | ⟨q, c, rfl⟩
    · cases hq
      exact absurd (isChild_of_childAt hm) (H.not_isChild_root m)
    · rw [List.concat_eq_append] at hq ⊢
      obtain ⟨m', hqm, hm'⟩ := indexAt_concat_eq_some.1 hq
      obtain ⟨rfl, rfl⟩ := H.childAt_inj hm hm'
      rw [ih hpm hqm]

/-- Every node is reached from the root. -/
theorem HuffTree.exists_path {i : Nat} (hi : i < arena.length) : ∃ p, indexAt arena root p = some i := by
  induction hd : arena.length - i using Nat.strongRecOn generalizing i with
  | _ d ih =>
    by_cases hroot : i = root
    · exact ⟨[], by rw [hroot]; rfl⟩
    · obtain ⟨m, hm⟩ := H.exists_parent hi hroot
      obtain ⟨b, hb⟩ := H.childAt_of_isChild hm
      have hlt := H.child_lt m i hm
      have hml := hm.lt_length
      obtain ⟨p, hp⟩ := ih (arena.length - m) (by omega) hml rfl
      exact ⟨p ++ [b], indexAt_concat_eq_some.2 ⟨m, hp, hb⟩⟩

/-- The paths to leaves, one for each active symbol. -/
theorem HuffTree.leaf_path {s : Nat} (hs : s ∈ active) : ∃ p, nodeAt arena root p = some (.leaf s (freqOf f s)) := by
  obtain ⟨i, hi⟩ := List.mem_iff_getElem?.1 hs
  have hleaf := H.leaves i s hi
  obtain ⟨p, hp⟩ := H.exists_path (List.getElem?_eq_some_iff.1 hleaf).1
  exact ⟨p, nodeAt_eq_some.2 ⟨i, hp, hleaf⟩⟩

theorem HuffTree.mem_of_leaf {p : Bits} {s w : Nat} (h : nodeAt arena root p = some (.leaf s w)) :
    s ∈ active ∧ w = freqOf f s := by
  obtain ⟨j, -, hj⟩ := nodeAt_eq_some.1 h
  obtain ⟨hs, hw⟩ := H.leaf_iff.1 hj
  exact ⟨List.mem_of_getElem? hs, hw⟩

/-- With distinct symbols no two paths lead to leaves of the same symbol. -/
theorem HuffTree.leaf_path_unique (hnd : active.Nodup) {p q : Bits} {s w v : Nat}
    (hp : nodeAt arena root p = some (.leaf s w)) (hq : nodeAt arena root q = some (.leaf s v)) : p = q := by
  obtain ⟨i, hpi, hi⟩ := nodeAt_eq_some.1 hp
  obtain ⟨j, hqj, hj⟩ := nodeAt_eq_some.1 hq
  have his := (H.leaf_iff.1 hi).1
  have hjs := (H.leaf_iff.1 hj).1
  have hij : i = j := (List.getElem?_inj (List.getElem?_eq_some_iff.1 his).1 hnd).1 (his.trans hjs.symm)
  exact H.path_unique hpi (hij ▸ hqj)

/-- With two symbols or more the root is a join. -/
theorem HuffTree.root_joins (h2 : 2 ≤ active.length) : ∃ l r, JoinsLeast arena root l r := by
  have hlen := H.length
  have hroot := H.le_root (i := arena.length - 1) (by omega)
  exact H.joins root (by omega) H.root_lt

end

/-! ## CT_GEN -/

/-- The codes of a Huffman tree: the paths to its leaves (43_code_table.md R170 to R172). -/
structure PathCodes (f : Freq) (active : List Nat) (arena : List Node) (root : Nat) (codes : Codes) : Prop where
  path : ∀ s ∈ active, nodeAt arena root (codeOf codes s) = some (.leaf s (freqOf f s))
  noCode : ∀ s, s ∉ active → codeOf codes s = []

/-- With two symbols or more CT_GEN answers the paths (43_code_table.md R170). -/
theorem HuffTree.ctGen_eq {f : Freq} {active : List Nat} {arena : List Node} {root : Nat}
    (H : HuffTree f active arena root) (h2 : 2 ≤ active.length) :
    ∃ codes, ctGen (.tree arena root) = .ok codes ∧ PathCodes f active arena root codes := by
  obtain ⟨l, r, hj⟩ := H.root_joins h2
  obtain ⟨codes, hwalk, hcodes⟩ := H.ctWalk_eq H.root_lt H.root_lt [] []
  refine ⟨codes, by simp only [ctGen, hj.node, hwalk], fun s hs => ?_, fun s hs => ?_⟩
  · rcases hcodes s with ⟨q, w, hq, hc⟩ | ⟨hno, -⟩
    · rw [hc, List.nil_append, hq, (H.mem_of_leaf hq).2]
    · obtain ⟨p, hp⟩ := H.leaf_path hs
      exact absurd hp (hno p _)
  · rcases hcodes s with ⟨q, w, hq, -⟩ | ⟨-, hc⟩
    · exact absurd (H.mem_of_leaf hq).1 hs
    · exact hc

/-- With a single symbol CT_GEN answers its code 0 (43_code_table.md R173). -/
theorem HuffTree.ctGen_single {f : Freq} {s : Nat} {arena : List Node} {root : Nat} (H : HuffTree f [s] arena root) :
    ctGen (.tree arena root) = .ok [(s, [false])] := by
  have hlt := H.root_lt
  have hlen := H.length
  have hleaf := H.leaf_of_lt (i := root) (by simp at *; omega)
  simp only [ctGen, hleaf, List.getElem_singleton]

@[simp] theorem codeOf_single (s r : Nat) (c : Bits) : codeOf [(s, c)] r = if s = r then c else [] := by
  unfold codeOf mapGet
  split <;> rfl

/-- What TB_BUILD and CT_GEN answer for a list of active symbols: nothing for none, the code 0 for one, else the paths of
a Huffman tree (43_code_table.md R170, R173, R174). -/
inductive Coded (f : Freq) : (active : List Nat) → Tree → Codes → Prop
  | none : Coded f [] .empty []
  | one (s : Nat) (arena : List Node) (root : Nat) : Coded f [s] (.tree arena root) [(s, [false])]
  | paths {active : List Nat} {arena : List Node} {root : Nat} {codes : Codes} (h2 : 2 ≤ active.length)
      (H : HuffTree f active arena root) (hc : PathCodes f active arena root codes) :
      Coded f active (.tree arena root) codes

/-- The tree and the codes are built for every list of active symbols. -/
theorem exists_coded (f : Freq) (active : List Nat) :
    ∃ tree codes, (∀ b0, tbBuild f active b0 = .ok tree) ∧ ctGen tree = .ok codes ∧ Coded f active tree codes := by
  by_cases hne : active = []
  · subst hne
    exact ⟨.empty, [], tbBuild_nil f, rfl, .none⟩
  obtain ⟨arena, root, hbuild, H⟩ := tbBuild_huffTree f hne
  by_cases h2 : 2 ≤ active.length
  · obtain ⟨codes, hgen, hc⟩ := H.ctGen_eq h2
    exact ⟨_, codes, hbuild, hgen, .paths h2 H hc⟩
  · have hpos := List.length_pos_iff.2 hne
    obtain ⟨s, rfl⟩ := List.length_eq_one_iff.1 (show active.length = 1 by omega)
    exact ⟨_, _, hbuild, H.ctGen_single, .one s arena root⟩

theorem coded_of_build {f : Freq} {active : List Nat} {b0 : Builder} {tree : Tree} {codes : Codes}
    (hbuild : tbBuild f active b0 = .ok tree) (hgen : ctGen tree = .ok codes) : Coded f active tree codes := by
  obtain ⟨tree', codes', hb, hg, hc⟩ := exists_coded f active
  cases (hb b0).symm.trans hbuild
  cases hg.symm.trans hgen
  exact hc

/-- Settles O60: CT_GEN's codes are the paths to the leaves, and no two paths lead to the same leaf. -/
theorem codesAreThePathsToTheirLeaves : Obligations.CodesAreThePathsToTheirLeaves := by
  intro f active b0 hnd
  obtain ⟨tree, codes, hbuild, hgen, hc⟩ := exists_coded f active
  refine ⟨tree, codes, hbuild b0, hgen, ?_⟩
  cases hc with
  | none => simp
  | one s arena root => simp
  | paths h2 H hc =>
    refine ⟨?_, ?_, fun _ => ⟨_, _, rfl, hc.path, fun p s w hp => ?_⟩⟩
    · rintro rfl; simp at h2
    · rintro s rfl; simp at h2
    · obtain ⟨hs, hw⟩ := H.mem_of_leaf hp
      exact ⟨hs, hw, H.leaf_path_unique hnd hp (hc.path s hs)⟩

/-! ## No code begins another -/

/-- From a leaf only the empty path leads to a node. -/
theorem eq_nil_of_nodeAt_leaf {arena : List Node} {i s w : Nat} {p q : Bits} {n : Node}
    (hp : nodeAt arena i p = some (.leaf s w)) (hq : nodeAt arena i (p ++ q) = some n) : q = [] := by
  obtain ⟨j, hpj, hj⟩ := nodeAt_eq_some.1 hp
  cases q with
  | nil => rfl
  | cons b q => simp [nodeAt_eq, indexAt_append, hpj, indexAt_cons, childAt_leaf hj] at hq

section
variable {f : Freq} {active : List Nat} {tree : Tree} {codes : Codes} (h : Coded f active tree codes)
include h

theorem Coded.codeOf_ne_nil_iff (s : Nat) : codeOf codes s ≠ [] ↔ s ∈ active := by
  cases h with
  | none => simp [codeOf]
  | one r arena root => by_cases hr : r = s <;> simp [hr, eq_comm (a := s)]
  | paths h2 H hc =>
    refine ⟨fun hne => Decidable.byContradiction fun hs => hne (hc.noCode s hs), fun hs hnil => ?_⟩
    obtain ⟨l, r, hj⟩ := H.root_joins h2
    have hpath := hc.path s hs
    rw [hnil] at hpath
    cases hj.node.symm.trans hpath

theorem Coded.not_prefix {s r : Nat} (hs : s ∈ active) (hr : r ∈ active) (hne : s ≠ r) :
    ¬ codeOf codes s <+: codeOf codes r := by
  cases h with
  | none => cases hs
  | one q arena root => exact absurd ((List.mem_singleton.1 hs).trans (List.mem_singleton.1 hr).symm) hne
  | paths h2 H hc =>
    rintro ⟨q, hq⟩
    have hps := hc.path s hs
    have hpr := hc.path r hr
    rw [← hq] at hpr
    rw [eq_nil_of_nodeAt_leaf hps hpr, List.append_nil, hps] at hpr
    cases hpr
    exact hne rfl

end

/-- Settles O48: a code that begins another would lead from a leaf to a leaf. -/
theorem generatedCodesArePrefixFree : Obligations.GeneratedCodesArePrefixFree := by
  intro f active b0 _
  obtain ⟨tree, codes, hbuild, hgen, hc⟩ := exists_coded f active
  refine ⟨tree, codes, hbuild b0, hgen, hc.codeOf_ne_nil_iff, fun s hs r hr => hc.not_prefix hs hr, ?_⟩
  rintro s rfl
  cases hc with
  | one => simp
  | paths h2 => simp at h2

/-! ## The order in which joins are made -/

section
variable {f : Freq} {active : List Nat} {arena : List Node} (H : HuffArena f active arena)
include H

theorem HuffArena.weightAt_child_le {p i : Nat} (h : isChild arena p i) : weightAt arena i ≤ weightAt arena p := by
  obtain ⟨l, r, hj⟩ := H.joins_of_isChild h
  rw [hj.weightAt_eq]
  rcases (hj.isChild_iff i).1 h with rfl | rfl
  · exact Nat.le_add_right _ _
  · exact Nat.le_add_left _ _

/-- A node that waits when i is made, and is no child of i, is no lighter than i's children. -/
theorem HuffArena.weightAt_child_le_waiting {i j c : Nat} (hc : isChild arena i c) (hw : waiting arena i j)
    (hj : ¬ isChild arena i j) : weightAt arena c ≤ weightAt arena j := by
  obtain ⟨l, r, hjoin⟩ := H.joins_of_isChild hc
  rw [hjoin.isChild_iff, not_or] at hj
  have hlr := (leavesBefore_iff.1 hjoin.leftFirst).2.2
  have hrj := (leavesBefore_iff.1 (hjoin.othersAfter j hw hj.1 hj.2)).2.2
  rcases (hjoin.isChild_iff c).1 hc with rfl | rfl <;> omega

/-- Joins are made in the order of their weights. -/
theorem HuffArena.weightAt_join_mono {i j : Nat} (hi : active.length ≤ i) (hij : i ≤ j) (hj : j < arena.length) :
    weightAt arena i ≤ weightAt arena j := by
  induction hij with
  | refl => exact Nat.le_refl _
  | @step j hij ih =>
    have hij : i ≤ j := hij
    refine Nat.le_trans (ih (by omega)) ?_
    obtain ⟨l, r, hjoin⟩ := H.joins j (by omega) (by omega)
    obtain ⟨l', r', hjoin'⟩ := H.joins (j + 1) (by omega) hj
    have hjl := (hjoin.isChild_iff l).2 (.inl rfl)
    have hjr := (hjoin.isChild_iff r).2 (.inr rfl)
    have hlater {c d : Nat} (hc : isChild arena j c) (hd : waiting arena (j + 1) d) (hne : d ≠ j) :
        weightAt arena c ≤ weightAt arena d := by
      refine H.weightAt_child_le_waiting hc ⟨?_, fun p hp => hd.2 p (by omega)⟩ (hd.2 j (by omega))
      have := hd.1
      omega
    by_cases hl' : l' = j
    · exact H.weightAt_child_le ((hjoin'.isChild_iff j).2 (.inl hl'.symm))
    by_cases hr' : r' = j
    · exact H.weightAt_child_le ((hjoin'.isChild_iff j).2 (.inr hr'.symm))
    · rw [hjoin.weightAt_eq, hjoin'.weightAt_eq]
      exact Nat.add_le_add (hlater hjl hjoin'.leftWaits hl') (hlater hjr hjoin'.rightWaits hr')

/-- Of two nodes that are taken, the one that leaves the queue first has a parent that is made no later. -/
theorem HuffArena.parent_le {u v p q : Nat} (huv : leavesBefore arena u v) (hp : isChild arena p u)
    (hq : isChild arena q v) : p ≤ q := by
  refine Nat.le_of_not_lt fun hlt => ?_
  obtain ⟨-, -, huv⟩ := leavesBefore_iff.1 huv
  have hvq := H.child_lt q v hq
  obtain ⟨l, r, hjoin⟩ := H.joins_of_isChild hq
  rcases Nat.lt_or_ge u q with huq | huq
  · have hne : ¬ isChild arena q u := fun h => Nat.ne_of_gt hlt (H.parent_unique hp h)
    rw [hjoin.isChild_iff, not_or] at hne
    have hru := (leavesBefore_iff.1 (hjoin.othersAfter u
      ⟨huq, fun p' hp' h => Nat.ne_of_gt (Nat.lt_trans hp' hlt) (H.parent_unique hp h)⟩ hne.1 hne.2)).2.2
    have hlr := (leavesBefore_iff.1 hjoin.leftFirst).2.2
    rcases (hjoin.isChild_iff v).1 hq with rfl | rfl <;> omega
  · have hmono := H.weightAt_join_mono (H.le_of_isChild hq) huq (Nat.lt_trans (H.child_lt p u hp) hp.lt_length)
    have hvw := H.weightAt_child_le hq
    omega

end

/-! ## The lengths of the codes -/

/-- A node that leaves the queue first is no higher in the tree (43_code_table.md R176). -/
theorem HuffTree.path_length_le {f : Freq} {active : List Nat} {arena : List Node} {root : Nat}
    (H : HuffTree f active arena root) {p q : Bits} {u v : Nat} (hp : indexAt arena root p = some u)
    (hq : indexAt arena root q = some v) (huv : leavesBefore arena u v) : q.length ≤ p.length := by
  induction q using list_concat_induction generalizing p u v with
  | nil => exact Nat.zero_le _
  | concat q c ih =>
    obtain ⟨v', hqv, hv⟩ := indexAt_concat_eq_some.1 hq
    have hvp := isChild_of_childAt hv
    rcases List.eq_nil_or_concat p with rfl | ⟨p, b, rfl⟩
    · cases hp
      obtain ⟨hu, hv, hlt⟩ := leavesBefore_iff.1 huv
      have hw := H.weights v
      rw [← H.rootWeight] at hw
      have := H.le_root hv
      omega
    · rw [List.concat_eq_append] at hp ⊢
      obtain ⟨u', hpu, hu⟩ := indexAt_concat_eq_some.1 hp
      have hup := isChild_of_childAt hu
      rw [List.length_append, List.length_append]
      refine Nat.add_le_add_right ?_ 1
      rcases Nat.lt_or_eq_of_le (H.parent_le huv hup hvp) with hlt | rfl
      · refine ih hpu hqv (leavesBefore_iff.2 ⟨hup.lt_length, hvp.lt_length, ?_⟩)
        have := H.weightAt_join_mono (H.le_of_isChild hup) (Nat.le_of_lt hlt) hvp.lt_length
        omega
      · exact Nat.le_of_eq (congrArg List.length (H.path_unique hqv hpu))

/-- Settles O50: the leaf with the smaller count leaves the queue first. -/
theorem moreFrequentSymbolsHaveNoLongerCodes : Obligations.MoreFrequentSymbolsHaveNoLongerCodes := by
  intro f active b0 tree codes _ hbuild hgen a ha b hb hlt
  cases coded_of_build hbuild hgen with
  | none => cases ha
  | one s arena root =>
    rw [List.mem_singleton.1 ha, List.mem_singleton.1 hb] at hlt
    exact absurd hlt (Nat.lt_irrefl _)
  | paths h2 H hc =>
    obtain ⟨i, hpi, hi⟩ := nodeAt_eq_some.1 (hc.path a ha)
    obtain ⟨j, hpj, hj⟩ := nodeAt_eq_some.1 (hc.path b hb)
    exact H.path_length_le hpj hpi ⟨_, _, hj, hi, .inl hlt⟩

/-- The least weight of a node with a path of length h below it, the Fibonacci number h + 2 (42_tree_builder.md R160). -/
def leastWeight : Nat → Nat
  | 0 => 1
  | 1 => 2
  | h + 2 => leastWeight h + leastWeight (h + 1)

theorem leastWeight_le_succ : ∀ h, leastWeight h ≤ leastWeight (h + 1)
  | 0 => by decide
  | _ + 1 => Nat.le_add_left _ _

theorem leastWeight_mono {h k : Nat} (hk : h ≤ k) : leastWeight h ≤ leastWeight k := by
  induction hk with
  | refl => exact Nat.le_refl _
  | step _ ih => exact Nat.le_trans ih (leastWeight_le_succ _)

theorem leastWeight_43 : leastWeight 43 = 1134903170 := by decide

section
variable {f : Freq} {active : List Nat} {arena : List Node} (H : HuffArena f active arena)
  (hpos : ∀ s ∈ active, 1 ≤ freqOf f s)
include H hpos

theorem HuffArena.one_le_weightAt {i : Nat} (hi : i < arena.length) : 1 ≤ weightAt arena i := by
  induction i using Nat.strongRecOn with
  | _ i ih =>
    rcases Nat.lt_or_ge i active.length with hk | hk
    · rw [weightAt_of_getElem? (H.leaf_of_lt hk)]
      exact hpos _ (List.getElem_mem hk)
    · obtain ⟨l, r, hj⟩ := H.joins i hk hi
      have := ih l hj.leftWaits.1 (Nat.lt_trans hj.leftWaits.1 hi)
      rw [hj.weightAt_eq]
      omega

omit hpos in
/-- The children of a node weigh no more than its sibling, which waited when they were taken or was made later. -/
theorem HuffArena.weightAt_grandchild_le {i c g d : Nat} (hc : isChild arena i c) (hd : isChild arena i d)
    (hg : isChild arena c g) : weightAt arena g ≤ weightAt arena d := by
  have hdi := H.waiting_of_isChild hd
  have hci := H.child_lt i c hc
  rcases Nat.lt_or_ge d c with hlt | hge
  · exact H.weightAt_child_le_waiting hg ⟨hlt, fun p hp => hdi.2 p (Nat.lt_trans hp hci)⟩ (hdi.2 c hci)
  · exact Nat.le_trans (H.weightAt_child_le hg)
      (H.weightAt_join_mono (H.le_of_isChild hg) hge (Nat.lt_trans hdi.1 hc.lt_length))

theorem HuffArena.leastWeight_le_weightAt : ∀ (p : Bits) {i j : Nat}, i < arena.length → indexAt arena i p = some j →
    leastWeight p.length ≤ weightAt arena i
  | [], i, _, hi, _ => H.one_le_weightAt hpos hi
  | [b], i, j, hi, h => by
    obtain ⟨c, hc, -⟩ := Option.bind_eq_some_iff.1 h
    obtain ⟨l, r, hj⟩ := H.joins_of_isChild (isChild_of_childAt hc)
    have hl := H.one_le_weightAt hpos (Nat.lt_trans hj.leftWaits.1 hi)
    have hr := H.one_le_weightAt hpos (Nat.lt_trans hj.rightWaits.1 hi)
    rw [hj.weightAt_eq]
    exact Nat.add_le_add hl hr
  | b :: b' :: p, i, j, hi, h => by
    obtain ⟨c, hc, hcp⟩ := Option.bind_eq_some_iff.1 h
    obtain ⟨g, hg, hgp⟩ := Option.bind_eq_some_iff.1 hcp
    have hci := H.childAt_lt hc
    have hgc := H.childAt_lt hg
    have hcw := HuffArena.leastWeight_le_weightAt (b' :: p) (Nat.lt_trans hci hi) hcp
    have hgw := HuffArena.leastWeight_le_weightAt p (Nat.lt_trans (Nat.lt_trans hgc hci) hi) hgp
    obtain ⟨l, r, hj⟩ := H.joins_of_isChild (isChild_of_childAt hc)
    have hchildren {d : Nat} (hd : d = l ∨ d = r) : leastWeight p.length ≤ weightAt arena d :=
      Nat.le_trans hgw
        (H.weightAt_grandchild_le (isChild_of_childAt hc) ((hj.isChild_iff d).2 hd) (isChild_of_childAt hg))
    have hl := hchildren (.inl rfl)
    have hr := hchildren (.inr rfl)
    have hw : leastWeight (b :: b' :: p).length = leastWeight p.length + leastWeight (b' :: p).length := rfl
    rw [hw, hj.weightAt_eq]
    rcases (hj.isChild_iff c).1 (isChild_of_childAt hc) with rfl | rfl <;> omega

end

/-- Codes of positive counts that sum to less than 2^30 have 1 to 42 bits, as the Fibonacci number 45 is above 2^30
(43_code_table.md R177). -/
theorem Coded.length_le {f : Freq} {active : List Nat} {tree : Tree} {codes : Codes} (h : Coded f active tree codes)
    (hpos : ∀ s ∈ active, 1 ≤ freqOf f s) (hsum : (active.map (freqOf f)).sum ≤ 2 ^ 30 - 1) {s : Nat}
    (hs : s ∈ active) : (codeOf codes s).length ≤ 42 := by
  cases h with
  | none => cases hs
  | one r arena root => simp [List.mem_singleton.1 hs]
  | paths h2 H hc =>
    obtain ⟨j, hj, -⟩ := nodeAt_eq_some.1 (hc.path s hs)
    have hw := H.leastWeight_le_weightAt hpos _ H.root_lt hj
    rw [H.rootWeight] at hw
    refine Nat.not_lt.1 fun hlong => ?_
    have hmono : leastWeight 43 ≤ leastWeight (codeOf codes s).length := leastWeight_mono hlong
    rw [leastWeight_43] at hmono
    omega

/-- Settles O49: the bound of a Huffman tree's depth by its weight. -/
theorem codesAreAtMost42BitsLong : Obligations.CodesAreAtMost42BitsLong := by
  intro f active b0 tree codes _ hpos hsum hbuild hgen s hs
  have hc := coded_of_build hbuild hgen
  exact ⟨List.length_pos_iff.2 ((hc.codeOf_ne_nil_iff s).2 hs), hc.length_le hpos hsum hs⟩

end Sys2Proof.Machine
end

section
/-! PROOFS of the counting pass (45_encoder.md R225, 40_frequency_table.md): the counts of a symbol sequence and the active
alphabet. -/

namespace Sys2Proof.Machine

/-- FREQ after the symbols of S are counted (40_frequency_table.md R121). -/
def countsOf (S : List Nat) (f : Freq) : Freq := S.foldl ftCount f

/-- The counting pass over symbols of the alphabet counts every symbol (45_encoder.md R225). -/
theorem countPass_countsOf {A : Nat} {S : List Nat} (h : ∀ s ∈ S, s < A) (i : Nat) (f : Freq) :
    countPass A S i f = .ok (countsOf S f) := by
  induction S generalizing i f with
  | nil => rfl
  | cons s S ih =>
    obtain ⟨hs, hS⟩ := List.forall_mem_cons.1 h
    rw [countPass, if_neg (Nat.not_le.2 hs), ih hS]
    rfl

theorem freqOf_countsOf (S : List Nat) (f : Freq) (s : Nat) : freqOf (countsOf S f) s = freqOf f s + S.count s := by
  induction S generalizing f with
  | nil => rfl
  | cons q S ih =>
    change freqOf (countsOf S (ftCount f q)) s = _
    rw [ih, freqOf_ftCount, List.count_cons]
    by_cases h : s = q
    · rw [if_pos h, if_pos (beq_iff_eq.2 h.symm)]; omega
    · rw [if_neg h, if_neg fun hq => h (beq_iff_eq.1 hq).symm]; omega

@[simp] theorem freqOf_countsOf_nil (S : List Nat) (s : Nat) : freqOf (countsOf S []) s = S.count s := by
  rw [freqOf_countsOf]
  exact Nat.zero_add _

/-- FREQ lists its symbols in ascending order (40_frequency_table.md R124). -/
theorem countsOf_sorted {f : Freq} (h : f.Pairwise fun c d => c.1 < d.1) (S : List Nat) :
    (countsOf S f).Pairwise fun c d => c.1 < d.1 := by
  induction S generalizing f with
  | nil => exact h
  | cons q S ih => exact ih (mapPut_sorted h q _)

theorem ftActive_sorted {f : Freq} (h : f.Pairwise fun c d => c.1 < d.1) (A : Nat) :
    (ftActive f A).Pairwise (· < ·) := by
  rw [ftActive, List.pairwise_map]
  exact h.filter _

/-- FT_ACTIVE lists the symbols of the alphabet that are counted (40_frequency_table.md R122). -/
theorem mem_ftActive {f : Freq} (h : f.Pairwise fun c d => c.1 < d.1) (A s : Nat) :
    s ∈ ftActive f A ↔ s < A ∧ 0 < freqOf f s := by
  simp only [ftActive, List.mem_map, List.mem_filter, Bool.and_eq_true, decide_eq_true_eq]
  constructor
  · rintro ⟨⟨q, n⟩, ⟨hmem, hq, hn⟩, rfl⟩
    exact ⟨hq, by rwa [freqOf, mapGet_of_mem h hmem]⟩
  · rintro ⟨hs, hpos⟩
    cases hget : mapGet f s with
    | none => simp [freqOf, hget] at hpos
    | some n => exact ⟨(s, n), ⟨mem_of_mapGet hget, hs, by simpa [freqOf, hget] using hpos⟩, rfl⟩

theorem ftActive_countsOf_nodup (S : List Nat) (A : Nat) : (ftActive (countsOf S []) A).Nodup :=
  (ftActive_sorted (countsOf_sorted .nil S) A).imp Nat.ne_of_lt

/-- A sum over distinct symbols grows by d where one of its terms does. -/
theorem sum_map_add_at {L : List Nat} (hL : L.Nodup) {a b : Nat → Nat} {q d : Nat} (hq : q ∈ L) (hb : b q = a q + d)
    (hne : ∀ s, s ≠ q → b s = a s) : (L.map b).sum = (L.map a).sum + d := by
  induction L with
  | nil => cases hq
  | cons x L ih =>
    obtain ⟨hx, hL⟩ := List.nodup_cons.1 hL
    rw [List.map_cons, List.map_cons, List.sum_cons, List.sum_cons]
    by_cases hxq : x = q
    · have hrest : L.map b = L.map a := List.map_congr_left fun s hs => hne s fun hsq => hx (hxq ▸ hsq ▸ hs)
      rw [hrest, hxq, hb]
      omega
    · rw [hne x hxq, ih hL ((List.mem_cons.1 hq).resolve_left (Ne.symm hxq))]
      omega

theorem sum_count_mul {L : List Nat} (hL : L.Nodup) (g : Nat → Nat) {S : List Nat} (hS : ∀ s ∈ S, s ∈ L) :
    (L.map fun s => S.count s * g s).sum = (S.map g).sum := by
  induction S with
  | nil =>
    refine List.sum_eq_zero_iff_forall_eq_nat.2 fun n hn => ?_
    obtain ⟨s, -, rfl⟩ := List.mem_map.1 hn
    exact Nat.zero_mul _
  | cons q S ih =>
    obtain ⟨hq, hS⟩ := List.forall_mem_cons.1 hS
    rw [List.map_cons, List.sum_cons, Nat.add_comm, ← ih hS]
    refine sum_map_add_at hL hq ?_ fun s hs => ?_
    · rw [List.count_cons_self, Nat.succ_mul]
    · rw [List.count_cons_of_ne (Ne.symm hs)]

section
variable {A : Nat} {S : List Nat} (hS : ∀ s ∈ S, s < A)
include hS

theorem mem_ftActive_countsOf (s : Nat) : s ∈ ftActive (countsOf S []) A ↔ s ∈ S := by
  rw [mem_ftActive (countsOf_sorted .nil S), freqOf_countsOf_nil, List.count_pos_iff]
  exact ⟨fun h => h.2, fun h => ⟨hS s h, h⟩⟩

/-- A sum over the active symbols, each as often as it occurs, is the sum over the sequence. -/
theorem sum_ftActive_countsOf (g : Nat → Nat) :
    ((ftActive (countsOf S []) A).map fun s => freqOf (countsOf S []) s * g s).sum = (S.map g).sum := by
  simp only [freqOf_countsOf_nil]
  exact sum_count_mul (ftActive_countsOf_nodup S A) g fun s hs => (mem_ftActive_countsOf hS s).2 hs

theorem sum_freqOf_ftActive : ((ftActive (countsOf S []) A).map (freqOf (countsOf S []))).sum = S.length := by
  simpa only [Nat.mul_one, List.map_const', List.sum_replicate_nat] using sum_ftActive_countsOf hS fun _ => 1

end

/-- Settles O45: the counts of a sequence over the alphabet, and the first symbol outside it. -/
theorem countingPassCountsOrReportsTheFirstBadSymbol : Obligations.CountingPassCountsOrReportsTheFirstBadSymbol := by
  refine fun A S f0 => ⟨fun hS => ?_, fun i s hi hs hgood => ?_⟩
  · have hsorted := countsOf_sorted .nil S
    refine ⟨countsOf S [], countPass_countsOf hS 0 [], freqOf_countsOf_nil S, ftActive_sorted hsorted A,
      mem_ftActive hsorted A, sum_freqOf_ftActive hS, fun hlen s => ?_⟩
    rw [freqOf_countsOf_nil]
    exact Nat.lt_of_le_of_lt List.count_le_length hlen
  · obtain ⟨hlt, rfl⟩ := List.getElem?_eq_some_iff.1 hi
    have hbefore : ∀ q ∈ S.take i, q < A := by
      intro q hq
      obtain ⟨j, hj⟩ := List.mem_iff_getElem?.1 hq
      rw [List.getElem?_take] at hj
      split at hj
      · exact hgood j ‹_› q hj
      · cases hj
    have hraise := countPass_firstBad hs hbefore (S.drop (i + 1)) 0 (ftClear f0)
    rwa [List.getElem_cons_drop, List.take_append_drop, List.length_take_of_le (Nat.le_of_lt hlt), Nat.zero_add] at hraise

end Sys2Proof.Machine
end

section
/-! PROOFS of the bit reader (44_bitstream.md R207 to R212) and of the whole of CT_TRIE_INSERT (43_code_table.md R181). -/

namespace Sys2Proof.Machine

/-! ## Reading packed bytes -/

/-- Packed bytes in memory have the bits of the byte list (44_bitstream.md R200). -/
theorem packedBit_of_bytesAt {rd : Nat → Byte} {base : Nat} {bs : List Byte} (h : bytesAt rd base bs) {i : Nat}
    (hi : i < 8 * bs.length) : packedBit rd base i = bitOfBytes bs i := by
  rw [bitOfBytes_eq, packedBit, h (i / 8) (by omega)]
  rfl

/-- Where memory holds the bytes of a writer that holds c, bit i there is bit i of c. -/
theorem BitWriter.Holds.packedBit_eq {w : BitWriter} {c : Bits} (h : w.Holds c) {rd : Nat → Byte} {base : Nat}
    (hrd : bytesAt rd base w.bytes) {i : Nat} (hi : i < c.length) : packedBit rd base i = c.getD i false := by
  rw [packedBit_of_bytesAt hrd, h.bit]
  rw [h.length, ceil8]
  omega

theorem bwPutSeq_init_holds (w : BitWriter) (c : Bits) : (bwPutSeq (bwInit w) c).Holds c :=
  bwPutSeq_holds (bwInit_holds w) c

/-- BR_GET before the end (44_bitstream.md R210). -/
theorem brGet_of_lt {rd : Nat → Byte} {base n i : Nat} (h : i < n) :
    brGet rd ⟨base, n, i⟩ = .ok (packedBit rd base i, ⟨base, n, i + 1⟩) := by
  simp [brGet, Nat.ne_of_lt h]

theorem brGet_end (rd : Nat → Byte) (base n : Nat) : brGet rd ⟨base, n, n⟩ = unreachableAt .brGetAtEnd := by
  simp [brGet]

/-- Settles O52: the writer holds the bits it was given, and memory holds the writer's bytes. -/
theorem readerGivesBackWhatTheWriterPacked : Obligations.ReaderGivesBackWhatTheWriterPacked := by
  intro w bits rd base hrd
  have hw := bwPutSeq_init_holds w bits
  refine ⟨hw.pos, fun i b hb => ?_, fun i _ => rfl, brGet_end rd base _⟩
  have hi := (List.getElem?_eq_some_iff.1 hb).1
  rw [brGet_of_lt hi, hw.packedBit_eq hrd hi, List.getD_eq_getElem?_getD, hb, Option.getD_some]

/-! ## CT_TRIE_INSERT -/

/-- Settles O53: the trie of the table, and what the next insert into it answers. -/
theorem trieAcceptsExactlyPrefixCodes : Obligations.TrieAcceptsExactlyPrefixCodes := by
  intro A cap recs hT hcap
  refine ⟨trieOf recs, insertRecords_trieOf (recs := []) hT hcap 0, ?_, fun q => mem_trieOf_seen,
    fun j sym c hc => ⟨ctTrieInsert_repeated, fun hsym => ⟨ctTrieInsert_conflict hT hc hsym,
      fun hcon => ⟨fun hfits => ?_, fun hfull => ?_⟩⟩⟩⟩
  · exact (trieArena_length _ _).trans (triePaths_length recs)
  · exact ⟨_, (ctTrieInsert_new hT hc hsym hcon hcap).trans (if_pos hfits)⟩
  · exact (ctTrieInsert_new hT hc hsym hcon hcap).trans (if_neg (Nat.not_le.2 hfull))

end Sys2Proof.Machine
end

section
/-! PROOFS of ENCODE's container (45_encoder.md R225 to R237): the table of a symbol sequence, and what ENCODE computes
from it. -/

namespace Sys2Proof.Machine

theorem toNat_ofNat_of_lt {w n : Nat} (h : n < 2 ^ w) : (BitVec.ofNat w n).toNat = n :=
  (BitVec.toNat_ofNat n w).trans (Nat.mod_eq_of_lt h)

/-! ## The sizes of a container -/

theorem sum_map_le {α : Type} {l : List α} {g : α → Nat} {c : Nat} (h : ∀ a ∈ l, g a ≤ c) :
    (l.map g).sum ≤ c * l.length := by
  induction l with
  | nil => exact Nat.zero_le _
  | cons a l ih =>
    obtain ⟨ha, hl⟩ := List.forall_mem_cons.1 h
    rw [List.map_cons, List.sum_cons, List.length_cons, Nat.mul_succ, Nat.add_comm]
    exact Nat.add_le_add (ih hl) ha

theorem ceil8_mono {a b : Nat} (h : a ≤ b) : ceil8 a ≤ ceil8 b := Nat.div_le_div_right (Nat.add_le_add_right h 7)

@[simp] theorem pack_length (c : Bits) : (pack c).length = ceil8 c.length := (bwPutSeq_init_holds ⟨[], 0⟩ c).length

@[simp] theorem recordBytes_length (s : Nat) (c : Bits) : (recordBytes s c).length = 5 + ceil8 c.length := by
  simp only [recordBytes, List.length_append, leBytes_length, pack_length]
  rfl

theorem records_length (recs : List (Nat × Bits)) :
    (recs.flatMap fun e => recordBytes e.1 e.2).length = recordsSize recs := by
  simp [List.length_flatMap, recordsSize]

@[simp] theorem headerBytes_length (n A k P : Nat) : (headerBytes n A k P).length = 24 := by simp [headerBytes]

theorem containerBytes_length (n A : Nat) (recs : List (Nat × Bits)) (payload : Bits) :
    (containerBytes n A recs payload).length = containerSize recs payload := by
  rw [containerBytes, List.length_append, List.length_append, records_length, headerBytes_length, pack_length]
  rfl

/-! ## The table of a symbol sequence -/

theorem codeOf_map {active : List Nat} {q : Nat} (h : q ∈ active) (g : Nat → Bits) :
    codeOf (active.map fun q => (q, g q)) q = g q := by
  obtain ⟨r, -, hr⟩ := List.mem_map.1 (mem_codeOf (recs := active.map fun q => (q, g q)) (q := q)
    (by simpa [Function.comp_def] using h))
  obtain ⟨rfl, hc⟩ := Prod.mk.inj hr
  exact hc.symm

/-- The tree, the codes and the records ENCODE makes of the symbols S of an alphabet of size A (45_encoder.md R227 to
R229). -/
structure TableOf (A : Nat) (S : List Nat) (tree : Tree) (codes : Codes) (recs : List (Nat × Bits)) : Prop where
  build : ∀ b0, tbBuild (countsOf S []) (ftActive (countsOf S []) A) b0 = .ok tree
  gen : ctGen tree = .ok codes
  coded : Coded (countsOf S []) (ftActive (countsOf S []) A) tree codes
  recs_eq : recs = (ftActive (countsOf S []) A).map fun q => (q, codeOf codes q)

theorem exists_tableOf (A : Nat) (S : List Nat) : ∃ tree codes recs, TableOf A S tree codes recs := by
  obtain ⟨tree, codes, hbuild, hgen, hc⟩ := exists_coded (countsOf S []) (ftActive (countsOf S []) A)
  exact ⟨tree, codes, _, hbuild, hgen, hc, rfl⟩

section
variable {A : Nat} {S : List Nat} {tree : Tree} {codes : Codes} {recs : List (Nat × Bits)}
  (h : TableOf A S tree codes recs)
include h

theorem TableOf.symbols : recs.map (·.1) = ftActive (countsOf S []) A := by
  rw [h.recs_eq, List.map_map]
  exact List.map_id _

theorem TableOf.length : recs.length = (ftActive (countsOf S []) A).length := by rw [h.recs_eq, List.length_map]

theorem TableOf.sorted : (recs.map (·.1)).Pairwise (· < ·) := by
  rw [h.symbols]
  exact ftActive_sorted (countsOf_sorted .nil S) A

theorem TableOf.serialize :
    ctSerialize (ftActive (countsOf S []) A) codes = recs.flatMap fun e => recordBytes e.1 e.2 := by
  rw [h.recs_eq, List.flatMap_map]
  rfl

theorem TableOf.prefixTable : PrefixTable A recs := by
  have hlt : ∀ q ∈ ftActive (countsOf S []) A, q < A := fun q hq =>
    ((mem_ftActive (countsOf_sorted .nil S) A q).1 hq).1
  have hnd := ftActive_countsOf_nodup S A
  rw [h.recs_eq]
  refine ⟨?_, ?_, List.pairwise_map.2 hnd, List.pairwise_map.2 (hnd.imp_of_mem fun hq hr hne => ?_)⟩
  · exact List.forall_mem_map.2 hlt
  · exact List.forall_mem_map.2 fun q hq => (h.coded.codeOf_ne_nil_iff q).2 hq
  · exact ⟨h.coded.not_prefix hq hr hne, h.coded.not_prefix hr hq hne.symm⟩

theorem TableOf.length_le_alphabet : recs.length ≤ A := by
  have hsub : ftActive (countsOf S []) A ⊆ List.range A := fun q hq =>
    List.mem_range.2 ((mem_ftActive (countsOf_sorted .nil S) A q).1 hq).1
  have hle := (ftActive_countsOf_nodup S A).length_le_of_subset hsub
  rwa [List.length_range, ← h.length] at hle

variable (hS : ∀ s ∈ S, s < A)
include hS

theorem TableOf.mem_symbols (q : Nat) : q ∈ recs.map (·.1) ↔ q ∈ S := by
  rw [h.symbols, mem_ftActive_countsOf hS]

theorem TableOf.codeOf_eq {q : Nat} (hq : q ∈ S) : codeOf recs q = codeOf codes q := by
  rw [h.recs_eq, codeOf_map ((mem_ftActive_countsOf hS q).2 hq)]

theorem TableOf.bitsOf_eq : bitsOf recs S = S.flatMap (codeOf codes) := by
  rw [bitsOf, List.flatMap, List.flatMap, List.map_congr_left fun q => h.codeOf_eq hS]

/-- P is the length of the payload (45_encoder.md R231). -/
theorem TableOf.payloadBitCount_eq :
    payloadBitCount (countsOf S []) (ftActive (countsOf S []) A) codes = (bitsOf recs S).length := by
  rw [payloadBitCount, sum_ftActive_countsOf hS, h.bitsOf_eq hS, List.length_flatMap]

theorem TableOf.length_le_source : recs.length ≤ S.length := by
  rw [h.length]
  exact (ftActive_countsOf_nodup S A).length_le_of_subset fun q => (mem_ftActive_countsOf hS q).1

/-- What ENCODE computes from the counting pass on: the container of the table, where it fits (45_encoder.md R225 to
R232). -/
theorem TableOf.encodeSymbols_eq (dc : Nat) (w : Work) :
    encodeSymbols A dc S w =
      if containerSize recs (bitsOf recs S) ≤ dc then
        .ok { bytes := containerBytes S.length A recs (bitsOf recs S), resultLen := containerSize recs (bitsOf recs S),
              resultCount := S.length, payloadBits := (bitsOf recs S).length, tableEntries := recs.length }
      else raise .bounds 3 (containerSize recs (bitsOf recs S)) 0 := by
  have hsize : 24 + (recs.flatMap fun e => recordBytes e.1 e.2).length + ceil8 (bitsOf recs S).length =
      containerSize recs (bitsOf recs S) := by rw [records_length]; rfl
  have hpack : (bwFinalize (packPass codes S (bwInit w.bw))).1 = pack (bitsOf recs S) := by
    rw [packPass_eq, ← h.bitsOf_eq hS]
    rfl
  simp only [encodeSymbols, ftClear, countPass_countsOf hS, ok_bind, h.build, h.gen, h.payloadBitCount_eq hS,
    h.serialize, hsize, hpack, ← h.length]
  split
  next hfits => rw [raiseIf_neg (Nat.not_lt.2 hfits)]; rfl
  next hsmall => rw [raiseIf_pos (Nat.lt_of_not_le hsmall)]; rfl

variable (hn : S.length ≤ 2 ^ 30 - 1)
include hn

theorem TableOf.code_length_le {e : Nat × Bits} (he : e ∈ recs) : e.2.length ≤ 42 := by
  rw [h.recs_eq] at he
  obtain ⟨q, hq, rfl⟩ := List.mem_map.1 he
  refine h.coded.length_le (fun s hs => ?_) ((sum_freqOf_ftActive hS).symm ▸ hn) hq
  exact ((mem_ftActive (countsOf_sorted .nil S) A s).1 hs).2

theorem TableOf.payload_length_le : (bitsOf recs S).length ≤ 42 * S.length := by
  rw [bitsOf, List.length_flatMap]
  exact sum_map_le fun q hq => h.code_length_le hS hn (mem_codeOf ((h.mem_symbols hS q).2 hq))

theorem TableOf.recordsSize_le : recordsSize recs ≤ 11 * recs.length :=
  sum_map_le fun _ he => Nat.add_le_add_left (ceil8_mono (h.code_length_le hS hn he)) 5

/-- The guaranteed capacity (45_encoder.md R237). -/
theorem TableOf.containerSize_le :
    containerSize recs (bitsOf recs S) ≤ 24 + 11 * min S.length A + ceil8 (42 * S.length) := by
  have hrecs := h.recordsSize_le hS hn
  have hpay := ceil8_mono (h.payload_length_le hS hn)
  have hsource := h.length_le_source hS
  have halphabet := h.length_le_alphabet
  unfold containerSize
  omega

end

/-! ## ENCODE, issued and completed -/

theorem Args.sl_lt (x : Args) : x.sl < 2 ^ 32 := x.srcLen.isLt

theorem Args.dc_lt (x : Args) : x.dc < 2 ^ 32 := x.dstCap.isLt

theorem Args.n_le (x : Args) : x.n ≤ 2 ^ 30 - 1 := by
  have := x.sl_lt
  unfold Args.n
  omega

section
variable {m : Nat} {rd : Nat → Byte} {x : Args} (h : EncodeOk m rd x)
include h

theorem EncodeOk.symbol_lt : ∀ q ∈ readSymbols rd x.sa x.n, q < x.A := by
  intro q hq
  obtain ⟨i, hi, rfl⟩ := mem_readSymbols.1 hq
  exact h.symbols i hi

theorem EncodeOk.encodeRun_eq (w : Work) :
    encodeRun m rd x w = encodeSymbols x.A x.dc (readSymbols rd x.sa x.n) (beginWork w) :=
  encodeRun_symbols (not_alphabetOutside h.alphabet.1 h.alphabet.2) h.wholeWords h.regions

end

/-- What ENCODE computes from legal arguments and source words. -/
theorem TableOf.encodeRun_eq {m : Nat} {rd : Nat → Byte} {x : Args} (h : EncodeOk m rd x) {S : List Nat}
    (hS : S = readSymbols rd x.sa x.n) {tree : Tree} {codes : Codes} {recs : List (Nat × Bits)}
    (hT : TableOf x.A S tree codes recs) (w : Work) :
    encodeRun m rd x w =
      if containerSize recs (bitsOf recs S) ≤ x.dc then
        .ok { bytes := containerBytes S.length x.A recs (bitsOf recs S), resultLen := containerSize recs (bitsOf recs S),
              resultCount := S.length, payloadBits := (bitsOf recs S).length, tableEntries := recs.length }
      else raise .bounds 3 (containerSize recs (bitsOf recs S)) 0 := by
  subst hS
  exact (h.encodeRun_eq w).trans (hT.encodeSymbols_eq h.symbol_lt x.dc _)

section
variable {s : State} (h : EncodeOk s.memBytes s.mem.readByte s.args) {tree : Tree} {codes : Codes}
  {recs : List (Nat × Bits)} {S : List Nat} (hS : S = readSymbols s.mem.readByte s.args.sa s.args.n)
  (hT : TableOf s.args.A S tree codes recs)
include h hS hT

/-- The issued ENCODE delivers the container of its table, where it fits (45_encoder.md R232). -/
theorem TableOf.delivers (hfits : containerSize recs (bitsOf recs S) ≤ s.args.dc) :
    (s.accepted .encode).delivers s.args.da (containerBytes S.length s.args.A recs (bitsOf recs S)) S.length
      (bitsOf recs S).length recs.length := by
  exact State.delivers_of_ok (s := s.accepted .encode) (cmd := .encode) rfl
    ((hT.encodeRun_eq h hS s.work).trans (if_pos hfits)) (containerBytes_length _ _ _ _).symm

theorem TableOf.reports (hsmall : s.args.dc < containerSize recs (bitsOf recs S)) :
    (s.accepted .encode).reports ⟨.bounds, 3, containerSize recs (bitsOf recs S), 0⟩ := by
  exact State.reports_of_raise (cmd := .encode) rfl ((hT.encodeRun_eq h hS s.work).trans (if_neg (Nat.not_le.2 hsmall)))

end

/-- Settles O55: the table of the source's symbols, and the container ENCODE makes of it. -/
theorem encodeWritesTheContainerOfItsSymbols : Obligations.EncodeWritesTheContainerOfItsSymbols := by
  intro s S hidle h hS
  obtain ⟨tree, codes, recs, hT⟩ := exists_tableOf s.args.A S
  have hlt : ∀ q ∈ S, q < s.args.A := hS ▸ h.symbol_lt
  exact ⟨_, countsOf S [], tree, codes, recs, exec_idle hidle .encode, countPass_countsOf hlt 0 [],
    freqOf_countsOf_nil S, hT.build, hT.gen, hT.recs_eq, hT.prefixTable, hT.sorted, hT.mem_symbols hlt,
    hT.reports h hS, fun hfits => ⟨containerBytes_length _ _ _ _, hT.delivers h hS hfits⟩⟩

/-- Settles O57: the container's size is at most the guaranteed capacity. -/
theorem encodeFitsTheGuaranteedCapacity : Obligations.EncodeFitsTheGuaranteedCapacity := by
  intro s hidle h hcap
  obtain ⟨tree, codes, recs, hT⟩ := exists_tableOf s.args.A (readSymbols s.mem.readByte s.args.sa s.args.n)
  have hn := s.args.n_le
  have hsize := hT.containerSize_le h.symbol_lt (by rwa [readSymbols_length])
  rw [readSymbols_length] at hsize
  obtain ⟨u, hstep, hengine, hdone, -, -, -, hrec⟩ := hT.delivers h rfl (Nat.le_trans hsize hcap)
  refine ⟨_, u, exec_idle hidle .encode, hstep, by rw [hrec]; rfl, hengine, hdone, ?_, ?_⟩
  · rw [hrec, readSymbols_length]
    exact toNat_ofNat_of_lt (w := 64) (by omega)
  · rw [hrec, containerBytes_length]
    rw [BitVec.toNat_ofNat]
    exact Nat.le_trans (Nat.mod_le _ _) hsize

/-! ## ENCODE of no symbol and of one symbol -/

theorem pack_replicate_false (n : Nat) : pack (List.replicate n false) = List.replicate (ceil8 n) 0#8 := by
  induction n with
  | zero => rfl
  | succ n ih =>
    have hpos : (bwPutSeq (bwInit ⟨[], 0⟩) (List.replicate n false)).pos = n := by
      rw [bwPutSeq_pos, List.length_replicate]
      exact Nat.zero_add n
    have hstep : pack (List.replicate (n + 1) false) =
        if n % 8 = 0 then pack (List.replicate n false) ++ [0#8] else pack (List.replicate n false) := by
      rw [List.replicate_succ', pack, bwPutSeq_append, bwPutSeq_cons, bwPutSeq_nil, bwPut, hpos]
      rfl
    rw [hstep, ih]
    unfold ceil8
    split
    · rw [show (n + 1 + 7) / 8 = (n + 7) / 8 + 1 by omega, List.replicate_succ']
    · rw [show (n + 1 + 7) / 8 = (n + 7) / 8 by omega]

theorem containerBytes_nil (A : Nat) :
    containerBytes 0 A [] [] = leBytes 8 0 ++ leBytes 4 A ++ leBytes 4 0 ++ leBytes 8 0 := by
  simp [containerBytes, headerBytes, pack, bwInit, bwFinalize]

theorem containerBytes_single (n A q : Nat) :
    containerBytes n A [(q, [false])] (List.replicate n false) =
      leBytes 8 n ++ leBytes 4 A ++ leBytes 4 1 ++ leBytes 8 n ++ leBytes 4 q ++ [1#8, 0#8] ++
        List.replicate (ceil8 n) 0#8 := by
  have hrecord : recordBytes q [false] = leBytes 4 q ++ [1#8, 0#8] := by
    rw [recordBytes, show pack [false] = [0#8] from pack_replicate_false 1]
    simp [leBytes]
  simp [containerBytes, headerBytes, hrecord, pack_replicate_false]

/-- The table of a source with one distinct symbol (45_encoder.md R235). -/
theorem TableOf.eq_single {A : Nat} {S : List Nat} {tree : Tree} {codes : Codes} {recs : List (Nat × Bits)}
    (h : TableOf A S tree codes recs) (hS : ∀ s ∈ S, s < A) {q : Nat} (hq : ∀ s, s ∈ S ↔ s = q) :
    recs = [(q, [false])] := by
  have hactive : ftActive (countsOf S []) A = [q] := by
    refine List.perm_singleton.1 ((List.perm_ext_iff_of_nodup (ftActive_countsOf_nodup S A) (List.pairwise_singleton _ q)).2
      fun s => ?_)
    rw [mem_ftActive_countsOf hS, hq, List.mem_singleton]
  have hcoded := h.coded
  rw [h.recs_eq, hactive] at *
  cases hcoded with
  | one => simp
  | paths h2 => simp at h2

theorem TableOf.eq_nil {A : Nat} {tree : Tree} {codes : Codes} {recs : List (Nat × Bits)}
    (h : TableOf A [] tree codes recs) : recs = [] := h.recs_eq

theorem bitsOf_replicate (q n : Nat) : bitsOf [(q, [false])] (List.replicate n q) = List.replicate n false := by
  induction n with
  | zero => rfl
  | succ n ih => rw [List.replicate_succ, bitsOf_cons, ih, codeOf_single, if_pos rfl]; rfl

/-- Settles O56: the container of the empty table, and that of the table of one symbol. -/
theorem encodeOfEmptyAndOfOneSymbol : Obligations.EncodeOfEmptyAndOfOneSymbol := by
  intro s hidle h
  refine ⟨fun hsl hcap => ⟨_, exec_idle hidle .encode, ?_⟩, fun q hpos hq hcap => ⟨_, exec_idle hidle .encode, ?_⟩⟩
  · obtain ⟨tree, codes, recs, hT⟩ := exists_tableOf s.args.A []
    have hS : [] = readSymbols s.mem.readByte s.args.sa s.args.n := by simp [Args.n, hsl, readSymbols]
    have hrecs := hT.eq_nil
    subst hrecs
    have hdel := hT.delivers h hS hcap
    rwa [show bitsOf [] [] = [] from rfl, List.length_nil, containerBytes_nil] at hdel
  · have hS : List.replicate s.args.n q = readSymbols s.mem.readByte s.args.sa s.args.n := by
      refine (List.eq_replicate_iff.2 ⟨readSymbols_length _ _ _, fun r hr => ?_⟩).symm
      obtain ⟨i, hi, rfl⟩ := mem_readSymbols.1 hr
      exact hq i hi
    obtain ⟨tree, codes, recs, hT⟩ := exists_tableOf s.args.A (List.replicate s.args.n q)
    have hrecs := hT.eq_single (hS ▸ h.symbol_lt) (q := q) fun r => by simp [List.mem_replicate, Nat.ne_of_gt hpos]
    subst hrecs
    have hdel := hT.delivers h hS (by simpa [bitsOf_replicate, containerSize, recordsSize, ceil8] using hcap)
    rwa [bitsOf_replicate, List.length_replicate, List.length_replicate, containerBytes_single] at hdel

end Sys2Proof.Machine
end

section
/-! PROOFS about how the computations of ENCODE and DECODE end (60_exceptions.md R310, R311; 00_scope.md R15; 20_memory.md
R63): with a result that fits, or with an error of the table, decided by the source region alone. -/

namespace Sys2Proof.Machine

/-! ## Answers of a computation -/

/-- An error the table gives, of one of these kinds (60_exceptions.md R311). -/
def Raised.OfTable (kinds : List ErrorKind) (r : Raised) : Prop :=
  r.kind ∈ kinds ∧ r.kind.allows r.sub = true ∧ r.index < 2 ^ 64 ∧ r.value < 2 ^ 32

/-- A stop that is an error of the table, and no point that no input reaches. -/
def Stop.OfTable (kinds : List ErrorKind) : Stop → Prop
  | .raised r => r.OfTable kinds
  | .unreachable _ => False

/-- A computation answers a good value or raises an error of the table. -/
def Answers {α : Type} (kinds : List ErrorKind) (good : α → Prop) : Except Stop α → Prop
  | .ok a => good a
  | .error e => e.OfTable kinds

section
variable {α β : Type} {kinds : List ErrorKind} {good : α → Prop} {good' : β → Prop} {x : Except Stop α}

theorem Answers.of_eq_ok {a : α} (h : Answers kinds good x) (ha : x = .ok a) : good a := by rwa [ha] at h

theorem Answers.of_eq_error {e : Stop} (h : Answers kinds good x) (he : x = .error e) : e.OfTable kinds := by
  rwa [he] at h

theorem Answers.bind {f : α → Except Stop β} (h : Answers kinds good x) (hf : ∀ a, good a → Answers kinds good' (f a)) :
    Answers kinds good' (x >>= f) := by
  cases x with
  | ok a => exact hf a h
  | error e => exact h

variable {k : ErrorKind} {sub i v : Nat} (hk : k ∈ kinds) (hsub : k.allows sub = true)
include hk hsub

theorem Answers.raise (hi : i < 2 ^ 64) (hv : v < 2 ^ 32) : Answers kinds good (Machine.raise k sub i v) :=
  ⟨hk, hsub, hi, hv⟩

theorem Answers.raiseIf {bad : Prop} [Decidable bad] (hi : bad → i < 2 ^ 64) (hv : v < 2 ^ 32) :
    Answers kinds (fun _ => ¬ bad) (Machine.raiseIf bad k sub i v) := by
  by_cases hb : bad
  · rw [raiseIf_pos hb]; exact .raise hk hsub (hi hb) hv
  · rw [raiseIf_neg hb]; exact hb

end

/-! ## ENCODE -/

/-- The kinds ENCODE raises, and those DECODE raises (60_exceptions.md R310). -/
def encodeKinds : List ErrorKind := [.unknownSymbol, .config, .bounds]
def decodeKinds : List ErrorKind := [.truncatedStream, .corruptTree, .bounds]

/-- A result whose length is that of its bytes and fits the destination (45_encoder.md R232, 46_decoder.md R273). -/
structure CommandResult.Fits (out : CommandResult) (dc : Nat) : Prop where
  length : out.resultLen = out.bytes.length
  capacity : out.resultLen ≤ dc

theorem Args.A_lt (x : Args) : x.A < 2 ^ 32 := x.alphabetSize.isLt

theorem Args.sa_lt (x : Args) : x.sa < 2 ^ 32 := x.srcAddr.isLt

theorem Args.da_lt (x : Args) : x.da < 2 ^ 32 := x.dstAddr.isLt

theorem regionCheck_answers {kinds : List ErrorKind} (hk : .bounds ∈ kinds) (m : Nat) (x : Args) :
    Answers kinds (fun _ => RegionsOk m x) (regionCheck m x.sa x.sl x.da x.dc) := by
  have hsa := x.sa_lt
  have hsl := x.sl_lt
  have hda := x.da_lt
  have hdc := x.dc_lt
  have hcheck : Answers kinds (fun _ => True) (regionCheck m x.sa x.sl x.da x.dc) := by
    refine .bind (.raiseIf hk rfl (fun _ => Nat.lt_trans hsa (by decide)) hsl) fun _ _ =>
      .bind (.raiseIf hk rfl (fun _ => Nat.lt_trans hda (by decide)) hdc) fun _ _ => ?_
    by_cases h : 0 < x.sl ∧ 0 < x.dc ∧ x.sa < x.da + x.dc ∧ x.da < x.sa + x.sl
    · rw [raiseIf_pos h]; exact .raise hk rfl (Nat.lt_trans hda (by decide)) hsa
    · rw [raiseIf_neg h]; trivial
  cases h : regionCheck m x.sa x.sl x.da x.dc with
  | ok u => exact regionsOk_of_regionCheck h
  | error e => exact hcheck.of_eq_error h

theorem memRead_lt_two_pow (rd : Nat → Byte) (a : Nat) : memRead rd a 4 < 2 ^ 32 := memRead_lt rd a 4

/-- The counting pass meets no symbol outside the alphabet, or raises it (45_encoder.md R225). -/
theorem countPass_answers {A : Nat} {S : List Nat} {i : Nat} (hS : ∀ s ∈ S, s < 2 ^ 32) (hi : i + S.length < 2 ^ 64)
    (f : Freq) : Answers encodeKinds (fun _ => ∀ s ∈ S, s < A) (countPass A S i f) := by
  induction S generalizing i f with
  | nil => simp [countPass, Answers]
  | cons s S ih =>
    obtain ⟨hs, hS⟩ := List.forall_mem_cons.1 hS
    rw [List.length_cons] at hi
    rw [countPass]
    split
    next hbad => exact .raise (by decide) rfl (by omega) hs
    next hgood =>
      have hrest := ih (i := i + 1) hS (by omega) (ftCount f s)
      cases h : countPass A S (i + 1) (ftCount f s) with
      | ok f' => exact List.forall_mem_cons.2 ⟨Nat.lt_of_not_le hgood, hrest.of_eq_ok h⟩
      | error e => exact hrest.of_eq_error h

theorem encodeSymbols_answers {A dc : Nat} {S : List Nat} (hS : ∀ s ∈ S, s < 2 ^ 32) (hn : S.length ≤ 2 ^ 30 - 1)
    (w : Work) :
    Answers encodeKinds (fun out => (∀ s ∈ S, s < A) ∧ out.Fits dc) (encodeSymbols A dc S w) := by
  have hcount := countPass_answers (A := A) (i := 0) hS (by omega) (ftClear w.freq)
  cases hpass : countPass A S 0 (ftClear w.freq) with
  | error e =>
    simp only [encodeSymbols, hpass, error_bind]
    exact hcount.of_eq_error hpass
  | ok f =>
    have hlt := hcount.of_eq_ok hpass
    obtain ⟨tree, codes, recs, hT⟩ := exists_tableOf A S
    rw [hT.encodeSymbols_eq hlt]
    split
    next hfits => exact ⟨hlt, (containerBytes_length _ _ _ _).symm, hfits⟩
    next =>
      have hsize := hT.containerSize_le hlt hn
      have hpay : ceil8 (42 * S.length) ≤ 42 * S.length + 7 := Nat.div_le_self _ _
      exact .raise (by decide) rfl (by omega) (by decide)

/-- ENCODE, from any arguments and memory, finds its conditions met and its result fits, or raises an error of the
table. -/
theorem encodeRun_answers (m : Nat) (rd : Nat → Byte) (x : Args) (w : Work) :
    Answers encodeKinds (fun out => EncodeOk m rd x ∧ out.Fits x.dc) (encodeRun m rd x w) := by
  have hmax : Config.maxAlphabet = 2 ^ 24 := rfl
  refine .bind (.raiseIf (by decide) rfl (fun _ => by decide) x.A_lt) fun _ hA =>
    .bind (.raiseIf (by decide) rfl (fun _ => by decide) x.sl_lt) fun _ hsl =>
    .bind (regionCheck_answers (by decide) m x) fun _ hr => ?_
  have hsymbols := encodeSymbols_answers (A := x.A) (dc := x.dc) (S := readSymbols rd x.sa x.n)
    (fun q hq => by obtain ⟨i, -, rfl⟩ := mem_readSymbols.1 hq; exact memRead_lt_two_pow _ _)
    (by rw [readSymbols_length]; exact x.n_le) (beginWork w)
  cases h : encodeSymbols x.A x.dc (readSymbols rd x.sa x.n) (beginWork w) with
  | error e => exact hsymbols.of_eq_error h
  | ok out =>
    obtain ⟨hlt, hfits⟩ := hsymbols.of_eq_ok h
    exact ⟨⟨by omega, Decidable.not_not.1 hsl, hr, fun i hi => hlt _ (mem_readSymbols.2 ⟨i, hi, rfl⟩)⟩, hfits⟩

/-! ## DECODE -/

theorem PrefixTable.concat {A : Nat} {recs : List (Nat × Bits)} (hT : PrefixTable A recs) {s : Nat} {c : Bits}
    (hs : s < A) (hc : c ≠ []) (hnew : s ∉ recs.map (·.1)) (hcon : ¬ conflicts recs c) :
    PrefixTable A (recs ++ [(s, c)]) where
  inRange := List.forall_mem_append.2 ⟨hT.inRange, List.forall_mem_singleton.2 hs⟩
  nonEmpty := List.forall_mem_append.2 ⟨hT.nonEmpty, List.forall_mem_singleton.2 hc⟩
  distinct := List.pairwise_append.2 ⟨hT.distinct, List.pairwise_singleton _ _, fun e he => List.forall_mem_singleton.2
    fun heq => hnew (List.mem_map.2 ⟨e, he, heq⟩)⟩
  noPrefix := List.pairwise_append.2 ⟨hT.noPrefix, List.pairwise_singleton _ _, fun e he => List.forall_mem_singleton.2
    ⟨fun h => hcon ⟨e, he, .inl h⟩, fun h => hcon ⟨e, he, .inr h⟩⟩⟩

theorem prefixTable_nil (A : Nat) : PrefixTable A [] := ⟨nofun, nofun, .nil, .nil⟩

/-- The tries DECODE builds: those of the `PrefixTable` tables that fit the arena (43_code_table.md R182). -/
def TrieBuilt (A cap : Nat) (t : Trie) : Prop := ∃ recs, PrefixTable A recs ∧ trieNodes recs ≤ cap ∧ t = trieOf recs

theorem trieBuilt_init {A : Nat} : TrieBuilt A Config.decNodeCap ctTrieInit :=
  ⟨[], prefixTable_nil A, by decide, trieOf_nil.symm⟩

theorem ctTrieInsert_answers {A cap j sym : Nat} {c : Bits} {t : Trie} (ht : TrieBuilt A cap t) (hsym : sym < A)
    (hc : c ≠ []) (hj : j < 2 ^ 64) (hA : A ≤ 2 ^ 32) :
    Answers decodeKinds (TrieBuilt A cap) (ctTrieInsert cap j sym c t) := by
  obtain ⟨recs, hT, hcap, rfl⟩ := ht
  have hlt : sym < 2 ^ 32 := Nat.lt_of_lt_of_le hsym hA
  by_cases hseen : sym ∈ recs.map (·.1)
  · rw [ctTrieInsert_repeated hseen]
    exact .raise (by decide) rfl hj hlt
  by_cases hcon : conflicts recs c
  · rw [ctTrieInsert_conflict hT hc hseen hcon]
    exact .raise (by decide) rfl hj hlt
  rw [ctTrieInsert_new hT hc hseen hcon hcap]
  split
  next hfits => exact ⟨_, hT.concat hsym hc hseen hcon, hfits, rfl⟩
  next => exact .raise (by decide) rfl hj hlt

/-- The records of any container (46_decoder.md R257). -/
theorem decodeRecords_answers {rd : Nat → Byte} {sa sl A cap count j off : Nat} {t : Trie} (ht : TrieBuilt A cap t)
    (hsl : sl < 2 ^ 32) (hA : A ≤ 2 ^ 32) (hj : j + count < 2 ^ 32) (hoff : off ≤ sl) :
    Answers decodeKinds (fun r => r.1 ≤ sl ∧ TrieBuilt A cap r.2) (decodeRecords rd sa sl A cap count j off t) := by
  induction count generalizing j off t with
  | zero => exact ⟨hoff, ht⟩
  | succ count ih =>
    have hL : memRead rd (sa + off + 4) 1 < 256 := memRead_lt rd _ 1
    have hcode : ceil8 (memRead rd (sa + off + 4) 1) ≤ 256 := by unfold ceil8; omega
    have hj64 : j < 2 ^ 64 := by omega
    refine .bind (.raiseIf (by decide) rfl (fun _ => by omega) (by omega)) fun _ hhead =>
      .bind (.raiseIf (by decide) rfl (fun _ => hj64) (memRead_lt_two_pow _ _)) fun _ hsym =>
      .bind (.raiseIf (by decide) rfl (fun _ => hj64) (memRead_lt_two_pow _ _)) fun _ hlen =>
      .bind (.raiseIf (by decide) rfl (fun _ => by omega) (by omega)) fun _ hfits =>
      .bind (ctTrieInsert_answers ht (Nat.lt_of_not_le hsym) ?_ hj64 hA) fun t' ht' =>
        ih ht' (by omega) (Nat.le_of_not_lt hfits)
    simpa [unpackBits] using hlen

@[simp] theorem unpackBits_length (rd : Nat → Byte) (base L : Nat) : (unpackBits rd base L).length = L := by
  simp [unpackBits]

/-- The walk over any bits in the trie of any `PrefixTable` table: it emits the symbols it was asked for, or raises
(46_decoder.md R267 to R270). -/
theorem walkLoop_answers {rd : Nat → Byte} {base : Nat} {payload : Bits}
    (hbits : unpackBits rd base payload.length = payload) (hpayload : payload.length < 2 ^ 64) {P : List Bits}
    {recs : List (Nat × Bits)} (hP : TriePaths P recs) {sc : Nat} (hsc : sc ≤ 2 ^ 32) {p pre rest : Bits} {k : Nat}
    {out : List Nat} (hp : InnerPath P recs p) (hpay : payload = pre ++ rest) (hk : k ≤ sc) (hout : out.length = k) :
    Answers decodeKinds (fun v => v.out.length = sc)
      (walkLoop rd (trieArena P recs) sc (rest.length + 1) ⟨⟨base, payload.length, pre.length⟩, P.idxOf p, k, out⟩) := by
  induction rest generalizing p pre k out with
  | nil =>
    rcases Nat.lt_or_eq_of_le hk with hlt | rfl
    · have hend : payload.length = pre.length := by rw [hpay, List.append_nil]
      rw [walkLoop_succ hlt, hend, walkStep_exhausted]
      exact .raise (by decide) rfl (by omega) (by decide)
    · rw [walkLoop, if_neg (Nat.lt_irrefl _)]
      exact hout
  | cons b rest ih =>
    rcases Nat.lt_or_eq_of_le hk with hlt | rfl
    · have hpay' : payload = (pre ++ [b]) ++ rest := by rw [hpay, List.append_assoc, List.singleton_append]
      rw [walkLoop_succ hlt]
      by_cases hq : p ++ [b] ∈ P
      · cases hs : codeSymbol recs (p ++ [b]) with
        | none =>
          rw [walkStep_inner hbits hp hpay ⟨hq, hs⟩]
          simpa [Except.bind] using ih (pre := pre ++ [b]) ⟨hq, hs⟩ hpay' hk hout
        | some q =>
          rw [walkStep_code hbits hp hpay hq hs]
          have hroot := ih (pre := pre ++ [b]) (k := k + 1) (out := out ++ [q]) hP.root hpay' hlt (by simp [hout])
          rw [hP.rootFirst] at hroot
          simpa [Except.bind] using hroot
      · rw [walkStep_null hbits hp hpay hq]
        have hpre : pre.length ≤ payload.length := by rw [hpay, List.length_append]; exact Nat.le_add_right _ _
        exact .raise (by decide) rfl (Nat.lt_of_le_of_lt hpre hpayload) (Nat.lt_of_lt_of_le hlt hsc)
    · rw [walkLoop, if_neg (Nat.lt_irrefl _)]
      exact hout

/-- The walk of DECODE, from the root of the trie over the whole payload. -/
theorem walkLoop_trie_answers (rd : Nat → Byte) (base pb A cap sc : Nat) {t : Trie} (ht : TrieBuilt A cap t)
    (hpb : pb < 2 ^ 64) (hsc : sc ≤ 2 ^ 32) :
    Answers decodeKinds (fun v => v.out.length = sc) (walkLoop rd t.arena sc (pb + 1) ⟨⟨base, pb, 0⟩, 0, 0, []⟩) := by
  obtain ⟨recs, hT, -, rfl⟩ := ht
  have hwalk := walkLoop_answers (rd := rd) (base := base) (payload := unpackBits rd base pb) (by rw [unpackBits_length])
    (by rwa [unpackBits_length]) hT.triePaths hsc (p := []) (pre := []) (rest := unpackBits rd base pb) (k := 0)
    (out := []) hT.triePaths.root rfl (Nat.zero_le _) rfl
  rw [hT.triePaths.rootFirst] at hwalk
  simp only [unpackBits_length] at hwalk
  exact hwalk

theorem symbolBytes_length (S : List Nat) : (S.flatMap (leBytes 4)).length = 4 * S.length := by
  induction S with
  | nil => rfl
  | cons s S ih =>
    rw [List.flatMap_cons, List.length_append, ih, leBytes_length, List.length_cons, Nat.mul_succ, Nat.add_comm]

/-- What the walk over a payload leads to, where the destination has room. -/
theorem walk_result_answers {rd : Nat → Byte} {base pb A cap count k dc : Nat} {t : Trie} (ht : TrieBuilt A cap t)
    (hpb : pb < 2 ^ 64) (hcap : 4 * count ≤ dc) (hdc : dc < 2 ^ 32) :
    Answers decodeKinds (CommandResult.Fits · dc)
      (walkLoop rd t.arena count (pb + 1) ⟨⟨base, pb, 0⟩, 0, 0, []⟩ >>= fun v =>
        .ok (CommandResult.mk (v.out.flatMap (leBytes 4)) (4 * count) count v.br.pos k)) := by
  refine (walkLoop_trie_answers rd base pb A cap count ht hpb (by omega)).bind fun v hv => ⟨?_, hcap⟩
  rw [symbolBytes_length, hv]

theorem decodeContainer_answers {rd : Nat → Byte} {sa sl dc : Nat} (hsl : sl < 2 ^ 32) (hdc : dc < 2 ^ 32) (w : Work) :
    Answers decodeKinds (fun out => out.Fits dc) (decodeContainer rd sa sl dc w) := by
  by_cases hfit : sl < 24
  · rw [decodeContainer_short hfit]
    exact .raise (by decide) rfl (by decide) (by decide)
  have hfit := Nat.le_of_not_lt hfit
  by_cases hA : memRead rd (sa + 8) 4 = 0 ∨ memRead rd (sa + 8) 4 > Config.maxAlphabet
  · rw [decodeContainer_alphabet hfit hA]
    exact .raise (by decide) rfl (by decide) (memRead_lt_two_pow _ _)
  by_cases hk : memRead rd (sa + 8) 4 < memRead rd (sa + 12) 4
  · rw [decodeContainer_entries hfit hA hk]
    exact .raise (by decide) rfl (by decide) (memRead_lt_two_pow _ _)
  have hH : HeaderOk rd sa sl _ (memRead rd (sa + 8) 4) (memRead rd (sa + 12) 4) _ :=
    ⟨hfit, rfl, rfl, hA, rfl, Nat.le_of_not_lt hk, rfl⟩
  have hcount := memRead_lt_two_pow rd (sa + 12)
  have hrecords := decodeRecords_answers (rd := rd) (sa := sa) (j := 0) (off := 24)
    (A := memRead rd (sa + 8) 4) (count := memRead rd (sa + 12) 4) (cap := Config.decNodeCap) trieBuilt_init hsl
    (Nat.le_of_lt (memRead_lt_two_pow _ _)) (by omega) hfit
  cases hrec : decodeRecords rd sa sl (memRead rd (sa + 8) 4) Config.decNodeCap (memRead rd (sa + 12) 4) 0 24
    ctTrieInit with
  | error e =>
    rw [decodeContainer_records hH hrec]
    exact hrecords.of_eq_error hrec
  | ok r =>
    obtain ⟨off, t⟩ := r
    obtain ⟨hoff, ht⟩ := hrecords.of_eq_ok hrec
    have hpb : memRead rd (sa + 16) 8 < 2 ^ 64 := memRead_lt rd _ 8
    by_cases hpay : sl < off + ceil8 (memRead rd (sa + 16) 8)
    · rw [decodeContainer_shortPayload hH hrec hpay]
      have hpb8 : ceil8 (memRead rd (sa + 16) 8) ≤ 2 ^ 61 := by unfold ceil8; omega
      exact .raise (by decide) rfl (by omega) (by decide)
    have hpay := Nat.le_of_not_lt hpay
    by_cases hcap : dc < 4 * memRead rd sa 8
    · rw [decodeContainer_smallDestination hH hrec hpay hcap]
      exact .raise (by decide) rfl (Nat.lt_of_le_of_lt (Nat.min_le_right _ _) (by decide)) (by decide)
    have hcap := Nat.le_of_not_lt hcap
    rw [decodeContainer_walk hH hrec hpay hcap]
    generalize memRead rd sa 8 = count at hcap ⊢
    exact walk_result_answers ht hpb hcap hdc

/-- DECODE, from any arguments and memory, gives a result that fits or raises an error of the table. -/
theorem decodeRun_answers (m : Nat) (rd : Nat → Byte) (x : Args) (w : Work) :
    Answers decodeKinds (fun out => RegionsOk m x ∧ out.Fits x.dc) (decodeRun m rd x w) := by
  refine .bind (regionCheck_answers (by decide) m x) fun _ hr => ?_
  have hcontainer := decodeContainer_answers (rd := rd) (sa := x.sa) x.sl_lt x.dc_lt (beginWork w)
  cases h : decodeContainer rd x.sa x.sl x.dc (beginWork w) with
  | ok out => exact ⟨hr, hcontainer.of_eq_ok h⟩
  | error e => exact hcontainer.of_eq_error h

/-- Settles O38: both commands answer a result or an error of the table. -/
theorem commandsRaiseOnlyErrorsOfTheTable : Obligations.CommandsRaiseOnlyErrorsOfTheTable :=
  ⟨fun m rd x w _ h => (encodeRun_answers m rd x w).of_eq_error h,
    fun m rd x w _ h => (decodeRun_answers m rd x w).of_eq_error h⟩

/-! ## No fault -/

/-- The computation of a running command gives a result that fits, or raises an error of the table. -/
theorem State.commandResult_answers (s : State) (cmd : LongCmd) (x : Args) :
    Answers (encodeKinds ++ decodeKinds) (fun out => RegionsOk s.memBytes x ∧ out.Fits x.dc) (s.commandResult cmd x) := by
  have widen {kinds : List ErrorKind} {r : Except Stop CommandResult} {good : CommandResult → Prop}
      (h : Answers kinds good r) (hk : ∀ k ∈ kinds, k ∈ encodeKinds ++ decodeKinds)
      (hg : ∀ out, good out → RegionsOk s.memBytes x ∧ out.Fits x.dc) :
      Answers (encodeKinds ++ decodeKinds) (fun out => RegionsOk s.memBytes x ∧ out.Fits x.dc) r := by
    match r, h with
    | .ok out, h => exact hg out h
    | .error (.raised _), ⟨hkind, h⟩ => exact ⟨hk _ hkind, h⟩
  cases cmd with
  | encode => exact widen (encodeRun_answers _ _ x s.work) (by decide) fun out h => ⟨h.1.regions, h.2⟩
  | decode => exact widen (decodeRun_answers _ _ x s.work) (by decide) fun out h => h

theorem engineStep_next (s : State) : ∃ t, engineStep s = .next t := by
  cases he : s.engine with
  | idle => exact ⟨s, engineStep_idle he⟩
  | busy cmd x =>
    rw [engineStep_busy he]
    have h := s.commandResult_answers cmd x
    match s.commandResult cmd x, h with
    | .ok out, _ => exact ⟨_, rfl⟩
    | .error (.raised e), _ => exact ⟨_, rfl⟩

theorem csrWriteTo_next (n : CsrName) (w : Word) (s : State) : ∃ t, csrWriteTo n w s = .next t := by
  cases n
  case cmd => exact cmdWrite_next w s
  all_goals exact ⟨_, rfl⟩

/-- An event answers a next state, but for a host access inside a latched region, which is refused (20_memory.md R72). -/
theorem runEvent_next (e : Event) (s : State) : (∃ t, runEvent e s = .next t) ∨
    ∃ a, (e = .memRead a ∨ ∃ v, e = .memWrite a v) ∧ a.toNat < s.memBytes ∧ s.latchedRegion a.toNat = true ∧
      runEvent e s = .refused (.hostTouchedLatchedRegion a) := by
  cases e with
  | csrRead off => exact .inl ⟨_, rfl⟩
  | csrWrite off w =>
    cases hoff : csrAt off with
    | none => exact .inl ⟨s, runEvent_csrWrite_unlisted hoff w s⟩
    | some n => rw [runEvent_csrWrite_listed hoff]; exact .inl (csrWriteTo_next n w s)
  | memRead a =>
    by_cases hm : s.memBytes ≤ a.toNat
    · exact .inl ⟨_, if_pos hm⟩
    cases hl : s.latchedRegion a.toNat with
    | false => exact .inl ⟨_, (if_neg hm).trans (if_neg (by simp [hl]))⟩
    | true => exact .inr ⟨a, .inl rfl, Nat.lt_of_not_le hm, hl, (if_neg hm).trans (if_pos hl)⟩
  | memWrite a v =>
    by_cases hm : s.memBytes ≤ a.toNat
    · exact .inl ⟨_, if_pos hm⟩
    cases hl : s.latchedRegion a.toNat with
    | false => exact .inl ⟨_, (if_neg hm).trans (if_neg (by simp [hl]))⟩
    | true => exact .inr ⟨a, .inr ⟨v, rfl⟩, Nat.lt_of_not_le hm, hl, (if_neg hm).trans (if_pos hl)⟩
  | hwReset => exact .inl ⟨_, rfl⟩
  | engineSlot => exact .inl (engineStep_next s)

theorem step_ne_fault (s : State) (f : Fault) : step s ≠ .fault f := by
  intro h
  cases hin : s.inputs with
  | nil =>
    obtain ⟨t, ht⟩ := engineStep_next s
    cases ht.symm.trans ((step_nil hin).symm.trans h)
  | cons e rest =>
    rw [step_cons hin] at h
    rcases runEvent_next e { s with inputs := rest } with ⟨t, ht⟩ | ⟨a, -, -, -, hr⟩
    · cases ht.symm.trans h
    · cases hr.symm.trans h

theorem run_ne_fault (k : Nat) (s : State) (f : Fault) : Sys2Proof.core.run k s ≠ .fault f := by
  induction k generalizing s with
  | zero => exact nofun
  | succ k ih =>
    intro h
    simp only [Host.Core.run] at h
    cases hstep : step s with
    | next t => exact ih t (by rwa [show Sys2Proof.core.step s = .next t from hstep] at h)
    | fault g => exact step_ne_fault s g hstep
    | refused r => rw [show Sys2Proof.core.step s = .refused r from hstep] at h; cases h

/-- Settles O28: the engine's step answers, whatever the arguments, the memory and the working state. -/
theorem noStepReachesAnUnreachablePoint : Obligations.NoStepReachesAnUnreachablePoint :=
  ⟨step_ne_fault, fun _ s k _ => run_ne_fault k s⟩

end Sys2Proof.Machine
end

section
/-! PROOFS that ENCODE and DECODE read the source region alone (20_memory.md R63). -/

namespace Sys2Proof.Machine

/-! ## Computations that agree on what they read -/

/-- A check and what follows it, where that agrees once the check has passed. -/
theorem raiseIf_bind_congr {α : Type} {bad : Prop} [Decidable bad] {k : ErrorKind} {s i v : Nat}
    {f g : Unit → Except Stop α} (h : ¬ bad → f () = g ()) :
    (raiseIf bad k s i v >>= f) = (raiseIf bad k s i v >>= g) := by
  by_cases hb : bad
  · rw [raiseIf_pos hb]; rfl
  · rw [raiseIf_neg hb]; exact h hb

/-- The two memories agree on [sa, sa + sl). -/
def SameSource (rd rd' : Nat → Byte) (sa sl : Nat) : Prop := ∀ a, sa ≤ a → a < sa + sl → rd a = rd' a

section
variable {rd rd' : Nat → Byte} {sa sl : Nat} (h : SameSource rd rd' sa sl)
include h

theorem SameSource.memRead_eq {off n : Nat} (hn : off + n ≤ sl) : memRead rd (sa + off) n = memRead rd' (sa + off) n :=
  memRead_congr fun o ho => h _ (by omega) (by omega)

theorem SameSource.packedBit_eq {off L i : Nat} (hL : off + ceil8 L ≤ sl) (hi : i < L) :
    packedBit rd (sa + off) i = packedBit rd' (sa + off) i := by
  unfold ceil8 at hL
  rw [packedBit, packedBit, h _ (by omega) (by omega)]

theorem SameSource.unpackBits_eq {off L : Nat} (hL : off + ceil8 L ≤ sl) :
    unpackBits rd (sa + off) L = unpackBits rd' (sa + off) L :=
  List.map_congr_left fun _ hi => h.packedBit_eq hL (List.mem_range.1 hi)

theorem SameSource.readSymbols_eq : readSymbols rd sa (sl / 4) = readSymbols rd' sa (sl / 4) := by
  refine List.map_congr_left fun i hi => h.memRead_eq ?_
  have := List.mem_range.1 hi
  simp only [Config.symBytes_eq]
  omega

theorem SameSource.decodeRecords_eq {A cap count j off : Nat} {t : Trie} :
    decodeRecords rd sa sl A cap count j off t = decodeRecords rd' sa sl A cap count j off t := by
  induction count generalizing j off t with
  | zero => rfl
  | succ count ih =>
    refine raiseIf_bind_congr fun hhead => ?_
    have hsym : memRead rd (sa + off) Config.symBytes = memRead rd' (sa + off) Config.symBytes :=
      h.memRead_eq (n := 4) (by omega)
    have hlen : memRead rd (sa + off + 4) 1 = memRead rd' (sa + off + 4) 1 := h.memRead_eq (off := off + 4) (by omega)
    simp only [hsym, hlen]
    refine raiseIf_bind_congr fun _ => raiseIf_bind_congr fun _ => raiseIf_bind_congr fun hfits => ?_
    rw [Nat.add_assoc sa off 5, h.unpackBits_eq (Nat.le_of_not_lt hfits)]
    exact congrArg _ (funext fun t' => ih)

end

/-- The bits of a packed sequence of n bits agree. -/
def SameBits (rd rd' : Nat → Byte) (base n : Nat) : Prop := ∀ i < n, packedBit rd base i = packedBit rd' base i

section
variable {rd rd' : Nat → Byte} {base n : Nat} (h : SameBits rd rd' base n)
include h

/-- One round reads one bit and keeps the reader's range. -/
theorem SameBits.walkStep_eq (arena : List Node) {v : Walk} (hb : v.br.base = base) (hn : v.br.nbits = n) :
    walkStep rd arena v = walkStep rd' arena v := by
  refine raiseIf_bind_congr fun hav => ?_
  have hpos : v.br.pos < n := by simp only [brAvailable] at hav; omega
  have hget : brGet rd v.br = brGet rd' v.br := by
    obtain ⟨⟨_, _, pos⟩, _, _, _⟩ := v
    subst hb hn
    rw [brGet_of_lt hpos, brGet_of_lt hpos, h pos hpos]
  simp only [hget]

omit h in
theorem brGet_keepsRange {r r' : BitReader} {b : Bool} (hget : brGet rd r = .ok (b, r')) :
    r'.base = r.base ∧ r'.nbits = r.nbits := by
  unfold brGet at hget
  split at hget
  · cases hget
  · cases hget; exact ⟨rfl, rfl⟩

omit h in
theorem walkStep_keepsRange {arena : List Node} {v v' : Walk} (hstep : walkStep rd arena v = .ok v') :
    v'.br.base = v.br.base ∧ v'.br.nbits = v.br.nbits := by
  obtain ⟨-, -, hstep⟩ := bind_eq_ok.1 hstep
  obtain ⟨⟨b, br⟩, hget, hstep⟩ := bind_eq_ok.1 hstep
  obtain ⟨next, -, hstep⟩ := bind_eq_ok.1 hstep
  have hrange := brGet_keepsRange hget
  split at hstep
  · exact absurd hstep (raise_ne_ok _ _ _ _ _)
  · split at hstep <;> cases hstep <;> exact hrange

theorem SameBits.walkLoop_eq (arena : List Node) (sc fuel : Nat) {v : Walk} (hb : v.br.base = base)
    (hn : v.br.nbits = n) : walkLoop rd arena sc fuel v = walkLoop rd' arena sc fuel v := by
  induction fuel generalizing v with
  | zero => rfl
  | succ fuel ih =>
    by_cases hmore : v.emitted < sc
    · rw [walkLoop_succ hmore, walkLoop_succ hmore, ← h.walkStep_eq arena hb hn]
      cases hstep : walkStep rd arena v with
      | error e => rfl
      | ok v' =>
        obtain ⟨hb', hn'⟩ := walkStep_keepsRange hstep
        exact ih (hb'.trans hb) (hn'.trans hn)
    · rw [walkLoop, walkLoop, if_neg hmore, if_neg hmore]

end

section
variable {rd rd' : Nat → Byte} {sa sl : Nat} (h : SameSource rd rd' sa sl)
include h

theorem SameSource.decodeContainer_eq (dc : Nat) (w : Work) :
    decodeContainer rd sa sl dc w = decodeContainer rd' sa sl dc w := by
  refine raiseIf_bind_congr fun hfit => ?_
  have hfit := Nat.le_of_not_lt hfit
  have hsc : memRead rd sa Config.countBytes = memRead rd' sa Config.countBytes :=
    h.memRead_eq (off := 0) (n := 8) (by omega)
  have hA : memRead rd (sa + 8) 4 = memRead rd' (sa + 8) 4 := h.memRead_eq (by omega)
  have htc : memRead rd (sa + 12) 4 = memRead rd' (sa + 12) 4 := h.memRead_eq (by omega)
  have hpb : memRead rd (sa + 16) Config.countBytes = memRead rd' (sa + 16) Config.countBytes :=
    h.memRead_eq (n := 8) (by omega)
  simp only [hsc, hA, htc, hpb, h.decodeRecords_eq]
  refine raiseIf_bind_congr fun _ => raiseIf_bind_congr fun _ => congrArg _ (funext fun ⟨off, t⟩ =>
    raiseIf_bind_congr fun hpay => raiseIf_bind_congr fun _ => ?_)
  have hbits : SameBits rd rd' (sa + off) (memRead rd' (sa + 16) Config.countBytes) := fun i hi =>
    h.packedBit_eq (Nat.le_of_not_lt hpay) hi
  rw [hbits.walkLoop_eq]
  · rfl
  · rfl

end

/-- Settles O54: the source words, and every byte of the container that is read before a check refuses it, lie in the
source region. -/
theorem commandsReadOnlyTheSourceRegion : Obligations.CommandsReadOnlyTheSourceRegion := by
  intro m rd rd' x w h
  have hsource : SameSource rd rd' x.sa x.sl := fun a h1 h2 => h a (by simp [inRegion, h1, h2])
  refine ⟨?_, ?_⟩
  · simp only [encodeRun, Args.n, hsource.readSymbols_eq]
  · simp only [decodeRun, hsource.decodeContainer_eq]

end Sys2Proof.Machine
end

section
/-! PROOFS of DECODE's success (46_decoder.md R251 to R277): the symbols of a container, and the container ENCODE wrote. -/

namespace Sys2Proof.Machine

/-! ## A container decodes to its symbols -/

/-- The walk ends when it has emitted what it was asked for (46_decoder.md R270). -/
theorem walkLoop_done {rd : Nat → Byte} {arena : List Node} {sc : Nat} {v : Walk} (h : sc ≤ v.emitted) (n : Nat) :
    walkLoop rd arena sc n v = .ok v := by
  cases n <;> simp [walkLoop, Nat.not_lt.2 h]

/-- A container DECODE accepts: its table a `PrefixTable` that fits the trie, its payload beginning with the codes of S
(46_decoder.md R251). -/
structure Decodable (rd : Nat → Byte) (sa sl dc A : Nat) (recs : List (Nat × Bits)) (payload : Bits) (S : List Nat) :
    Prop where
  container : ContainerAt rd sa S.length A recs payload
  fits : containerSize recs payload ≤ sl
  alphabet : 1 ≤ A ∧ A ≤ 2 ^ 24
  entries : recs.length ≤ A
  table : PrefixTable A recs
  nodes : trieNodes recs ≤ 2 ^ 25
  symbols : ∀ q ∈ S, q ∈ recs.map (·.1)
  codes : bitsOf recs S <+: payload
  room : 4 * S.length ≤ dc

/-- What DECODE computes from such a container (46_decoder.md R267 to R273). -/
theorem Decodable.decodeContainer_eq {rd : Nat → Byte} {sa sl dc A : Nat} {recs : List (Nat × Bits)} {payload : Bits}
    {S : List Nat} (h : Decodable rd sa sl dc A recs payload S) (w : Work) :
    decodeContainer rd sa sl dc w =
      .ok (CommandResult.mk (S.flatMap (leBytes 4)) (4 * S.length) S.length (bitsOf recs S).length recs.length) := by
  obtain ⟨⟨hn, hA, hk, hB, hat, hbits⟩, hsize, ⟨hA1, hA2⟩, hkA, hT, hcap, hmem, ⟨rest, hrest⟩, hroom⟩ := h
  unfold containerSize at hsize
  rw [Nat.add_assoc] at hbits
  have hH : HeaderOk rd sa sl S.length A recs.length payload.length :=
    ⟨by omega, hn, hA, not_alphabetOutside hA1 hA2, hk, hkA, hB⟩
  have hrec := decodeRecords_table hT hat (Nat.le_trans (Nat.le_add_right _ _) hsize) hcap
  have hwalk := walkLoop_codes hbits hT hmem (pre := []) (rest := rest) (sc := S.length) (k := 0) (out := [])
    (by rw [List.nil_append, hrest]) (Nat.le_of_eq (Nat.zero_add _))
  have hdone := hwalk.trans (walkLoop_done (Nat.le_of_eq (Nat.zero_add _).symm) _)
  simp only [hrest, List.length_nil, List.nil_append, Nat.zero_add] at hdone
  rw [decodeContainer_walk hH hrec hsize hroom, hdone]
  rfl

/-- The issued DECODE delivers the symbols of such a container (46_decoder.md R273). -/
theorem Decodable.delivers {s : State} {A : Nat} {recs : List (Nat × Bits)} {payload : Bits} {S : List Nat}
    (h : Decodable s.mem.readByte s.args.sa s.args.sl s.args.dc A recs payload S) (hr : RegionsOk s.memBytes s.args) :
    (s.accepted .decode).delivers s.args.da (S.flatMap (leBytes 4)) S.length (bitsOf recs S).length recs.length :=
  State.delivers_of_ok (s := s.accepted .decode) (cmd := .decode) rfl
    ((decodeRun_container hr).trans (h.decodeContainer_eq (beginWork s.work))) (symbolBytes_length S).symm

/-- Settles O58: the walk reads the codes of S and stops. -/
theorem decodeWritesTheSymbolsOfAContainer : Obligations.DecodeWritesTheSymbolsOfAContainer := by
  intro s A recs payload S hidle hr hC hsize hA1 hA2 hkA hT hcap hmem hcodes hroom
  have h : Decodable s.mem.readByte s.args.sa s.args.sl s.args.dc A recs payload S :=
    ⟨hC, hsize, ⟨hA1, hA2⟩, hkA, hT, hcap, hmem, hcodes, hroom⟩
  exact ⟨_, exec_idle hidle .decode, h.delivers hr⟩

/-! ## The bytes of a container in memory -/

theorem getD_append_of_lt {α : Type} {xs ys : List α} {i : Nat} (h : i < xs.length) (d : α) :
    (xs ++ ys).getD i d = xs.getD i d := by
  rw [List.getD_eq_getElem?_getD, List.getElem?_append_left h, List.getD_eq_getElem?_getD]

theorem getD_append_of_le {α : Type} {xs ys : List α} {i : Nat} (h : xs.length ≤ i) (d : α) :
    (xs ++ ys).getD i d = ys.getD (i - xs.length) d := by
  rw [List.getD_eq_getElem?_getD, List.getElem?_append_right h, List.getD_eq_getElem?_getD]

theorem bytesAt_append {rd : Nat → Byte} {a : Nat} {xs ys : List Byte} :
    bytesAt rd a (xs ++ ys) ↔ bytesAt rd a xs ∧ bytesAt rd (a + xs.length) ys := by
  constructor
  · refine fun h => ⟨fun o ho => ?_, fun o ho => ?_⟩
    · rw [h o (by rw [List.length_append]; omega), getD_append_of_lt ho]
    · rw [Nat.add_assoc, h (xs.length + o) (by rw [List.length_append]; omega),
        getD_append_of_le (Nat.le_add_right _ _), Nat.add_sub_cancel_left]
  · rintro ⟨hx, hy⟩ o ho
    rw [List.length_append] at ho
    rcases Nat.lt_or_ge o xs.length with hlt | hge
    · rw [hx o hlt, getD_append_of_lt hlt]
    · rw [getD_append_of_le hge, ← hy _ (by omega)]
      congr 1
      omega

theorem memRead_of_bytesAt {rd : Nat → Byte} {a n v : Nat} (h : bytesAt rd a (leBytes n v)) (hv : v < 256 ^ n) :
    memRead rd a n = v := (memRead_of_leBytes h).trans (Nat.mod_eq_of_lt hv)

/-- Packed bytes in memory unpack to their bits (44_bitstream.md R212). -/
theorem unpackBits_of_bytesAt {rd : Nat → Byte} {a : Nat} {c : Bits} (h : bytesAt rd a (pack c)) :
    unpackBits rd a c.length = c := by
  refine List.ext_getElem (unpackBits_length _ _ _) fun i _ hi => ?_
  simp only [unpackBits, List.getElem_map, List.getElem_range]
  rw [(bwPutSeq_init_holds ⟨[], 0⟩ c).packedBit_eq h hi, List.getD_eq_getElem?_getD, List.getElem?_eq_getElem hi]
  rfl

/-- Records whose numbers fit their fields lie in memory where their bytes do (30_encoding.md R98). -/
theorem recordsAt_of_bytesAt {rd : Nat → Byte} {a : Nat} {recs : List (Nat × Bits)}
    (hsym : ∀ e ∈ recs, e.1 < 2 ^ 32) (hlen : ∀ e ∈ recs, e.2.length < 256)
    (h : bytesAt rd a (recs.flatMap fun e => recordBytes e.1 e.2)) : recordsAt rd a recs := by
  induction recs generalizing a with
  | nil => trivial
  | cons e recs ih =>
    obtain ⟨s, c⟩ := e
    obtain ⟨hs, hsym⟩ := List.forall_mem_cons.1 hsym
    obtain ⟨hc, hlen⟩ := List.forall_mem_cons.1 hlen
    rw [List.flatMap_cons, bytesAt_append, recordBytes_length] at h
    obtain ⟨hrec, hrest⟩ := h
    rw [recordBytes, bytesAt_append, bytesAt_append] at hrec
    obtain ⟨⟨hS, hL⟩, hC⟩ := hrec
    rw [List.length_append, leBytes_length, leBytes_length] at hC
    rw [leBytes_length] at hL
    exact ⟨memRead_of_bytesAt hS hs, memRead_of_bytesAt hL hc, unpackBits_of_bytesAt hC,
      ih hsym hlen (by rwa [Nat.add_assoc])⟩

/-- A container whose numbers fit their fields lies in memory where its bytes do (30_encoding.md R95 to R101). -/
theorem containerAt_of_bytesAt {rd : Nat → Byte} {a n A : Nat} {recs : List (Nat × Bits)} {payload : Bits}
    (hn : n < 2 ^ 64) (hA : A < 2 ^ 32) (hk : recs.length < 2 ^ 32) (hB : payload.length < 2 ^ 64)
    (hsym : ∀ e ∈ recs, e.1 < 2 ^ 32) (hlen : ∀ e ∈ recs, e.2.length < 256)
    (h : bytesAt rd a (containerBytes n A recs payload)) : ContainerAt rd a n A recs payload := by
  rw [containerBytes, bytesAt_append, bytesAt_append, List.length_append, headerBytes_length, records_length,
    headerBytes, bytesAt_append, bytesAt_append, bytesAt_append] at h
  obtain ⟨⟨⟨⟨⟨hsc, has⟩, htc⟩, hpb⟩, hrecs⟩, hpay⟩ := h
  simp only [List.length_append, leBytes_length] at has htc hpb
  exact ⟨memRead_of_bytesAt hsc hn, memRead_of_bytesAt has hA, memRead_of_bytesAt htc hk, memRead_of_bytesAt hpb hB,
    recordsAt_of_bytesAt hsym hlen hrecs, unpackBits_of_bytesAt (by rwa [Nat.add_assoc])⟩

/-! ## The trie of a Huffman code -/

/-- A Huffman code's trie has at most one node for each node of the tree, and with a single code two nodes, so it fits
DEC_NODE_CAP (43_code_table.md R182). -/
theorem TableOf.trieNodes_le {A : Nat} {S : List Nat} {tree : Tree} {codes : Codes} {recs : List (Nat × Bits)}
    (h : TableOf A S tree codes recs) : trieNodes recs ≤ max 1 (2 * recs.length) := by
  have hcoded := h.coded
  have hlen := h.length
  have hrecs := h.recs_eq
  generalize ftActive (countsOf S []) A = active at hcoded hlen hrecs
  cases hcoded with
  | none => rw [hrecs]; decide
  | one s arena root =>
    rw [hrecs, List.map_singleton, codeOf_single, if_pos rfl]
    exact Nat.le_refl 2
  | @paths active arena root codes h2 H hc =>
    have hreach : ∀ p ∈ triePaths recs, ∃ j, indexAt arena root p = some j ∧ j < arena.length := by
      intro p hp
      rcases mem_triePaths.1 hp with rfl | ⟨e, he, hpe⟩
      · exact ⟨root, rfl, H.root_lt⟩
      · rw [hrecs] at he
        obtain ⟨q, hq, rfl⟩ := List.mem_map.1 he
        obtain ⟨rest, hrest⟩ := hpe
        obtain ⟨j, hj, -⟩ := nodeAt_eq_some.1 (hc.path q hq)
        rw [show codeOf codes q = p ++ rest from hrest.symm, indexAt_append] at hj
        obtain ⟨m, hm, -⟩ := Option.bind_eq_some_iff.1 hj
        exact ⟨m, hm, Nat.lt_of_le_of_lt (H.indexAt_le hm) H.root_lt⟩
    have hsub : (triePaths recs).map (fun p => (indexAt arena root p).getD 0) ⊆ List.range arena.length := by
      intro j hj
      obtain ⟨p, hp, rfl⟩ := List.mem_map.1 hj
      obtain ⟨j, hj, hlt⟩ := hreach p hp
      simpa [hj] using hlt
    have hnd : ((triePaths recs).map fun p => (indexAt arena root p).getD 0).Nodup := by
      refine List.pairwise_map.2 (h.prefixTable.triePaths.nodup.imp_of_mem fun {p q} hp hq hne heq => hne ?_)
      obtain ⟨i, hi, -⟩ := hreach p hp
      obtain ⟨j, hj, -⟩ := hreach q hq
      rw [hi, hj, Option.getD_some, Option.getD_some] at heq
      exact H.path_unique hi (heq ▸ hj)
    have hle := hnd.length_le_of_subset hsub
    rw [List.length_map, triePaths_length, List.length_range, H.length] at hle
    omega

/-! ## DECODE after ENCODE -/

/-- A successful ENCODE met its conditions and wrote the container of its table (45_encoder.md R232). -/
theorem exists_tableOf_of_encode {s u : State} (hstep : engineStep (s.accepted .encode) = .next u)
    (hok : u.record.errCode = .none) :
    EncodeOk s.memBytes s.mem.readByte s.args ∧ ∃ S tree codes recs,
      S = readSymbols s.mem.readByte s.args.sa s.args.n ∧ TableOf s.args.A S tree codes recs ∧
      containerSize recs (bitsOf recs S) ≤ s.args.dc ∧
      (s.accepted .encode).delivers s.args.da (containerBytes S.length s.args.A recs (bitsOf recs S)) S.length
        (bitsOf recs S).length recs.length := by
  have hrun := encodeRun_answers s.memBytes s.mem.readByte s.args s.work
  obtain ⟨hidle, -⟩ | ⟨cmd, x, hb, hend⟩ := engineStep_eq_next hstep
  · cases hidle
  cases hb
  obtain ⟨out, hres, -⟩ | ⟨e, hres, rfl⟩ := hend
  · obtain ⟨h, -, -⟩ := hrun.of_eq_ok hres
    obtain ⟨tree, codes, recs, hT⟩ := exists_tableOf s.args.A (readSymbols s.mem.readByte s.args.sa s.args.n)
    have hfits : containerSize recs (bitsOf recs (readSymbols s.mem.readByte s.args.sa s.args.n)) ≤ s.args.dc := by
      refine Nat.not_lt.1 fun hsmall => ?_
      cases ((hT.encodeRun_eq h rfl s.work).trans (if_neg (Nat.not_le.2 hsmall))).symm.trans hres
    exact ⟨h, _, tree, codes, recs, rfl, hT, hfits, hT.delivers h rfl hfits⟩
  · have hkind : e.kind ∈ encodeKinds := (hrun.of_eq_error hres).1
    rw [show e.kind = .none from hok] at hkind
    exact absurd hkind (by decide)

/-- The source words written back are the source's bytes (20_memory.md R61). -/
theorem leBytes_memRead (rd : Nat → Byte) (a n : Nat) : bytesAt rd a (leBytes n (memRead rd a n)) := by
  induction n generalizing a with
  | zero => exact fun o ho => absurd ho (Nat.not_lt_zero _)
  | succ n ih =>
    have hbyte := (rd a).isLt
    have hhead : BitVec.ofNat 8 (memRead rd a (n + 1)) = rd a := by
      refine BitVec.eq_of_toNat_eq ?_
      rw [BitVec.toNat_ofNat, memRead]
      omega
    have hrest : memRead rd a (n + 1) / 256 = memRead rd (a + 1) n := by rw [memRead]; omega
    rw [leBytes, hhead, hrest, ← List.singleton_append]
    refine bytesAt_append.2 ⟨fun o ho => ?_, ih (a + 1)⟩
    obtain rfl : o = 0 := by simpa using ho
    rfl

theorem bytesAt_readSymbols (rd : Nat → Byte) (a n : Nat) : bytesAt rd a ((readSymbols rd a n).flatMap (leBytes 4)) := by
  induction n generalizing a with
  | zero => exact fun o ho => absurd ho (Nat.not_lt_zero _)
  | succ n ih =>
    rw [readSymbols_succ, List.flatMap_cons]
    exact bytesAt_append.2 ⟨leBytes_memRead rd a 4, by rw [leBytes_length]; exact ih (a + 4)⟩

theorem bytesAt_congr {rd rd' : Nat → Byte} {a : Nat} {bs : List Byte} (h : bytesAt rd a bs)
    (hsame : ∀ o < bs.length, rd' (a + o) = rd (a + o)) : bytesAt rd' a bs :=
  fun o ho => (hsame o ho).trans (h o ho)

/-- Where the container ENCODE wrote lies in memory, DECODE accepts it (46_decoder.md R277). -/
theorem TableOf.decodable {A : Nat} {S : List Nat} {tree : Tree} {codes : Codes} {recs : List (Nat × Bits)}
    (h : TableOf A S tree codes recs) (hS : ∀ q ∈ S, q < A) (hn : S.length ≤ 2 ^ 30 - 1) (hA1 : 1 ≤ A)
    (hA2 : A ≤ 2 ^ 24) {rd : Nat → Byte} {a dc : Nat} (hroom : 4 * S.length ≤ dc)
    (hbytes : bytesAt rd a (containerBytes S.length A recs (bitsOf recs S))) :
    Decodable rd a (containerSize recs (bitsOf recs S)) dc A recs (bitsOf recs S) S := by
  have hk := h.length_le_alphabet
  have hpay := h.payload_length_le hS hn
  have hnodes := h.trieNodes_le
  have hcount := h.length_le_source hS
  have hC : ContainerAt rd a S.length A recs (bitsOf recs S) :=
    containerAt_of_bytesAt (by omega) (by omega) (by omega) (by omega)
      (fun e he => Nat.lt_of_lt_of_le (h.prefixTable.inRange e he) (by omega))
      (fun e he => Nat.lt_of_le_of_lt (h.code_length_le hS hn he) (by decide)) hbytes
  exact ⟨hC, Nat.le_refl _, ⟨hA1, hA2⟩, hk, h.prefixTable, by omega, fun q hq => (h.mem_symbols hS q).2 hq,
    List.prefix_rfl, hroom⟩

/-- Settles O59: the container of the source's table decodes to the source's symbols, whose bytes are the source's. -/
theorem decodeAfterEncodeGivesBackTheSource : Obligations.DecodeAfterEncodeGivesBackTheSource := by
  intro s t u v hidle hexec hstep hok hvidle hmem hsame hsa hsl hregions hroom
  cases (exec_idle hidle .encode).symm.trans hexec
  obtain ⟨h, S, tree, codes, recs, hS, hT, hfits, hdel⟩ := exists_tableOf_of_encode hstep hok
  obtain ⟨u', hu', -, -, -, hbytes, -, hrec⟩ := hdel
  cases hstep.symm.trans hu'
  have hlen : u.record.resultLen.toNat = containerSize recs (bitsOf recs S) := by
    have := s.args.dc_lt
    rw [hrec, ← containerBytes_length S.length s.args.A] at *
    exact toNat_ofNat_of_lt (w := 32) (by omega)
  have hn : S.length = s.args.n := by rw [hS, readSymbols_length]
  have hsource : 4 * S.length = s.args.sl := by
    have := h.wholeWords
    rw [hn]
    unfold Args.n
    omega
  rw [hlen] at hsl hsame
  have hdec : Decodable v.mem.readByte v.args.sa v.args.sl v.args.dc s.args.A recs (bitsOf recs S) S := by
    rw [hsl, hsa]
    refine hT.decodable (hS ▸ h.symbol_lt) (hn ▸ s.args.n_le) h.alphabet.1 h.alphabet.2 (hsource ▸ hroom)
      (bytesAt_congr hbytes fun o ho => hsame o ?_)
    rwa [containerBytes_length] at ho
  obtain ⟨z, hz, hzengine, hzdone, -, hzbytes, hzsame, hzrec⟩ := hdec.delivers hregions
  rw [symbolBytes_length, hsource] at hzsame hzrec
  have hsymbols := bytesAt_readSymbols s.mem.readByte s.args.sa s.args.n
  rw [← hS] at hsymbols
  refine ⟨_, z, exec_idle hvidle .decode, hz, by rw [hzrec]; rfl, hzengine, hzdone, fun o ho => ?_, hzsame,
    by rw [hzrec, hrec], by rw [hzrec, hrec], by rw [hzrec, hrec], ?_⟩
  · have ho' : o < (S.flatMap (leBytes 4)).length := by rwa [symbolBytes_length, hsource]
    rw [hzbytes o ho', hsymbols o ho']
  · rw [hzrec]
    exact BitVec.ofNat_toNat _ _ |>.trans (BitVec.setWidth_eq _)

end Sys2Proof.Machine
end

section
/-! PROOFS about one step of the whole machine: what it keeps (10_state.md R20, R34, R46), when it changes MEM
(20_memory.md R64 to R66), that it keeps the invariant, and the one move that is refused (20_memory.md R72). -/

namespace Sys2Proof.Machine

/-! ## What an accepted word does to the record, the arguments and the rest -/

theorem State.accepted_record (s : State) (i : Instr) :
    (s.accepted i).record = if i = .nop then s.record else Record.cleared := by cases i <;> rfl

theorem State.accepted_args (s : State) (i : Instr) :
    (s.accepted i).args = if i = .softReset then Args.atReset else s.args := by cases i <;> rfl

theorem State.acceptedWord_args (s : State) (w : Word) :
    (s.acceptedWord w).args = if w = encode .softReset then Args.atReset else s.args := by
  obtain ⟨i, rfl⟩ | ⟨hw, e, he⟩ := word_cases w
  · simp [State.accepted_args]
  · simp [s.acceptedWord_illegal he, hw]

/-- The parameter MEM_BYTES, MEM and the pending events are as before. -/
structure SameMem (s t : State) : Prop where
  memBytes : t.memBytes = s.memBytes
  mem : t.mem = s.mem
  inputs : t.inputs = s.inputs

theorem SameMem.acceptedWord (s : State) (w : Word) : SameMem s (s.acceptedWord w) := by
  obtain ⟨i, rfl⟩ | ⟨-, e, he⟩ := word_cases w
  · rw [State.acceptedWord_encode]
    cases i <;> exact ⟨rfl, rfl, rfl⟩
  · rw [s.acceptedWord_illegal he]
    exact ⟨rfl, rfl, rfl⟩

theorem SameMem.cmdWrite {w : Word} {s t : State} (h : cmdWrite w s = .next t) : SameMem s t := by
  cases hb : s.busy with
  | true =>
    cases (cmdWrite_busy hb w).symm.trans h
    exact ⟨rfl, rfl, rfl⟩
  | false =>
    cases (cmdWrite_idle (s.busy_eq_false_iff.1 hb) w).symm.trans h
    exact .acceptedWord s w

/-- No CSR write reaches MEM (20_memory.md R65). -/
theorem SameMem.csrWriteTo {n : CsrName} {w : Word} {s t : State} (h : csrWriteTo n w s = .next t) : SameMem s t := by
  obtain ⟨-, -, rfl | ⟨-, rfl⟩ | ⟨-, -, -, ht⟩⟩ | ⟨-, rfl⟩ | ⟨-, hcmd⟩ := csrWriteTo_eq_next h
  · exact ⟨rfl, rfl, rfl⟩
  · exact ⟨rfl, rfl, rfl⟩
  · rw [ht]; exact ⟨rfl, rfl, rfl⟩
  · exact ⟨rfl, rfl, rfl⟩
  · exact .cmdWrite hcmd

/-- What a step can do to MEM (20_memory.md R64 to R66, 70_reset_and_hazards.md R340). -/
inductive MemStep (s t : State) : Prop where
  | same (h : t.mem = s.mem)
  | hostWrite (a : Addr) (v : Byte) (rest : List Event) (hin : s.inputs = .memWrite a v :: rest)
      (ha : a.toNat < s.memBytes) (h : t.mem = s.mem.writeByte a.toNat v)
  | output (cmd : LongCmd) (x : Args) (out : CommandResult) (hn : s.nextCompletes) (hb : s.engine = .busy cmd x)
      (hr : s.popped.commandResult cmd x = .ok out) (h : t = (s.popped.succeed x out).dropWork)
  | abandons (cmd : LongCmd) (x : Args) (draw : Nat → Byte) (hn : s.nextResets) (hb : s.engine = .busy cmd x)
      (h : t.mem = s.mem.scramble x.da (min (x.da + x.dc) s.memBytes) draw)

theorem step_mem {s t : State} (h : step s = .next t) : MemStep s t := by
  obtain ⟨hn, he⟩ | ⟨off, rest, hin, rfl⟩ | ⟨off, w, rest, hin, hoff, rfl⟩ | ⟨off, w, rest, n, hin, hoff, hw⟩ |
    ⟨a, rest, hin, b, rfl⟩ | ⟨a, v, rest, hin, ⟨-, rfl⟩ | ⟨ha, rfl⟩⟩ | ⟨rest, hin, rfl⟩ := step_eq_next h
  · obtain ⟨-, rfl⟩ | ⟨cmd, x, hb, ⟨out, hr, ht⟩ | ⟨e, -, rfl⟩⟩ := engineStep_eq_next he
    · exact .same rfl
    · exact .output cmd x out hn hb hr ht
    · exact .same rfl
  · exact .same rfl
  · exact .same rfl
  · exact .same (SameMem.csrWriteTo hw).mem
  · exact .same rfl
  · exact .same rfl
  · exact .hostWrite a v rest hin ha rfl
  · cases hb : s.engine with
    | idle => exact .same (s.popped.hardReset_mem_idle hb)
    | busy cmd x => exact .abandons cmd x _ ⟨rest, hin⟩ hb (s.popped.hardReset_mem_busy hb)

/-- A step takes one event and keeps MEM_BYTES (00_scope.md R10, log 6). -/
theorem step_frame {s t : State} (h : step s = .next t) : t.memBytes = s.memBytes ∧ t.inputs = s.inputs.tail := by
  obtain ⟨-, he⟩ | ⟨off, rest, hin, rfl⟩ | ⟨off, w, rest, hin, hoff, rfl⟩ | ⟨off, w, rest, n, hin, hoff, hw⟩ |
    ⟨a, rest, hin, b, rfl⟩ | ⟨a, v, rest, hin, ⟨-, rfl⟩ | ⟨-, rfl⟩⟩ | ⟨rest, hin, rfl⟩ := step_eq_next h
  case inl =>
    have hf := engineStep_sameForCompletion he
    exact ⟨hf.memBytes, hf.inputs⟩
  case inr.inr.inr.inl =>
    have hf := SameMem.csrWriteTo hw
    exact ⟨hf.memBytes, hf.inputs⟩
  case inr.inr.inr.inr.inr.inr => exact ⟨s.popped.hardReset_memBytes, s.popped.hardReset_inputs⟩
  all_goals exact ⟨rfl, rfl⟩

/-! ## The record and the arguments -/

/-- Settles O23: the record case by case over what a step can do to the control state. -/
theorem recordChangesOnlyAtIssueCompletionAndReset : Obligations.RecordChangesOnlyAtIssueCompletionAndReset := by
  intro s t h
  cases step_control h with
  | completes hn hb ht => simp [hn, hb, hn.not_nextWrites, hn.not_nextResets]
  | idles hn hb ht => simp [ht.record, hn.not_nextWrites, hn.not_nextResets]
  | overruns w hn hb ht => simp [ht, hb, hn.not_nextResets]
  | accepts w hn hb ht =>
    have hi : s.popped.engine = .idle := s.busy_eq_false_iff.1 hb
    obtain ⟨i, rfl⟩ | ⟨hw, e, he⟩ := word_cases w
    · rw [ht, State.acceptedWord_encode, State.accepted_record]
      cases i <;> simp [hb, hn.iff, hn.not_nextResets]
    · rw [ht, State.acceptedWord_illegal_fields _ he hi]
      simp [hb, hn.iff, hn.not_nextResets, hw]
  | acknowledges w hn ht => simp [ht, hn.iff, hn.not_nextResets]
  | resets hn ht => simp [ht, hn, hn.not_nextWrites]
  | plain hn ht => simp [ht.record, hn.notCmd, hn.notResets]

/-- The next step puts the argument CSRs at their reset values: a hardware reset, or SOFT_RESET accepted (10_state.md
R52). -/
def State.nextResetsArgs (s : State) : Prop := s.nextResets ∨ (s.busy = false ∧ s.nextWrites .cmd (encode .softReset))

theorem State.NextIsPlain.not_nextResetsArgs {s : State} (h : s.NextIsPlain) : ¬ s.nextResetsArgs :=
  not_or.2 ⟨h.notResets, fun hs => h.notCmd _ hs.2⟩

theorem State.nextCompletes.not_nextResetsArgs {s : State} (h : s.nextCompletes) : ¬ s.nextResetsArgs :=
  not_or.2 ⟨h.not_nextResets, fun hs => h.not_nextWrites _ _ hs.2⟩

theorem State.nextWrites.nextResetsArgs_iff {s : State} {n : CsrName} {w : Word} (h : s.nextWrites n w) :
    s.nextResetsArgs ↔ s.busy = false ∧ n = .cmd ∧ encode .softReset = w := by
  simp [State.nextResetsArgs, h.not_nextResets, h.iff]

/-- What a step can do to the argument CSRs (10_state.md R20). -/
inductive ArgsStep (s t : State) : Prop where
  | keeps (hn : ¬ s.nextResetsArgs) (ht : t.args = s.args)
  | resets (hn : s.nextResetsArgs) (ht : t.args = Args.atReset)
  | writes (hr : ¬ s.nextResetsArgs) (n : CsrName) (w : Word)
      (hmem : n ∈ [.alphabetSize, .srcAddr, .srcLen, .dstAddr, .dstCap]) (hn : s.nextWrites n w) (hv : t.csrValue n = w)
      (hothers : ∀ k ∈ [CsrName.alphabetSize, .srcAddr, .srcLen, .dstAddr, .dstCap], k ≠ n →
        t.csrValue k = s.csrValue k)

theorem argsStep_of_cmdWrite {s t : State} {w : Word} (hn : s.nextWrites .cmd w) (h : cmdWrite w s.popped = .next t) :
    ArgsStep s t := by
  obtain hb | hb := Bool.eq_false_or_eq_true s.busy
  · cases (cmdWrite_busy (s := s.popped) hb w).symm.trans h
    exact .keeps (by simp [hn.nextResetsArgs_iff, hb]) rfl
  · cases (cmdWrite_idle (s := s.popped) (s.busy_eq_false_iff.1 hb) w).symm.trans h
    have hargs := s.popped.acceptedWord_args w
    by_cases hreset : w = encode .softReset
    · rw [if_pos hreset] at hargs
      exact .resets (hn.nextResetsArgs_iff.2 ⟨hb, rfl, hreset.symm⟩) hargs
    · rw [if_neg hreset] at hargs
      exact .keeps (by simp [hn.nextResetsArgs_iff, Ne.symm hreset]) hargs

theorem argsStep_of_csrWrite {s t : State} {n : CsrName} {w : Word} (hn : s.nextWrites n w)
    (h : csrWriteTo n w s.popped = .next t) : ArgsStep s t := by
  obtain ⟨hcmd, -, ht⟩ | ⟨rfl, rfl⟩ | ⟨rfl, hcw⟩ := csrWriteTo_eq_next h
  · have hr : ¬ s.nextResetsArgs := by simp [hn.nextResetsArgs_iff, hcmd]
    obtain rfl | ⟨-, rfl⟩ | ⟨hmem, hv, hothers, -⟩ := ht
    · exact .keeps hr rfl
    · exact .keeps hr rfl
    · refine .writes hr n w hmem hn hv fun k hk hne => (hothers k hk hne).trans ?_
      cases k <;> rfl
  · exact .keeps (by simp [hn.nextResetsArgs_iff]) rfl
  · exact argsStep_of_cmdWrite hn hcw

theorem step_args {s t : State} (h : step s = .next t) : ArgsStep s t := by
  have plain (hp : s.NextIsPlain) (ht : t.args = s.args) : ArgsStep s t := .keeps hp.not_nextResetsArgs ht
  obtain ⟨hn, he⟩ | ⟨off, rest, hin, rfl⟩ | ⟨off, w, rest, hin, hoff, rfl⟩ | ⟨off, w, rest, n, hin, hoff, hw⟩ |
    ⟨a, rest, hin, b, rfl⟩ | ⟨a, v, rest, hin, ht⟩ | ⟨rest, hin, rfl⟩ := step_eq_next h
  · exact .keeps hn.not_nextResetsArgs (engineStep_sameForCompletion he).args
  · exact plain (.of_event hin nofun nofun nofun) rfl
  · exact plain (.of_csrWrite hin (by simp [hoff]) (by simp [hoff])) rfl
  · exact argsStep_of_csrWrite ⟨off, rest, hin, hoff⟩ hw
  · exact plain (.of_event hin nofun nofun nofun) rfl
  · exact plain (.of_event hin nofun nofun nofun) (by obtain ⟨-, rfl⟩ | ⟨-, rfl⟩ := ht <;> rfl)
  · exact .resets (.inl ⟨rest, hin⟩) s.popped.hardReset_args

/-- Settles O24: a step keeps the arguments, resets them or writes one of them. -/
theorem argumentCsrsChangeOnlyByHostWritesAndResets : Obligations.ArgumentCsrsChangeOnlyByHostWritesAndResets := by
  intro s t h
  refine ⟨(step_frame h).1, ?_⟩
  cases step_args h with
  | keeps hn ht => exact ⟨fun hr => absurd hr hn, fun hne => absurd ht hne⟩
  | resets hn ht => exact ⟨fun _ => ht, fun _ => hn.imp_right .inl⟩
  | writes hr n w hmem hn hv hothers =>
    exact ⟨fun h => absurd h hr, fun _ => .inr (.inr ⟨n, w, hmem, hn, hv, hothers⟩)⟩

/-! ## MEM -/

/-- Settles O25: the three ways a step can change MEM, each with the bytes it covers. -/
theorem memChangesOnlyByHostWritesOutputsAndAbandonment :
    Obligations.MemChangesOnlyByHostWritesOutputsAndAbandonment := by
  intro s t a hinv h hchanged
  cases step_mem h with
  | same h => exact absurd (by rw [h]) hchanged
  | hostWrite b v rest hin hb h =>
    rw [h, Memory.readByte_writeByte] at hchanged
    have hba : b.toNat = a := Decidable.not_not.1 fun hne => hchanged (if_neg hne)
    exact .inl ⟨b, v, rest, hin, hba, hba ▸ hb⟩
  | output cmd x out hn hb hr h =>
    subst h
    obtain ⟨-, hlen, hcap⟩ := (s.popped.commandResult_answers cmd x).of_eq_ok hr
    have hquiet := (hinv.busyQuiet (s.busy_iff.2 ⟨cmd, x, hb⟩)).2
    have hdc := x.dc_lt
    have hreslen : (BitVec.ofNat 32 out.resultLen).toNat = out.resultLen := toNat_ofNat_of_lt (by omega)
    have hcovered : x.da ≤ a ∧ a < x.da + out.bytes.length := by
      refine Decidable.byContradiction fun hout => ?_
      exact hchanged (s.mem.writeBytes_sameOutside x.da out.bytes a (by omega))
    refine .inr (.inl ⟨cmd, x, hb, hn, ?_, hcovered.1, ?_, ?_⟩)
    · exact congrArg Record.errCode hquiet
    · exact Nat.lt_of_lt_of_eq hcovered.2 (by rw [← hlen]; exact congrArg _ hreslen.symm)
    · exact Nat.le_trans (Nat.le_of_eq hreslen) hcap
  | abandons cmd x draw hn hb h =>
    have hcovered : x.da ≤ a ∧ a < min (x.da + x.dc) s.memBytes := by
      refine Decidable.byContradiction fun hout => ?_
      exact hchanged (by rw [h]; exact s.mem.scramble_sameOutside _ _ draw a (by omega))
    exact .inr (.inr ⟨cmd, x, hb, hn, hcovered.1, by omega, by omega⟩)

/-! ## The invariant -/

theorem ErrorKind.le_of_allows {k : ErrorKind} {sub : Nat} (h : k.allows sub = true) : sub ≤ 7 := by
  cases k <;> simp [ErrorKind.allows] at h <;> omega

theorem Record.Legal.ofCleared : Record.cleared.Legal :=
  ⟨rfl, fun _ => ⟨rfl, rfl⟩, fun h => absurd rfl h, fun _ => rfl⟩

/-- The record of a report, after the issue cleared it (60_exceptions.md R313, R316). -/
theorem Record.Legal.ofError {k : ErrorKind} {sub : Nat} (hk : k ≠ .none) (h : k.allows sub = true) (i : DWord)
    (v : Word) :
    Record.Legal { Record.cleared with errCode := k, errSub := BitVec.ofNat 8 sub, errIndex := i, errValue := v } where
  pair := by
    have := ErrorKind.le_of_allows h
    rwa [toNat_ofNat_of_lt (by omega)]
  success := fun h => absurd h hk
  failure := fun _ => ⟨rfl, rfl, rfl, rfl, rfl⟩
  empty := nofun

/-- The record of a success, after the issue cleared it (60_exceptions.md R316). -/
theorem Record.Legal.ofResult (l : Word) (n : Nat) (p : DWord) (k : Word) :
    Record.Legal { Record.cleared with
      empty := decide (n = 0), resultLen := l, resultCount := BitVec.ofNat 64 n, payloadBits := p, tableEntries := k } where
  pair := rfl
  success := fun _ => ⟨rfl, rfl⟩
  failure := fun h => absurd rfl h
  empty := fun h => by rw [of_decide_eq_true h]; rfl

/-- What the invariant says of the engine, DONE, LASTCMD and the record (10_state.md R46, R51; 60_exceptions.md R316). -/
structure ControlLegal (s : State) : Prop where
  busyQuiet : s.busy = true → s.done = false ∧ s.record = Record.cleared
  busyLastCmd : ∀ cmd x, s.engine = .busy cmd x → s.lastCmd = cmd.opcode
  record : s.record.Legal

theorem ControlLegal.of_idle {s : State} (h : s.engine = .idle) (hr : s.record.Legal) : ControlLegal s where
  busyQuiet hb := by rw [s.busy_eq_false_iff.2 h] at hb; cases hb
  busyLastCmd _ _ hb := by rw [h] at hb; cases hb
  record := hr

theorem ControlLegal.of_sameControl {s t : State} (h : ControlLegal s) (hc : SameControl s t) : ControlLegal t where
  busyQuiet hb := by rw [hc.done, hc.record]; exact h.busyQuiet (hc.busy ▸ hb)
  busyLastCmd cmd x hb := by rw [hc.lastCmd]; exact h.busyLastCmd cmd x (hc.engine ▸ hb)
  record := hc.record ▸ h.record

theorem ControlLegal.acceptedWord {s : State} (h : ControlLegal s) (hi : s.engine = .idle) (w : Word) :
    ControlLegal (s.acceptedWord w) := by
  obtain ⟨i, rfl⟩ | ⟨-, e, he⟩ := word_cases w
  · rw [State.acceptedWord_encode]
    cases i with
    | nop => exact .of_idle hi h.record
    | encode | decode => exact ⟨fun _ => ⟨rfl, rfl⟩, fun _ _ hb => by cases hb; rfl, .ofCleared⟩
    | clear => exact .of_idle hi .ofCleared
    | softReset => exact .of_idle rfl .ofCleared
  · rw [s.acceptedWord_illegal he]
    exact .of_idle rfl (.ofError (k := .illegalCommand) (sub := 0) nofun rfl _ _)

/-- A completion leaves a legal record (60_exceptions.md R316). -/
theorem ControlLegal.engineStep {s t : State} (h : ControlLegal s) (hs : engineStep s = .next t) : ControlLegal t := by
  obtain ⟨-, rfl⟩ | ⟨cmd, x, hb, hend⟩ := engineStep_eq_next hs
  · exact h
  have hcleared := (h.busyQuiet (s.busy_iff.2 ⟨cmd, x, hb⟩)).2
  obtain ⟨out, -, rfl⟩ | ⟨e, hr, rfl⟩ := hend
  · refine .of_idle rfl ?_
    rw [State.dropWork_record, State.succeed_record, hcleared]
    exact .ofResult _ _ _ _
  · obtain ⟨hkind, hallows, -, -⟩ := (s.commandResult_answers cmd x).of_eq_error hr
    refine .of_idle rfl ?_
    rw [State.dropWork_record, State.report_record, hcleared]
    refine .ofError (fun hnone => ?_) hallows _ _
    rw [hnone] at hkind
    exact absurd hkind (by decide)

theorem ControlLegal.step {s t : State} (h : ControlLegal s) (hs : step s = .next t) : ControlLegal t := by
  cases step_control hs with
  | completes hn hb ht => exact ControlLegal.engineStep (s := s.popped) ⟨h.busyQuiet, h.busyLastCmd, h.record⟩ ht
  | idles hn hb ht => exact h.of_sameControl ht
  | overruns w hn hb ht => rw [ht]; exact ⟨h.busyQuiet, h.busyLastCmd, h.record⟩
  | accepts w hn hb ht =>
    rw [ht]
    exact ControlLegal.acceptedWord (s := s.popped) ⟨h.busyQuiet, h.busyLastCmd, h.record⟩ (s.busy_eq_false_iff.1 hb) w
  | acknowledges w hn ht =>
    rw [ht]
    refine ⟨fun hb => ?_, h.busyLastCmd, h.record⟩
    obtain ⟨hdone, hrec⟩ := h.busyQuiet hb
    exact ⟨by simp [hdone], hrec⟩
  | resets hn ht =>
    rw [ht]
    exact .of_idle s.popped.hardReset_engine (by rw [State.hardReset_record]; exact .ofCleared)
  | plain hn ht => exact h.of_sameControl ht

/-- A step keeps MEM's canonical form and its place inside MEM_BYTES (20_memory.md R60). -/
theorem step_keeps_mem {s t : State} (hwf : s.mem.wf) (hin : ∀ c ∈ s.mem, c.1 < s.memBytes) (h : step s = .next t) :
    t.mem.wf ∧ ∀ c ∈ t.mem, c.1 < s.memBytes := by
  cases step_mem h with
  | same h => rw [h]; exact ⟨hwf, hin⟩
  | hostWrite a v rest _ ha h =>
    rw [h]
    refine ⟨Memory.writeByte_wf hwf _ _, fun c hc => ?_⟩
    rcases mem_mapPut hc with rfl | hc
    · exact ha
    · exact hin c hc
  | output cmd x out hn hb hr h =>
    subst h
    obtain ⟨hregions, hlen, hcap⟩ := (s.popped.commandResult_answers cmd x).of_eq_ok hr
    have hdst : x.da + x.dc ≤ s.memBytes := hregions.destination
    refine ⟨Memory.writeBytes_wf hwf _ _, fun c hc => ?_⟩
    rcases Memory.mem_writeBytes (a := x.da) (bs := out.bytes) hc with hc | hc
    · exact hin c hc
    · omega
  | abandons cmd x draw hn hb h =>
    rw [h]
    refine ⟨Memory.scramble_wf hwf _ _ _, fun c hc => ?_⟩
    rcases Memory.mem_scramble hc with hc | hc
    · exact hin c hc
    · omega

/-- Settles O27: MEM and the control state each keep their part of the invariant. -/
theorem everyStepKeepsTheStateLegal : Obligations.EveryStepKeepsTheStateLegal := by
  intro s t hinv h
  obtain ⟨hmb, -⟩ := step_frame h
  obtain ⟨hwf, hin⟩ := step_keeps_mem hinv.memWf hinv.memInside h
  have hc := ControlLegal.step ⟨hinv.busyQuiet, hinv.busyLastCmd, hinv.record⟩ h
  exact ⟨hmb ▸ hinv.memBytesLegal, hwf, hmb ▸ hin, hc.busyQuiet, hc.busyLastCmd, hc.record⟩

/-- Settles O26: at reset MEM lists nothing, the engine is IDLE and the record is cleared. -/
theorem resetStateIsLegal : Obligations.ResetStateIsLegal := by
  have hc : ControlLegal State.reset := .of_idle rfl .ofCleared
  exact ⟨by decide, .nil, nofun, hc.busyQuiet, hc.busyLastCmd, hc.record⟩

/-! ## The move that is refused, and the completion -/

theorem State.latchedRegion_eq_true {s : State} {a : Nat} : s.latchedRegion a = true ↔ ∃ cmd x, s.engine = .busy cmd x ∧
    ((x.sa ≤ a ∧ a < x.sa + x.sl) ∨ (x.da ≤ a ∧ a < x.da + x.dc)) := by
  unfold State.latchedRegion
  cases s.engine with
  | idle => simp
  | busy cmd x =>
    simp only [Args.inRegions, inRegion, Bool.or_eq_true, Bool.and_eq_true, decide_eq_true_eq]
    constructor
    · exact fun h => ⟨cmd, x, rfl, h⟩
    · rintro ⟨_, _, hb, h⟩
      cases hb
      exact h

/-- Settles O29: every other event and the engine's turn answer a next state. -/
theorem onlyAHostAccessToALatchedRegionIsRefused : Obligations.OnlyAHostAccessToALatchedRegionIsRefused := by
  refine fun s r => ⟨fun h => ?_, ?_⟩
  · cases hin : s.inputs with
    | nil =>
      obtain ⟨t, ht⟩ := engineStep_next s
      cases ht.symm.trans ((step_nil hin).symm.trans h)
    | cons e rest =>
      rw [step_cons hin] at h
      obtain ⟨t, ht⟩ | ⟨a, he, ha, hl, hr⟩ := runEvent_next e { s with inputs := rest }
      · cases ht.symm.trans h
      · cases hr.symm.trans h
        obtain ⟨cmd, x, hb, hregion⟩ := State.latchedRegion_eq_true.1 hl
        refine ⟨a, rest, cmd, x, ?_, hb, ha, hregion, rfl⟩
        obtain rfl | ⟨v, rfl⟩ := he
        · exact .inl rfl
        · exact .inr ⟨v, rfl⟩
  · rintro ⟨a, rest, cmd, x, hin, hb, ha, hregion, rfl⟩
    have hl : ({ s with inputs := rest } : State).latchedRegion a.toNat = true :=
      State.latchedRegion_eq_true.2 ⟨cmd, x, hb, hregion⟩
    obtain hin | ⟨v, hin⟩ := hin <;> rw [step_cons hin] <;>
      exact (if_neg (Nat.not_le.2 ha)).trans (if_pos hl)

/-- An event that keeps the host's duty is not refused while the command runs (20_memory.md R72). -/
theorem runEvent_next_of_duty {e : Event} {s : State} {cmd : LongCmd} {x : Args} (hb : s.engine = .busy cmd x)
    (hduty : keepsDuty x s.memBytes e = true) : ∃ t, runEvent e s = .next t := by
  obtain h | ⟨a, he, ha, hl, -⟩ := runEvent_next e s
  · exact h
  · have hregion : x.inRegions a.toNat = true := by simpa [State.latchedRegion, hb] using hl
    obtain rfl | ⟨v, rfl⟩ := he <;> simp [keepsDuty, hregion, Nat.not_le.2 ha] at hduty

/-- Settles O30, by induction over the pending events: each one completes the command or leaves it running. -/
theorem runningCommandCompletes : Obligations.RunningCommandCompletes := by
  intro s cmd x hb hduty
  induction hin : s.inputs generalizing s with
  | nil =>
    obtain ⟨t, ht⟩ := engineStep_next s
    obtain ⟨hi, hd, -⟩ := engineStep_busy_next (s.busy_iff.2 ⟨cmd, x, hb⟩) ht
    exact ⟨1, t, Nat.le_refl _, by rw [← step_nil hin] at ht; simp [Host.Core.run, Sys2Proof.core, ht], hi, hd⟩
  | cons e rest ih =>
    obtain ⟨⟨hreset, hkeep⟩, hrest⟩ := List.forall_mem_cons.1 (hin ▸ hduty)
    obtain ⟨t, ht⟩ := runEvent_next_of_duty (s := { s with inputs := rest }) hb hkeep
    have hbusy : ({ s with inputs := rest } : State).busy = true := (State.busy_iff _).2 ⟨cmd, x, hb⟩
    have hstep : step s = .next t := (step_cons hin).trans ht
    by_cases hslot : e = .engineSlot
    · subst hslot
      obtain ⟨hi, hd, -⟩ := engineStep_busy_next hbusy ht
      exact ⟨1, t, by omega, by simp [Host.Core.run, Sys2Proof.core, hstep], hi, hd⟩
    · obtain ⟨hmb, hinputs⟩ := step_frame hstep
      rw [hin, List.tail_cons] at hinputs
      have hengine := (runEvent_engine_busy hbusy hreset hslot ht).trans hb
      obtain ⟨k, u, hk, hrun, hu⟩ := ih t hengine (by rw [hinputs, hmb]; exact hrest) hinputs
      refine ⟨k + 1, u, by simpa using hk, ?_, hu⟩
      rw [Host.Core.run, show Sys2Proof.core.step s = .next t from hstep]
      exact hrun

end Sys2Proof.Machine
end

section
/-! PROOFS about the ports and reset: the STATUS word and the result CSRs (10_state.md R30, R39 to R44), the MEM host port
(20_memory.md R65, R67), the interrupt line (60_exceptions.md R325), the resets (10_state.md R52, 70_reset_and_hazards.md
R340, R345), and that the working state is unobservable (10_state.md R50). -/

namespace Sys2Proof.Machine

/-! ## STATUS and the result CSRs -/

theorem State.err_eq (s : State) : s.err = decide (s.record.errCode ≠ .none) := by
  unfold State.err
  cases s.record.errCode <;> rfl

/-- The fields of STATUS above its flags (10_state.md R30). -/
theorem State.status_fields (s : State) : s.status.extractLsb' 5 3 = 0#3 ∧
    s.status.extractLsb' 8 8 = s.record.errCode.code ∧ s.status.extractLsb' 16 8 = s.lastCmd ∧
    s.status.extractLsb' 24 8 = s.record.errSub := by
  have hfields (errSub lastCmd code : BitVec 8) (ovr empty err done busy : BitVec 1) :
      let word := errSub ++ lastCmd ++ code ++ 0#3 ++ ovr ++ empty ++ err ++ done ++ busy
      word.extractLsb' 5 3 = 0#3 ∧ word.extractLsb' 8 8 = code ∧ word.extractLsb' 16 8 = lastCmd ∧
        word.extractLsb' 24 8 = errSub := by
    intro word
    refine ⟨?_, ?_, ?_, ?_⟩
    all_goals iterate 5 refine (BitVec.extractLsb'_append_eq_of_le (by decide)).trans ?_
    · exact BitVec.extractLsb'_append_eq_right
    all_goals refine (BitVec.extractLsb'_append_eq_of_le (by decide)).trans ?_
    · exact BitVec.extractLsb'_append_eq_right
    all_goals refine (BitVec.extractLsb'_append_eq_of_le (by decide)).trans ?_
    · exact BitVec.extractLsb'_append_eq_right
    · exact BitVec.extractLsb'_append_eq_left
  exact hfields ..

/-- Settles O7: the low byte bit by bit and the fields above it. -/
theorem statusWordHoldsItsFields : Obligations.StatusWordHoldsItsFields := by
  refine ⟨⟨rfl, rfl, rfl, rfl, rfl, rfl, rfl⟩, fun s => ⟨s.csrReadAt_listed (csrAt_csrOffset .status), s.status_busy,
    s.status_getLsbD (by decide), ?_, s.status_getLsbD (by decide), s.status_getLsbD (by decide), s.status_fields⟩⟩
  exact (s.status_getLsbD (by decide)).trans s.err_eq

theorem hiHalf_append_loHalf (v : DWord) : hiHalf v ++ loHalf v = v :=
  BitVec.extractLsb'_append_extractLsb'_eq_extractLsb' rfl |>.trans BitVec.extractLsb'_eq_self

/-- Settles O6, from the CSR each offset reaches. -/
theorem resultCsrsReadTheRecord : Obligations.ResultCsrsReadTheRecord := by
  intro s
  have read (n : CsrName) : s.csrReadAt (csrOffset n) = s.csrValue n := s.csrReadAt_listed (csrAt_csrOffset n)
  have halves {hi lo : CsrName} {v : DWord} (hhi : s.csrValue hi = hiHalf v) (hlo : s.csrValue lo = loHalf v) :
      s.csrReadAt (csrOffset hi) ++ s.csrReadAt (csrOffset lo) = v := by
    rw [read, read, hhi, hlo, hiHalf_append_loHalf]
  exact ⟨read .ctrl, read .alphabetSize, read .srcAddr, read .srcLen, read .dstAddr, read .dstCap, read .resultLen,
    halves (hi := .resultCountHi) (lo := .resultCountLo) rfl rfl,
    halves (hi := .payloadBitsHi) (lo := .payloadBitsLo) rfl rfl, read .tableEntries,
    halves (hi := .errIndexHi) (lo := .errIndexLo) rfl rfl, read .errValue, read .cmd⟩

/-! ## The MEM host port -/

theorem hostMemRead_outside {s : State} {a : Addr} (h : s.memBytes ≤ a.toNat) :
    hostMemRead a s = .next { s with memRdata := 0 } := if_pos h

theorem hostMemWrite_outside {s : State} {a : Addr} (h : s.memBytes ≤ a.toNat) (v : Byte) :
    hostMemWrite a v s = .next s := if_pos h

section
variable {s : State} {a : Addr} (h : a.toNat < s.memBytes) (hl : s.latchedRegion a.toNat = false)
include h hl

theorem hostMemRead_inside : hostMemRead a s = .next { s with memRdata := s.mem.readByte a.toNat } :=
  (if_neg (Nat.not_le.2 h)).trans (if_neg (by rw [hl]; exact Bool.false_ne_true))

theorem hostMemWrite_inside (v : Byte) : hostMemWrite a v s = .next { s with mem := s.mem.writeByte a.toNat v } :=
  (if_neg (Nat.not_le.2 h)).trans (if_neg (by rw [hl]; exact Bool.false_ne_true))

end

/-- Settles O32: the port's two transactions outside MEM and inside it. -/
theorem hostMemPortReadsAndWritesOneByte : Obligations.HostMemPortReadsAndWritesOneByte := by
  refine ⟨fun s a v => ⟨rfl, rfl⟩, fun s a h => ⟨hostMemRead_outside h, hostMemWrite_outside h⟩,
    fun s a h hl => ⟨hostMemRead_inside h hl, fun v => ⟨_, hostMemWrite_inside h hl v, ?_, fun b hb => ?_⟩⟩,
    fun s a hb => ?_⟩
  · rw [Memory.readByte_writeByte, if_pos rfl]
  · rw [Memory.readByte_writeByte, if_neg (Ne.symm hb)]
  · simp [State.latchedRegion, s.busy_eq_false_iff.1 hb]

/-- Byte i of the little-endian bytes of v (00_scope.md R14). -/
theorem leBytes_getD {n i : Nat} (h : i < n) (v : Nat) : (leBytes n v).getD i 0 = BitVec.ofNat 8 (v / 256 ^ i) := by
  induction n generalizing i v with
  | zero => cases h
  | succ n ih =>
    cases i with
    | zero => simp [leBytes]
    | succ i =>
      rw [leBytes, List.getD_cons_succ, ih (by omega), Nat.div_div_eq_div_mul, ← Nat.pow_succ']

/-- Settles O33: memory holds the bytes that were written, and a read combines them. -/
theorem multiByteValuesAreLittleEndian : Obligations.MultiByteValuesAreLittleEndian := by
  intro m a n v
  have hbytes := m.bytesAt_writeBytes a (leBytes n v)
  have hout := m.writeBytes_sameOutside a (leBytes n v)
  rw [leBytes_length] at hout
  refine ⟨memRead_of_leBytes hbytes, hout, fun i hi => ?_⟩
  rw [hbytes i (by rwa [leBytes_length]), leBytes_getD hi]
  exact BitVec.toNat_ofNat _ _

/-! ## The interrupt line -/

theorem State.irq_eq_ie {s : State} (h : s.done = true) : s.irq = s.ie := by rw [State.irq, h, Bool.and_true]

theorem State.acceptedWord_irq (s : State) (w : Word) : (s.acceptedWord w).irq =
    (s.ie && decide (w ∉ [encode .encode, encode .decode, encode .softReset])) := by
  obtain ⟨i, rfl⟩ | ⟨hw, e, he⟩ := word_cases w
  · cases i <;> simp [State.irq, State.accepted]
  · simp [State.irq, s.acceptedWord_illegal he, hw]

/-- Settles O10: irq after each kind of step, from what it does to IE and DONE. -/
theorem interruptFollowsDoneAndEnable : Obligations.InterruptFollowsDoneAndEnable := by
  refine ⟨fun s => by simp [State.irq], fun s w => ⟨_, rfl, rfl, rfl⟩, fun s n w hn => ?_, fun s t hb h => ?_,
    fun s w hb => ⟨_, cmdWrite_busy hb w, rfl⟩,
    fun s w hb => ⟨_, cmdWrite_idle (s.busy_eq_false_iff.1 hb) w, s.acceptedWord_irq w⟩, fun s => by simp [State.irq]⟩
  · obtain ⟨a, ht, -⟩ := csrWriteTo_argument hn w s
    exact ⟨_, ht, rfl⟩
  · obtain ⟨-, hd, hf⟩ := engineStep_busy_next hb h
    rw [State.irq_eq_ie hd, hf.ie]

/-! ## The resets -/

theorem State.status_eq_zero {s : State} (he : s.engine = .idle) (hd : s.done = false) (ho : s.ovr = false)
    (hl : s.lastCmd = 0) (hr : s.record = Record.cleared) : s.status = 0 := by
  have hb := s.busy_eq_false_iff.2 he
  have herr : s.err = false := by rw [s.err_eq, hr]; rfl
  rw [State.status, hb, hd, ho, hl, herr, hr]
  rfl

/-- Settles O13: SOFT_RESET decodes, is dropped while BUSY, and resets the registers while IDLE. -/
theorem softResetRestoresResetValuesAndKeepsMem : Obligations.SoftResetRestoresResetValuesAndKeepsMem := by
  refine ⟨decode_encode .softReset, fun s hb => dispatch_busy hb _, fun s hs => ⟨_, exec_idle hs .softReset, rfl, rfl, rfl,
    State.status_eq_zero rfl rfl rfl rfl rfl, rfl, rfl, rfl, rfl, rfl, rfl, rfl, rfl, rfl, rfl⟩⟩

/-- Settles O34: the registers are reset, and MEM is as before outside the destination of an abandoned command. -/
theorem hardwareResetRestoresAndAbandons : Obligations.HardwareResetRestoresAndAbandons := by
  refine fun s => ⟨_, rfl, s.hardReset_ie, s.hardReset_args, s.hardReset_engine,
    State.status_eq_zero s.hardReset_engine s.hardReset_done s.hardReset_ovr s.hardReset_lastCmd s.hardReset_record,
    s.hardReset_record, s.hardReset_done, s.hardReset_ovr, s.hardReset_lastCmd, s.hardReset_memBytes, s.hardReset_csrRdata,
    s.hardReset_memRdata, s.hardReset_inputs, s.hardReset_mem_idle, fun cmd x hb a ha => ?_⟩
  rw [s.hardReset_mem_busy hb]
  exact s.mem.scramble_sameOutside _ _ _ a (ha.imp_right fun h => Nat.le_trans (Nat.min_le_left _ _) h)

/-- With the arguments at reset the regions are empty. -/
theorem regionsOk_atReset (m : Nat) : RegionsOk m Args.atReset :=
  ⟨Nat.zero_le _, Nat.zero_le _, fun a h => by simp [inRegion, Args.sa, Args.sl, Args.atReset] at h⟩

/-- The arguments at reset meet ENCODE's conditions, for a source of no symbol. -/
theorem encodeOk_atReset (m : Nat) (rd : Nat → Byte) : EncodeOk m rd Args.atReset :=
  ⟨by decide, rfl, regionsOk_atReset m, fun i hi => absurd hi (Nat.not_lt_zero i)⟩

/-- Settles O35: the empty source's container of 24 bytes does not fit a capacity of 0, and a source of 0 bytes holds no
header. -/
theorem commandsStraightAfterReset : Obligations.CommandsStraightAfterReset := by
  intro s hs hargs
  refine ⟨⟨_, exec_idle hs .encode, ?_⟩, ⟨_, exec_idle hs .decode, ?_⟩, ⟨_, exec_idle hs .nop, rfl, rfl⟩,
    ⟨_, exec_idle hs .clear, rfl, rfl⟩⟩
  · obtain ⟨tree, codes, recs, hT⟩ := exists_tableOf s.args.A []
    have hrecs := hT.eq_nil
    subst hrecs
    exact hT.reports (hargs ▸ encodeOk_atReset _ _) (by rw [hargs]; rfl) (by rw [hargs]; decide)
  · refine State.reports_of_decodeContainer (s := s.accepted .decode) (x := s.args) rfl ?_ (decodeContainer_short ?_)
    · rw [hargs]; exact regionsOk_atReset _
    · rw [hargs]; decide

/-! ## The working state -/

/-- The state with another working state. -/
def State.withWork (s : State) (w : Work) : State := { s with work := w }

@[simp] theorem State.withWork_memBytes (s : State) (w : Work) : (s.withWork w).memBytes = s.memBytes := rfl
@[simp] theorem State.withWork_engine (s : State) (w : Work) : (s.withWork w).engine = s.engine := rfl
@[simp] theorem State.withWork_inputs (s : State) (w : Work) : (s.withWork w).inputs = s.inputs := rfl
@[simp] theorem State.withWork_busy (s : State) (w : Work) : (s.withWork w).busy = s.busy := rfl
@[simp] theorem State.withWork_latchedRegion (s : State) (w : Work) (a : Nat) :
    (s.withWork w).latchedRegion a = s.latchedRegion a := rfl

theorem State.withWork_commandResult (s : State) (w : Work) (cmd : LongCmd) (x : Args) :
    (s.withWork w).commandResult cmd x = s.commandResult cmd x := by cases cmd <;> rfl

theorem State.withWork_csrReadAt (s : State) (w : Work) (off : BitVec 12) :
    (s.withWork w).csrReadAt off = s.csrReadAt off := by
  unfold State.csrReadAt
  cases csrAt off with
  | none => rfl
  | some n => cases n <;> rfl

/-- Two outcomes that differ in the working state alone (10_state.md R50). -/
def SameButWork (o o' : Host.Outcome State Fault Refusal) : Prop :=
  match o with
  | .next t => ∃ w, o' = .next (t.withWork w)
  | .fault f => o' = .fault f
  | .refused r => o' = .refused r

section
variable (s : State) (w : Work)

theorem engineStep_sameButWork : SameButWork (engineStep s) (engineStep (s.withWork w)) := by
  cases hb : s.engine with
  | idle =>
    rw [engineStep_idle hb, engineStep_idle ((s.withWork_engine w).trans hb)]
    exact ⟨w, rfl⟩
  | busy cmd x =>
    rw [engineStep_busy hb, engineStep_busy ((s.withWork_engine w).trans hb), s.withWork_commandResult]
    match s.commandResult cmd x with
    | .ok out => exact ⟨_, rfl⟩
    | .error (.raised e) => exact ⟨_, rfl⟩
    | .error (.unreachable u) => exact rfl

theorem cmdWrite_sameButWork (word : Word) : SameButWork (cmdWrite word s) (cmdWrite word (s.withWork w)) := by
  obtain hb | hb := Bool.eq_false_or_eq_true s.busy
  · rw [cmdWrite_busy hb, cmdWrite_busy ((s.withWork_busy w).trans hb)]
    exact ⟨w, rfl⟩
  · have hi := s.busy_eq_false_iff.1 hb
    rw [cmdWrite_idle hi, cmdWrite_idle ((s.withWork_engine w).trans hi)]
    obtain ⟨i, rfl⟩ | ⟨-, e, he⟩ := word_cases word
    · rw [State.acceptedWord_encode, State.acceptedWord_encode]
      cases i <;> exact ⟨_, rfl⟩
    · rw [s.acceptedWord_illegal he, State.acceptedWord_illegal _ he]
      exact ⟨w, rfl⟩

theorem csrWriteTo_sameButWork (n : CsrName) (word : Word) :
    SameButWork (csrWriteTo n word s) (csrWriteTo n word (s.withWork w)) := by
  cases n
  case cmd => exact cmdWrite_sameButWork s w word
  all_goals exact ⟨w, rfl⟩

theorem hostMemRead_sameButWork (a : Addr) : SameButWork (hostMemRead a s) (hostMemRead a (s.withWork w)) := by
  unfold hostMemRead
  rw [State.withWork_memBytes, State.withWork_latchedRegion]
  split
  · exact ⟨w, rfl⟩
  · split
    · exact rfl
    · exact ⟨w, rfl⟩

theorem hostMemWrite_sameButWork (a : Addr) (v : Byte) :
    SameButWork (hostMemWrite a v s) (hostMemWrite a v (s.withWork w)) := by
  unfold hostMemWrite
  rw [State.withWork_memBytes, State.withWork_latchedRegion]
  split
  · exact ⟨w, rfl⟩
  · split
    · exact rfl
    · exact ⟨w, rfl⟩

theorem runEvent_sameButWork (e : Event) : SameButWork (runEvent e s) (runEvent e (s.withWork w)) := by
  cases e with
  | csrRead off => exact ⟨w, by rw [runEvent, State.withWork_csrReadAt]; rfl⟩
  | csrWrite off word =>
    cases hoff : csrAt off with
    | none => rw [runEvent_csrWrite_unlisted hoff, runEvent_csrWrite_unlisted hoff]; exact ⟨w, rfl⟩
    | some n => rw [runEvent_csrWrite_listed hoff, runEvent_csrWrite_listed hoff]; exact csrWriteTo_sameButWork s w n word
  | memRead a => exact hostMemRead_sameButWork s w a
  | memWrite a v => exact hostMemWrite_sameButWork s w a v
  | hwReset =>
    refine ⟨Config.unspecifiedWork s.draws, ?_⟩
    simp only [runEvent, State.hardReset, State.withWork_engine]
    cases s.engine <;> rfl
  | engineSlot => exact engineStep_sameButWork s w

theorem step_sameButWork : SameButWork (step s) (step (s.withWork w)) := by
  cases hin : s.inputs with
  | nil =>
    rw [step_nil hin, step_nil ((s.withWork_inputs w).trans hin)]
    exact engineStep_sameButWork s w
  | cons e rest =>
    rw [step_cons hin, step_cons ((s.withWork_inputs w).trans hin)]
    exact runEvent_sameButWork { s with inputs := rest } w e

end

/-- Settles O31: each part of a step gives the same outcome up to the working state, and each CSR reads what it reads. -/
theorem workingStateIsUnobservable : Obligations.WorkingStateIsUnobservable := by
  refine ⟨step_sameButWork, rfl, fun s e w r m d l n hn hstatus => ?_, fun s e w m d l => rfl, fun s hinv hb => ?_,
    fun s cmd x cmd' x' w m => rfl⟩
  · cases n
    case status => exact absurd rfl hstatus
    case resultLen | resultCountLo | resultCountHi | payloadBitsLo | payloadBitsHi | tableEntries | errIndexLo | errIndexHi |
      errValue => exact absurd (by decide) hn
    all_goals rfl
  · obtain ⟨-, hrec⟩ := hinv.busyQuiet hb
    simp only [State.commandView, resultAndErrorCsrs, List.cons_append, List.nil_append, List.map, State.csrValue, hrec]
    rfl

/-! ## Steps -/

/-- Settles O18: the next event is what a step runs, and a CMD write runs what its word decodes to. -/
theorem stepRunsTheDecodedCommand : Obligations.StepRunsTheDecodedCommand := by
  refine ⟨fun s off w i rest hin hoff hd => ?_, fun s off w e rest hin hoff hd => ?_, fun s e rest => step_cons,
    fun s => ⟨step_nil, rfl⟩, fun s i => ?_⟩
  · rw [step_cons hin, runEvent_csrWrite_listed hoff, (decode_eq_ok_iff w i).1 hd]
    exact cmdWrite_encode i _
  · rw [step_cons hin, runEvent_csrWrite_listed hoff]
    exact cmdWrite_illegal hd _
  · have hword : tableWord (encode i).toNat = encode i := BitVec.ofNat_toNat _ _ |>.trans (BitVec.setWidth_eq _)
    rw [step_cons (s := s.withFetchWord 32 (encode i).toNat) rfl, runEvent_csrWrite_listed (csrAt_csrOffset .cmd), hword]
    exact cmdWrite_encode i s

end Sys2Proof.Machine
end

section
/-! PROOFS about the encodings: the sample command words (30_encoding.md R81, R82), and the transaction tuples and the lines
of a host program (R85 to R87). -/

namespace Sys2Proof.Machine

/-- Settles O2: the decoder evaluated on each word. -/
theorem sampleCommandWordsDecode : Obligations.SampleCommandWordsDecode := ⟨rfl, rfl, rfl, rfl, rfl, rfl, rfl⟩

/-! ## Transaction tuples -/

theorem tuple_wf_of_toTuple {e : Event} {t : Tuple} (h : e.toTuple = some t) : t.wf = true := by
  cases e <;> cases h
  case csrRead off => exact Bool.and_eq_true_iff.2 ⟨decide_eq_true off.isLt, rfl⟩
  case csrWrite off w => exact Bool.and_eq_true_iff.2 ⟨decide_eq_true off.isLt, decide_eq_true w.isLt⟩
  case memRead a => exact Bool.and_eq_true_iff.2 ⟨decide_eq_true a.isLt, rfl⟩
  case memWrite a v => exact Bool.and_eq_true_iff.2 ⟨decide_eq_true a.isLt, decide_eq_true v.isLt⟩

theorem toEvent_of_toTuple {e : Event} {t : Tuple} (h : e.toTuple = some t) : t.toEvent = some e := by
  have hwf := tuple_wf_of_toTuple h
  cases e <;> cases h <;> simp [Tuple.toEvent, hwf]

theorem exists_toTuple_of_wf {t : Tuple} (h : t.wf = true) : ∃ e : Event, e.toTuple = some t := by
  obtain ⟨port, dir, addr, data⟩ := t
  simp only [Tuple.wf, Tuple.addrFits, Tuple.dataFits, Bool.and_eq_true] at h
  obtain ⟨haddr, hdata⟩ := h
  cases port <;> cases dir <;> cases data <;> simp only [decide_eq_true_eq, reduceCtorEq] at haddr hdata
  case csr.r.none => exact ⟨.csrRead (BitVec.ofNat 12 addr), by rw [Event.toTuple, toNat_ofNat_of_lt haddr]⟩
  case csr.w.some v =>
    exact ⟨.csrWrite (BitVec.ofNat 12 addr) (BitVec.ofNat 32 v),
      by rw [Event.toTuple, toNat_ofNat_of_lt haddr, toNat_ofNat_of_lt hdata]⟩
  case mem.r.none => exact ⟨.memRead (BitVec.ofNat 32 addr), by rw [Event.toTuple, toNat_ofNat_of_lt haddr]⟩
  case mem.w.some v =>
    exact ⟨.memWrite (BitVec.ofNat 32 addr) (BitVec.ofNat 8 v),
      by rw [Event.toTuple, toNat_ofNat_of_lt haddr, toNat_ofNat_of_lt hdata]⟩

theorem toTuple_of_toEvent {t : Tuple} {e : Event} (h : t.toEvent = some e) : e.toTuple = some t := by
  have hwf : t.wf = true := by
    refine Decidable.byContradiction fun hwf => ?_
    rw [Tuple.toEvent, if_neg hwf] at h
    cases h
  obtain ⟨e', he'⟩ := exists_toTuple_of_wf hwf
  cases h.symm.trans (toEvent_of_toTuple he')
  exact he'

theorem exists_toTuple {e : Event} (hreset : e ≠ .hwReset) (hslot : e ≠ .engineSlot) : ∃ t, e.toTuple = some t := by
  cases e
  case hwReset => exact absurd rfl hreset
  case engineSlot => exact absurd rfl hslot
  all_goals exact ⟨_, rfl⟩

/-! ## Program lines -/

theorem memWrite_portAddr_toTuple {a b : Nat} (ha : a < 2 ^ 32) (hb : b < 2 ^ 8) :
    (Event.memWrite (portAddr a) (BitVec.ofNat 8 b)).toTuple = some ⟨.mem, .w, a, some b⟩ := by
  rw [Event.toTuple, portAddr_toNat, Nat.min_eq_left (by omega), toNat_ofNat_of_lt hb]

theorem memRead_portAddr_toTuple {a : Nat} (ha : a < 2 ^ 32) :
    (Event.memRead (portAddr a)).toTuple = some ⟨.mem, .r, a, none⟩ := by
  rw [Event.toTuple, portAddr_toNat, Nat.min_eq_left (by omega)]

/-- Byte i of a well-formed `memw` line is the write of that byte to a + i (30_encoding.md R86). -/
theorem memw_getElem?_toTuple {a : Nat} {bs : List Nat} (hwf : (AsmLine.memw a bs).wf = true) {i b : Nat}
    (hi : bs[i]? = some b) :
    ((AsmLine.memw a bs).expand[i]?).map Event.toTuple = some (some ⟨.mem, .w, a + i, some b⟩) := by
  simp only [AsmLine.wf, Bool.and_eq_true, decide_eq_true_eq, List.all_eq_true, Config.addrW_eq] at hwf
  obtain ⟨hlen, hbytes⟩ := hwf
  obtain ⟨hlt, -⟩ := List.getElem?_eq_some_iff.1 hi
  have hb : b < 2 ^ 8 := hbytes b (List.mem_of_getElem? hi)
  rw [AsmLine.expand, memwEvents_getElem?, hi, ← memWrite_portAddr_toTuple (by omega) hb]
  rfl

theorem memr_getElem?_toTuple {a n : Nat} (hwf : (AsmLine.memr a n).wf = true) {i : Nat} (hi : i < n) :
    ((AsmLine.memr a n).expand[i]?).map Event.toTuple = some (some ⟨.mem, .r, a + i, none⟩) := by
  simp only [AsmLine.wf, decide_eq_true_eq, Config.addrW_eq] at hwf
  rw [AsmLine.expand, memrEvents_getElem? hi, ← memRead_portAddr_toTuple (by omega)]
  rfl

section
variable {s : State} {a i : Nat} {e : Event} (hm : s.memBytes ≤ 2 ^ 32 - 1) (ha : s.memBytes ≤ a + i)
include hm ha

/-- An access of `memw` outside MEM is ignored, also past the last address (20_memory.md R60, R67). -/
theorem runEvent_memw_outside {bs : List Nat} (h : (AsmLine.memw a bs).expand[i]? = some e) : runEvent e s = .next s := by
  rw [AsmLine.expand, memwEvents_getElem?, Option.map_eq_some_iff] at h
  obtain ⟨b, -, rfl⟩ := h
  exact hostMemWrite_outside (le_portAddr_toNat hm ha) _

theorem runEvent_memr_outside {n : Nat} (h : (AsmLine.memr a n).expand[i]? = some e) :
    runEvent e s = .next { s with memRdata := 0 } := by
  obtain ⟨hi, -⟩ := List.getElem?_eq_some_iff.1 h
  rw [AsmLine.expand, memrEvents_getElem? ((memrEvents_length a n).symm ▸ hi)] at h
  cases h
  exact hostMemRead_outside (le_portAddr_toNat hm ha)

end

theorem memw32_toTuple {a v : Nat} (hwf : (AsmLine.memw32 a v).wf = true) : (AsmLine.memw32 a v).expand.map Event.toTuple =
    [some ⟨.mem, .w, a, some (v % 2 ^ 8)⟩, some ⟨.mem, .w, a + 1, some (v / 2 ^ 8 % 2 ^ 8)⟩,
      some ⟨.mem, .w, a + 2, some (v / 2 ^ 16 % 2 ^ 8)⟩, some ⟨.mem, .w, a + 3, some (v / 2 ^ 24)⟩] := by
  simp only [AsmLine.wf, Bool.and_eq_true, decide_eq_true_eq, Config.addrW_eq] at hwf
  obtain ⟨ha, hv⟩ := hwf
  have hbyte (k : Nat) : k % 256 < 2 ^ 8 := Nat.mod_lt _ (by decide)
  have htop : v / 16777216 % 256 = v / 2 ^ 24 := by omega
  have hwrite (k : Nat) (hk : k < 4) (b : Nat) :
      (Event.memWrite (portAddr (a + k)) (BitVec.ofNat 8 (b % 256))).toTuple = some ⟨.mem, .w, a + k, some (b % 256)⟩ :=
    memWrite_portAddr_toTuple (by omega) (hbyte b)
  rw [← htop]
  exact List.cons_eq_cons.2 ⟨hwrite 0 (by decide) v, List.cons_eq_cons.2 ⟨hwrite 1 (by decide) (v / 256),
    List.cons_eq_cons.2 ⟨hwrite 2 (by decide) (v / 65536),
      List.cons_eq_cons.2 ⟨hwrite 3 (by decide) (v / 16777216), rfl⟩⟩⟩⟩

/-- Settles O3: the tuples and events are inverse to each other, and each line expands as the section says. -/
theorem transactionsAndTuplesAgree : Obligations.TransactionsAndTuplesAgree := by
  refine ⟨fun e hreset hslot => ?_, fun e t h => ⟨tuple_wf_of_toTuple h, toEvent_of_toTuple h⟩,
    fun t e => toTuple_of_toEvent, fun t hwf => ?_, fun n v => ?_, fun n => rfl, memwEvents_length,
    fun a bs hwf i b => memw_getElem?_toTuple hwf, memrEvents_length, fun a n hwf i => memr_getElem?_toTuple hwf,
    fun s a bs i e hm ha => runEvent_memw_outside hm ha, fun s a n i e hm ha => runEvent_memr_outside hm ha,
    fun i => ?_, rfl, fun a v => memw32_toTuple, fun a v => rfl, fun a => rfl, rfl, fun l p => List.flatMap_cons⟩
  · obtain ⟨t, ht⟩ := exists_toTuple hreset hslot
    exact ⟨t, ht, tuple_wf_of_toTuple ht, toEvent_of_toTuple ht⟩
  · obtain ⟨e, he⟩ := exists_toTuple_of_wf hwf
    exact ⟨e, toEvent_of_toTuple he⟩
  · simp [AsmLine.expand, Event.toTuple]
  · cases i <;> rfl

end Sys2Proof.Machine
end
